-- ==== Sys2Proof/Word.lean ====
section
/-!
DEFINITION. The words of HUFFCORE: a byte (00_scope.md R7: one symbol), and the 32-bit word of the host port
and of every register (10_state.md, section B4).
-/

namespace Sys2Proof

/-- One byte, "one byte value (0–255)" (00_scope.md R7). -/
abbrev Byte := BitVec 8

/-- A 32-bit word: a bus address, a register, a command word. -/
abbrev Word := BitVec 32

end Sys2Proof
end

