-- ==== Sys2Proof/Syntax.lean ====
section
/-!
DEFINITION. The eight commands of HUFFCORE (30_encoding.md R101), the rows of spec/opcode_table.json. No command has an
operand field (R103), so no constructor has an argument.
-/

namespace Sys2Proof

/-- A command (00_scope.md R2: HUFFCORE's "instructions" are the commands a host writes to CMD). -/
inductive Instr where
  /-- NOP, 46_pipeline_commands.md R250. -/
  | nop
  /-- CLEAR, 46_pipeline_commands.md R251. -/
  | clear
  /-- COUNT, 41_frequency_counter.md R150. -/
  | count
  /-- BUILD, 42_tree_builder.md R170. -/
  | build
  /-- GENCODE, 43_code_table.md R190. -/
  | gencode
  /-- ENCODE, 44_bit_encoder.md R210. -/
  | encode
  /-- PACK, 45_bit_packer.md R230. -/
  | pack
  /-- RUN, 46_pipeline_commands.md R252. -/
  | run
  deriving DecidableEq, Repr

end Sys2Proof
end

