-- ==== Sys2Proof/Decode.lean ====
section
/-!
DEFINITION. The command word (30_encoding.md R100 to R105, R109): decoder, encoder, disassembly.
-/

namespace Sys2Proof

/-- Why a word is no command (30_encoding.md R102, R104). -/
inductive DecodeError where
  /-- RSV, bits [31:8], is not 0. -/
  | reservedField (rsv : BitVec 24)
  /-- OP, bits [7:0], is above 0x07. -/
  | undefinedOpcode (op : Byte)
  /-- Fewer than four bytes: a command is one 32-bit word (R105), so there is no word to decode. -/
  | truncated
  deriving DecidableEq, Repr

/-- OP, bits [7:0] of a command word (30_encoding.md R100). -/
def opField (w : Word) : Byte := w.extractLsb' 0 8

/-- RSV, bits [31:8] of a command word (30_encoding.md R100). -/
def rsvField (w : Word) : BitVec 24 := w.extractLsb' 8 24

/-- The opcode map of 30_encoding.md R101, by OP. -/
def decodeOp (op : Byte) : Except DecodeError Instr :=
  match op.toNat with
  | 0x00 => .ok .nop
  | 0x01 => .ok .clear
  | 0x02 => .ok .count
  | 0x03 => .ok .build
  | 0x04 => .ok .gencode
  | 0x05 => .ok .encode
  | 0x06 => .ok .pack
  | 0x07 => .ok .run
  | _ => .error (.undefinedOpcode op)

/-- `decode(w)` of 30_encoding.md R102: total, every word one of the eight commands or illegal. -/
def decode (w : Word) : Except DecodeError Instr :=
  if rsvField w ≠ 0 then .error (.reservedField (rsvField w)) else decodeOp (opField w)

/-- A word from four bytes, the first in bits [7:0] (20_memory.md R73). -/
def wordOfBytes (b0 b1 b2 b3 : Byte) : Word :=
  b3 ++ b2 ++ b1 ++ b0

/-- The four bytes of a word, the lowest address first (20_memory.md R73). -/
def bytesOfWord (w : Word) : List Byte :=
  [w.extractLsb' 0 8, w.extractLsb' 8 8, w.extractLsb' 16 8, w.extractLsb' 24 8]

/-- Decoding of bytes: the command of the first four, and the bytes after them. -/
def decodeBytes : List Byte → Except DecodeError (Instr × List Byte)
  | b0 :: b1 :: b2 :: b3 :: rest =>
    match decode (wordOfBytes b0 b1 b2 b3) with
    | .ok i => .ok (i, rest)
    | .error e => .error e
  | _ => .error .truncated

/-- The instruction the decoder reads from a word numbered as spec/opcode_table.json numbers it: `nbits` bits `w`, every bit
above them 0, laid out as four bytes with the lowest first. -/
def decodeTableWord (nbits w : Nat) : Option Instr :=
  match decodeBytes (bytesOfWord (BitVec.ofNat 32 (w % 2 ^ nbits))) with
  | .ok (i, _) => some i
  | .error _ => none

/-- The word of a command (30_encoding.md R101). -/
def encode : Instr → Word
  | .nop => 0x00000000#32
  | .clear => 0x00000001#32
  | .count => 0x00000002#32
  | .build => 0x00000003#32
  | .gencode => 0x00000004#32
  | .encode => 0x00000005#32
  | .pack => 0x00000006#32
  | .run => 0x00000007#32

/-- The mnemonic of a command (30_encoding.md R101). -/
def mnemonic : Instr → String
  | .nop => "NOP"
  | .clear => "CLEAR"
  | .count => "COUNT"
  | .build => "BUILD"
  | .gencode => "GENCODE"
  | .encode => "ENCODE"
  | .pack => "PACK"
  | .run => "RUN"

/-- A word in eight hexadecimal digits. -/
def hexWord (w : Word) : String :=
  String.ofList ((List.range 8).map fun i => Nat.digitChar (w.toNat / 16 ^ (7 - i) % 16))

/-- Disassembly (30_encoding.md R109): a legal word prints as its mnemonic, an illegal one as `.illegal 0xHHHHHHHH`. -/
def disassemble (w : Word) : String :=
  match decode w with
  | .ok i => mnemonic i
  | .error _ => ".illegal 0x" ++ hexWord w

end Sys2Proof
end

