-- ==== Sys2Proof/Config.lean ====
section
/-!
DEFINITION. What one instance of HUFFCORE fixes (00_scope.md R6), and the free values of the model: the `draw()`
of 00_scope.md R11, each a constant with no body, so that nothing proved can depend on what it is.
-/

namespace Sys2Proof

/-- The three parameters of an instance (00_scope.md R6). The legal ranges are `Config.wellFormed`. -/
structure Config where
  /-- IBUF_BYTES: the size of the input buffer; the largest legal LEN. -/
  ibufBytes : Nat
  /-- OBUF_BYTES: the size of the output buffer. -/
  obufBytes : Nat
  /-- NLANES: the number of physical worker lanes. No result depends on it (00_scope.md R6). -/
  nlanes : Nat
  deriving DecidableEq, Repr

/-- The defaults of 00_scope.md R6. -/
def Config.standard : Config := { ibufBytes := 65536, obufBytes := 2097152, nlanes := 4 }

/-- FREE VALUE (log 6). The `n`-th draw, taken as the duration of a stage: the counter value is this plus one, so every
value from 1 to 0xFFFF_FFFF is possible and 0 is not (10_state.md R40). -/
opaque Config.freeDuration : Nat → Fin 4294967295

/-- FREE VALUE (log 6, log 7). The `n`-th draw, taken as what a read of a CYC_* counter returns while BUSY = 1
(10_state.md R40). -/
opaque Config.freeRead : Nat → Word

/-- FREE VALUE (log 6). The `n`-th draw, taken as the contents of OBUF byte `j` after a reset that abandons PACK
(70_reset_and_hazards.md R301: "chosen independently per byte"). -/
opaque Config.freeByte : (n : Nat) → (j : Nat) → Byte

end Sys2Proof
end

