-- ==== Sys2Proof/Machine/Transaction.lean ====
section
/-!
DEFINITION. What passes over the host port: transactions and responses (20_memory.md R70, R71), and the statements of a
host program (30_encoding.md R106, R107).
-/

namespace Sys2Proof.Machine

/-- The size of an access, "a size n in {1, 2, 4} bytes" (20_memory.md R70). -/
inductive Size where
  | byte
  | half
  | word
  deriving DecidableEq, Repr

/-- A host bus transaction: `read n addr` is MemRead(addr, n) (20_memory.md R70), `write n addr v` is
MemWrite(addr, n, v) (R71). The value of a write is the low n bytes of `v` (log 16). -/
inductive Txn where
  | read (n : Size) (addr : Word)
  | write (n : Size) (addr : Word) (v : Word)
  deriving DecidableEq, Repr

/-- The response of a transaction (20_memory.md R70). -/
inductive Resp where
  | okay
  | slverr
  | decerr
  deriving DecidableEq, Repr

/-- What the host gets back: the response, and for a read the value `rdata`, zero-extended to a word; "with SLVERR or
DECERR `rdata` is 0" (20_memory.md R70). A write gets `rdata` 0. -/
structure Reply where
  resp : Resp
  rdata : Word
  deriving DecidableEq, Repr

/-- One line of a host program (30_encoding.md R106): a transaction, or the loop `poll addr, mask, value` of R107, which
repeats `lw addr` until (rdata AND mask) = value. The loop `wait` is a `poll` (see `wait`); the other
pseudo-instructions are finite sequences. -/
inductive HostStmt where
  | txn (t : Txn)
  | poll (addr mask value : Word)
  deriving DecidableEq, Repr

end Sys2Proof.Machine
end

