-- ==== Sys2Proof/Machine/State.lean ====
section
/-!
DEFINITION. The state of HUFFCORE (10_state.md R20 to R57) as plain data, its values after reset and at power-up, and the
reasons a step of the model can stop.
-/

namespace Sys2Proof.Machine

/-- A stage code (10_state.md R24, STAGE; 40_command_sequencer.md R121). `zero` is the pseudo-stage of NOP, CLEAR and an
illegal word. -/
inductive Stage where
  | zero
  | count
  | build
  | gencode
  | encode
  | pack
  deriving DecidableEq, Repr

/-- The errors of a command (60_exceptions.md R270). Code 0 is the absence of an error and codes 7 to 15 are never
produced. -/
inductive ErrCode where
  | emptyInput
  | invalidWorkerCount
  | length
  | sequence
  | overflow
  | illegalCommand
  deriving DecidableEq, Repr

/-- How the last accepted command completed: the STATUS fields DONE, ERR, ERRCODE and (when ERR = 1) STAGE (10_state.md
R24). "DONE and ERR are never both 1", and ERRCODE is 0 when ERR is 0: one value says all four (log 9). -/
inductive Completion where
  /-- DONE = ERR = 0: no command has completed since reset, or one is running. -/
  | none
  /-- DONE = 1. -/
  | done
  /-- ERR = 1, ERRCODE = the code of `e`, STAGE = `st`. -/
  | error (e : ErrCode) (st : Stage)
  deriving DecidableEq, Repr

/-- The sequencer state SEQ (10_state.md R50): IDLE, or BUSY(w, q) with the accepted word and the stages still to
perform. STATUS.BUSY, and STAGE while BUSY, are read from it. -/
inductive Seq where
  | idle
  | busy (w : Word) (q : List Stage)
  deriving DecidableEq, Repr

/-- The stage valid flags, STATUS bits 16 to 20 (10_state.md R25). -/
structure Valid where
  freq : Bool
  tree : Bool
  ctab : Bool
  enc : Bool
  out : Bool
  deriving DecidableEq, Repr

/-- The stage cycle counters CYC_COUNT .. CYC_PACK (10_state.md R40). -/
structure Cycles where
  count : Word
  build : Word
  gencode : Word
  encode : Word
  pack : Word
  deriving DecidableEq, Repr

/-- A symbol: one byte value, an index of FREQ and of the code table (00_scope.md R7). -/
abbrev Symbol := Fin 256

/-- A node id, an index of the 511-entry arena (10_state.md R43, R44). -/
abbrev NodeId := Fin 511

/-- An entry of NODE_INFO (10_state.md R44) by the three kinds it can be: VALID = 0; VALID = 1 and INTERNAL = 0; VALID =
INTERNAL = 1 with its LEFT and RIGHT children (log 9). -/
inductive NodeInfo where
  | absent
  | leaf
  | inner (left right : NodeId)
  deriving DecidableEq, Repr

/-- A data memory: its bytes by address, in one canonical form (`Memory.wf`): addresses strictly rising, no byte listed that
equals what an unlisted address reads as. -/
abbrev Memory := List Host.Cell

/-- Who takes the next step: the host, the engine, or the environment with a reset (00_scope.md R3, 40_command_sequencer.md
R122, 70_reset_and_hazards.md R300). -/
inductive Agent where
  | host
  | engine
  | reset
  deriving DecidableEq, Repr

/-- The state of the machine. Fields up to `obuf` are the spec's (10_state.md R20); those after it are the model's own. -/
structure State where
  /-- The parameters of the instance (00_scope.md R6); no step writes them (log 1). -/
  cfg : Config
  /-- SEQ (R50); STATUS.BUSY and STAGE while BUSY. -/
  seq : Seq
  /-- STATUS.DONE, ERR, ERRCODE, and STAGE after an error (R24). -/
  completion : Completion
  /-- STATUS[20:16] (R25). -/
  valid : Valid
  /-- LEN (R26). -/
  len : Word
  /-- NW (R27). -/
  nw : Word
  /-- NSYM (R28). -/
  nsym : BitVec 9
  /-- ROOT (R29), "0 to 510". -/
  root : NodeId
  /-- RAW_BITS (R30). -/
  rawBits : Word
  /-- ENC_BITS (R31). -/
  encBits : Word
  /-- OUTLEN (R32). -/
  outLen : Word
  /-- MAXLEN (R33). -/
  maxLen : Byte
  /-- LASTCMD (R34). -/
  lastCmd : Word
  /-- IRQ_EN (R35): bit 0 DONE_IE, bit 1 ERR_IE. -/
  irqEn : BitVec 2
  /-- IRQ_STAT (R36): bit 0 DONE_IS, bit 1 ERR_IS. -/
  irqStat : BitVec 2
  /-- CYC_COUNT .. CYC_PACK (R40). -/
  cyc : Cycles
  /-- FREQ (R42). -/
  freq : Vector Word 256
  /-- NODE_CNT (R43). -/
  nodeCnt : Vector Word 511
  /-- NODE_INFO (R44). -/
  nodeInfo : Vector NodeInfo 511
  /-- CTAB_LEN (R45). -/
  ctabLen : Vector Byte 256
  /-- CTAB_CVAL (R46). -/
  ctabVal : Vector (BitVec 255) 256
  /-- BBUF (R49), a bit string, first bit first. -/
  bbuf : List Bool
  /-- IBUF (R47), by byte address 0 .. IBUF_BYTES - 1. -/
  ibuf : Memory
  /-- OBUF (R48), by byte address 0 .. OBUF_BYTES - 1. -/
  obuf : Memory
  /-- The host's statements still to perform, the next first (log 3). -/
  prog : List HostStmt
  /-- Which agents move next, the next first (log 2). -/
  sched : List Agent
  /-- The last transaction of the host and its response (log 3). -/
  bus : Option (Txn × Reply)
  /-- How many free values have been taken (log 6). -/
  draws : Nat
  deriving DecidableEq, Repr

/-- Why a step of the model stops. Each reason is met only in a state that no run reaches, and each is SAFE: the spec gives
such a state no next one (log 11). -/
inductive Fault where
  /-- Raised by BUILD: NSYM is not 0 and every FREQ entry is 0, so "the single element of PQ" does not exist
  (42_tree_builder.md R170). Safe. -/
  | buildQueueEmpty
  /-- Raised by GENCODE: a path of more than 255 branches from ROOT, so no code fits CTAB_LEN (00_scope.md R7). Safe. -/
  | codeTooLong
  /-- Raised by GENCODE: a node that is not internal and whose id is no symbol (10_state.md R44). Safe. -/
  | leafWithoutSymbol
  /-- Raised by ENCODE: CTAB_VALID = 1 and LEN > IBUF_BYTES, so the input is not in IBUF (44_bit_encoder.md R216). Safe. -/
  | inputBeyondIbuf
  /-- Raised by PACK: ENC_VALID = 1 and BBUF is shorter than ENC_BITS (10_state.md R49). Safe. -/
  | streamShorterThanEncBits
  /-- Raised by PACK: ENC_VALID = 1 and ENC_BITS / 8 > OBUF_BYTES, so a byte has no place in OBUF (45_bit_packer.md R230).
  Safe. -/
  | packBeyondObuf
  deriving DecidableEq, Repr

/-- Why the model does not run an instruction. -/
inductive Refusal where
  /-- Raised by an arm of `exec` that has no meaning yet. Safe. -/
  | notModelled (mnemonic : String)
  /-- Raised by a meaning when SEQ is not BUSY at a stage of that command: the engine step of the command is not enabled
  (40_command_sequencer.md R122, R125). `step` never meets it in a state a run reaches. Safe (log 12). -/
  | engineNotEnabled
  deriving DecidableEq, Repr

/-- The state at power-up (70_reset_and_hazards.md R303): every register and table as after a reset (10_state.md R57), IBUF and
OBUF holding the images the model takes as parameters, for an instance with parameters `cfg`. -/
def State.powerUp (cfg : Config) (ibufImage obufImage : Memory) : State :=
  { cfg := cfg
    seq := .idle
    completion := .none
    valid := { freq := false, tree := false, ctab := false, enc := false, out := false }
    len := 0
    nw := 0
    nsym := 0
    root := 0
    rawBits := 0
    encBits := 0
    outLen := 0
    maxLen := 0
    lastCmd := 0
    irqEn := 0
    irqStat := 0
    cyc := { count := 0, build := 0, gencode := 0, encode := 0, pack := 0 }
    freq := Vector.replicate 256 0
    nodeCnt := Vector.replicate 511 0
    nodeInfo := Vector.replicate 511 .absent
    ctabLen := Vector.replicate 256 0
    ctabVal := Vector.replicate 256 0
    bbuf := []
    ibuf := ibufImage
    obuf := obufImage
    prog := []
    sched := []
    bus := none
    draws := 0 }

/-- The machine right after reset (10_state.md R57): the instance with the default parameters (00_scope.md R6), IBUF and OBUF
the image in which no byte is listed (log 1, log 5). -/
def State.reset : State := State.powerUp Config.standard [] []

end Sys2Proof.Machine
end

