-- ==== Sys2Proof/Machine/Flags.lean ====
section
/-!
DEFINITION. The flags (10_state.md R53): BUSY, DONE, ERR and the stage valid flags of STATUS (R24, R25), the IRQ_STAT bits
(R36), and the `irq` output (60_exceptions.md R281).
-/

namespace Sys2Proof.Machine

/-- The stage code (10_state.md R24, STAGE). -/
def Stage.code : Stage → Nat
  | .zero => 0
  | .count => 1
  | .build => 2
  | .gencode => 3
  | .encode => 4
  | .pack => 5

/-- The error code (60_exceptions.md R270). -/
def ErrCode.code : ErrCode → Nat
  | .emptyInput => 1
  | .invalidWorkerCount => 2
  | .length => 3
  | .sequence => 4
  | .overflow => 5
  | .illegalCommand => 6

/-- STATUS.DONE (10_state.md R24). -/
def Completion.isDone : Completion → Bool
  | .done => true
  | .none | .error _ _ => false

/-- STATUS.ERR (10_state.md R24). -/
def Completion.isError : Completion → Bool
  | .error _ _ => true
  | .none | .done => false

/-- STATUS.ERRCODE: the code when ERR = 1, "0 otherwise" (10_state.md R24). -/
def Completion.errCode : Completion → Nat
  | .error e _ => e.code
  | .none | .done => 0

/-- STATUS.STAGE when not BUSY: the stage that raised the error, "otherwise 0" (10_state.md R24). -/
def Completion.stageCode : Completion → Nat
  | .error _ st => st.code
  | .none | .done => 0

/-- STATUS.BUSY: "STATUS.BUSY = 1 iff SEQ is BUSY" (10_state.md R50). -/
def State.busy (s : State) : Bool :=
  match s.seq with
  | .busy _ _ => true
  | .idle => false

/-- The command word SEQ holds while BUSY (10_state.md R50): what the engine decodes (40_command_sequencer.md R123, R125). -/
def State.fetch (s : State) : Option Word :=
  match s.seq with
  | .busy w _ => some w
  | .idle => none

/-- STATUS.STAGE (10_state.md R24): "STATUS.STAGE while busy is the head of q" (R50). -/
def State.statusStage (s : State) : Nat :=
  match s.seq with
  | .busy _ (st :: _) => st.code
  | .busy _ [] => 0
  | .idle => s.completion.stageCode

/-- All five valid flags 0. -/
def Valid.allClear : Valid := { freq := false, tree := false, ctab := false, enc := false, out := false }

/-- The valid flag of a stage (10_state.md R25); the pseudo-stage has none. -/
def Valid.flag (v : Valid) : Stage → Bool
  | .zero => false
  | .count => v.freq
  | .build => v.tree
  | .gencode => v.ctab
  | .encode => v.enc
  | .pack => v.out

/-- `clear_valid_from(s)` (40_command_sequencer.md R127): the flag of `s` and of every later stage becomes 0. -/
def Valid.clearFrom (v : Valid) : Stage → Valid
  | .zero => v
  | .count => Valid.allClear
  | .build => { v with tree := false, ctab := false, enc := false, out := false }
  | .gencode => { v with ctab := false, enc := false, out := false }
  | .encode => { v with enc := false, out := false }
  | .pack => { v with out := false }

/-- The end of a successful body sets the stage's valid flag (40_command_sequencer.md R124). -/
def Valid.setFlag (v : Valid) : Stage → Valid
  | .zero => v
  | .count => { v with freq := true }
  | .build => { v with tree := true }
  | .gencode => { v with ctab := true }
  | .encode => { v with enc := true }
  | .pack => { v with out := true }

/-- STATUS[20:16] as a number: FREQ_VALID is its bit 0, OUT_VALID its bit 4 (10_state.md R25). -/
def Valid.bits (v : Valid) : Nat :=
  v.freq.toNat + 2 * v.tree.toNat + 4 * v.ctab.toNat + 8 * v.enc.toNat + 16 * v.out.toNat

/-- STATUS (10_state.md R24, R25): BUSY [0], DONE [1], ERR [2], ERRCODE [7:4], STAGE [10:8], the valid flags [20:16], every
other bit 0. -/
def State.statusWord (s : State) : Word :=
  BitVec.ofNat 32 (s.busy.toNat + 2 * s.completion.isDone.toNat + 4 * s.completion.isError.toNat +
    16 * s.completion.errCode + 256 * s.statusStage + 65536 * s.valid.bits)

/-- DONE_IS set, as a mask of IRQ_STAT (10_state.md R36). -/
def doneIs : BitVec 2 := 0b01#2

/-- ERR_IS set, as a mask of IRQ_STAT (10_state.md R36). -/
def errIs : BitVec 2 := 0b10#2

/-- The `irq` output (60_exceptions.md R281). -/
def State.irq (s : State) : Bool :=
  (s.irqStat.getLsbD 0 && s.irqEn.getLsbD 0) || (s.irqStat.getLsbD 1 && s.irqEn.getLsbD 1)

end Sys2Proof.Machine
end

