-- ==== Sys2Proof/Machine/Ops.lean ====
section
/-!
DEFINITION. The operations every agent shares: the data memories, the stage list of a command, acceptance, and the
completion of a command with or without an error (40_command_sequencer.md).
-/

namespace Sys2Proof.Machine

/-! ## The data memories -/

/-- What an address that is not listed reads as (log 5). -/
def Memory.blank : Byte := 0

/-- The byte at an address. -/
def Memory.read : Memory → Nat → Byte
  | [], _ => Memory.blank
  | (b, v) :: rest, a => if a = b then v else Memory.read rest a

/-- Writes one byte and keeps the canonical form: writing what an unlisted address reads as removes the entry. -/
def Memory.write : Memory → Nat → Byte → Memory
  | [], a, v => if v = Memory.blank then [] else [(a, v)]
  | (b, w) :: rest, a, v =>
    if a < b then (if v = Memory.blank then (b, w) :: rest else (a, v) :: (b, w) :: rest)
    else if a = b then (if v = Memory.blank then rest else (a, v) :: rest)
    else (b, w) :: Memory.write rest a v

/-- Writes bytes at ascending addresses from `a`. -/
def Memory.writeBytes (m : Memory) (a : Nat) : List Byte → Memory
  | [] => m
  | v :: vs => Memory.writeBytes (m.write a v) (a + 1) vs

/-- The `n` bytes from address `a`, in ascending address order. -/
def Memory.readBytes (m : Memory) (a n : Nat) : List Byte :=
  (List.range n).map fun i => m.read (a + i)

/-- The canonical form: addresses strictly rising, no byte listed that equals what an unlisted address reads as. -/
def Memory.wf : Memory → Bool
  | [] => true
  | (a, v) :: rest =>
    decide (v ≠ Memory.blank) && rest.all (fun c => decide (a < c.1)) && Memory.wf rest

/-- Every listed address is below the memory's size. -/
def Memory.within (m : Memory) (size : Nat) : Bool :=
  m.all fun c => decide (c.1 < size)

/-- A value from bytes, the lowest address in the low bits (20_memory.md R73). -/
def littleEndian : List Byte → Nat
  | [] => 0
  | b :: bs => b.toNat + 256 * littleEndian bs

/-- The `n` bytes of a value, the low bits at the lowest address (20_memory.md R73). -/
def toLittleEndian : (n : Nat) → Nat → List Byte
  | 0, _ => []
  | n + 1, v => BitVec.ofNat 8 v :: toLittleEndian n (v / 256)

/-! ## Arithmetic of the notation -/

/-- "`ceil8(x)` is the least multiple of 8 not below x" (00_scope.md R11). -/
def ceil8 (x : Nat) : Nat := (x + 7) / 8 * 8

/-- `bits_L(V)` (00_scope.md R10): the bit string of length L whose i-th bit is V[L-1-i]. -/
def bitsOf (len : Nat) (v : BitVec 255) : List Bool :=
  (List.range len).map fun i => v.getLsbD (len - 1 - i)

/-! ## The sequencer -/

/-- The stages a command performs (40_command_sequencer.md R121). -/
def stages : Instr → List Stage
  | .nop => [.zero]
  | .clear => [.zero]
  | .count => [.count]
  | .build => [.build]
  | .gencode => [.gencode]
  | .encode => [.encode]
  | .pack => [.pack]
  | .run => [.count, .build, .gencode, .encode, .pack]

/-- `stages(w)` (40_command_sequencer.md R121): an illegal word has the pseudo-stage only. -/
def stagesOfWord (w : Word) : List Stage :=
  match decode w with
  | .ok i => stages i
  | .error _ => [.zero]

/-- `accept(w)` (40_command_sequencer.md R120): "Nothing else changes at acceptance". -/
def State.accept (s : State) (w : Word) : State :=
  { s with lastCmd := w, completion := .none, seq := .busy w (stagesOfWord w) }

/-- `finish_ok()` (40_command_sequencer.md R133). -/
def State.finishOk (s : State) : State :=
  { s with seq := .idle, completion := .done, irqStat := s.irqStat ||| doneIs }

/-- `finish_error(e, s)` (40_command_sequencer.md R134): what raising an error does on this hardware ("trap entry is
completion", 60_exceptions.md R279); what it records is 60_exceptions.md R276. -/
def State.finishError (s : State) (e : ErrCode) (st : Stage) : State :=
  { s with seq := .idle, completion := .error e st, irqStat := s.irqStat ||| errIs }

/-- The counterpart of a return from the handler (60_exceptions.md R283): the host's W1C write to IRQ_STAT clears each bit for
which the written bit is 1 (10_state.md R36). -/
def State.acknowledge (s : State) (written : Word) : State :=
  { s with irqStat := s.irqStat &&& ~~~(written.extractLsb' 0 2) }

/-- The end of a stage that did not fail (40_command_sequencer.md R125): the next stage of the list, or completion. -/
def State.advance (s : State) : State :=
  match s.seq with
  | .busy w (_ :: st :: rest) => { s with seq := .busy w (st :: rest) }
  | .busy _ [_] | .busy _ [] | .idle => s.finishOk

/-- Writes the cycle counter of a stage (10_state.md R40); the pseudo-stage has none. -/
def Cycles.set (c : Cycles) (v : Word) : Stage → Cycles
  | .zero => c
  | .count => { c with count := v }
  | .build => { c with build := v }
  | .gencode => { c with gencode := v }
  | .encode => { c with encode := v }
  | .pack => { c with pack := v }

/-- The cycle counter of a stage. -/
def Cycles.get (c : Cycles) : Stage → Word
  | .zero => 0
  | .count => c.count
  | .build => c.build
  | .gencode => c.gencode
  | .encode => c.encode
  | .pack => c.pack

/-- The `n`-th draw as a stage duration, "1 <= value <= 0xFFFF_FFFF" (10_state.md R40). -/
def duration (n : Nat) : Word := BitVec.ofNat 32 ((Config.freeDuration n).val + 1)

/-- `CYC[s] <- draw()` (40_command_sequencer.md R125). -/
def State.recordDuration (s : State) (st : Stage) : State :=
  { s with cyc := s.cyc.set (duration s.draws) st, draws := s.draws + 1 }

/-- The start of a stage (40_command_sequencer.md R127). -/
def State.startStage (s : State) (st : Stage) : State :=
  { s with valid := s.valid.clearFrom st }

/-- One engine step for a stage 1 to 5 (40_command_sequencer.md R124, R125): the start of the stage, its checks, its counter,
then completion with the first failing check (`onFail` says what the stage still writes, R129), or the body, the stage's
valid flag, and the next stage or completion. -/
def stageStep (st : Stage) (check : State → Except Fault (Option ErrCode)) (onFail : ErrCode → State → State)
    (body : State → Except Fault State) (s : State) : Host.Outcome State Fault Refusal :=
  match check (s.startStage st) with
  | .error f => .fault f
  | .ok (some e) => .next ((onFail e ((s.startStage st).recordDuration st)).finishError e st)
  | .ok none =>
    match body ((s.startStage st).recordDuration st) with
    | .error f => .fault f
    | .ok t => .next ({ t with valid := t.valid.setFlag st }).advance

/-- A stage that fails writes nothing of its own (40_command_sequencer.md R129), but for ENCODE with OVERFLOW. -/
def noFailWrites (_ : ErrCode) (s : State) : State := s

/-- SEQ is BUSY with the one stage `st` left: the engine step of a command that performs `st` alone is enabled
(40_command_sequencer.md R121, R125). -/
def State.atOnly (s : State) (st : Stage) : Bool :=
  match s.seq with
  | .busy _ [h] => decide (h = st)
  | .busy _ _ | .idle => false

/-- The engine step for an illegal word in the pseudo-stage (40_command_sequencer.md R123): ILLEGAL_COMMAND, STAGE = 0,
nothing else. -/
def illegalStep (s : State) : Host.Outcome State Fault Refusal :=
  if s.atOnly .zero then .next (s.finishError .illegalCommand .zero) else .refused .engineNotEnabled

/-- An OKAY write to LEN or IBUF clears all five valid flags (20_memory.md R79). -/
def State.invalidate (s : State) : State :=
  { s with valid := Valid.allClear }

end Sys2Proof.Machine
end

