-- ==== Sys2Proof/Machine/Operands.lean ====
section
/-!
DEFINITION. The operands of the commands: fixed state, "No command has an immediate or an operand field" (30_encoding.md
R103). LEN, NW, the input IBUF[0..LEN), the code of a symbol.
-/

namespace Sys2Proof.Machine

/-- NW is legal: read as a signed 32-bit integer it is 1 or more (10_state.md R27; 40_command_sequencer.md R130 "NW = 0 or
NW[31] = 1" is an error). -/
def State.workersLegal (s : State) : Bool :=
  decide (0 < s.nw.toInt)

/-- LEN fits the input buffer: compared as unsigned (41_frequency_counter.md R150). -/
def State.lengthLegal (s : State) : Bool :=
  decide (s.len.toNat ≤ s.cfg.ibufBytes)

/-- The input, IBUF[0..LEN) in ascending address order (10_state.md R47, 20_memory.md R74). -/
def State.input (s : State) : List Byte :=
  s.ibuf.readBytes 0 s.len.toNat

/-- A byte as the symbol it is (00_scope.md R7). -/
def symbolOfByte (b : Byte) : Symbol := b.toFin

/-- The leaf of a symbol: "a leaf's id is its symbol (0..255)" (10_state.md R44). -/
def leafId (c : Symbol) : NodeId := ⟨c.val, by omega⟩

/-- The internal node of the `j`-th merge: "id 256 + j" (42_tree_builder.md R173); there are at most 255 merges (R175), so the
id never leaves the arena. -/
def innerId (j : Nat) : NodeId := Fin.ofNat 511 (256 + j)

/-- The symbol of a leaf id, if the id is one. -/
def symbolOfNode (n : NodeId) : Option Symbol :=
  if h : n.val < 256 then some ⟨n.val, h⟩ else none

/-- CTAB_LEN of a symbol as a number. -/
def State.codeLen (s : State) (c : Symbol) : Nat := s.ctabLen[c].toNat

/-- The code of a symbol, `bits_L(CTAB_CVAL[s])` with L = CTAB_LEN[s] (10_state.md R46). -/
def State.code (s : State) (c : Symbol) : List Bool :=
  bitsOf (s.codeLen c) s.ctabVal[c]

/-- `raw` of 44_bit_encoder.md R210: the sum of the code lengths of the input bytes (R211). -/
def State.rawLength (s : State) : Nat :=
  (s.input.map fun b => s.codeLen (symbolOfByte b)).sum

/-- `enc` of 44_bit_encoder.md R210: `raw` rounded up to a multiple of 8 (R212). -/
def State.encLength (s : State) : Nat := ceil8 s.rawLength

/-- The codes of the input bytes concatenated in input order (44_bit_encoder.md R214, without the padding). -/
def State.codedInput (s : State) : List Bool :=
  s.input.flatMap fun b => s.code (symbolOfByte b)

end Sys2Proof.Machine
end

