-- ==== Sys2Proof/Machine/Build.lean ====
section
/-!
DEFINITION. BUILD, the tree builder (42_tree_builder.md).
-/

namespace Sys2Proof.Machine

/-- An element of PQ with its key (NODE_CNT[n], n) (42_tree_builder.md R172). -/
structure Entry where
  cnt : Word
  id : NodeId
  deriving DecidableEq, Repr

/-- The key order, "ordered by count first and by node id second" (42_tree_builder.md R172). -/
def Entry.before (a b : Entry) : Bool :=
  decide (a.cnt < b.cnt) || (decide (a.cnt = b.cnt) && decide (a.id < b.id))

/-- PQ as a list in key order, "a sorted list" of 42_tree_builder.md R171: inserting an element. -/
def insertEntry (e : Entry) : List Entry → List Entry
  | [] => [e]
  | f :: fs => if e.before f then e :: f :: fs else f :: insertEntry e fs

/-- The node arena and the root: what BUILD writes (42_tree_builder.md R170). -/
structure Tree where
  cnt : Vector Word 511
  info : Vector NodeInfo 511
  root : NodeId
  deriving DecidableEq, Repr

/-- `NODE_CNT[n] <- c; NODE_INFO[n] <- i`. -/
def Tree.put (t : Tree) (n : NodeId) (c : Word) (i : NodeInfo) : Tree :=
  { t with cnt := t.cnt.set n.val c, info := t.info.set n.val i }

/-- The symbols with FREQ > 0, in ascending order. -/
def presentSymbols (f : Vector Word 256) : List Symbol :=
  (List.finRange 256).filter fun c => decide (f[c] ≠ 0)

/-- The arena with every node absent. -/
def Tree.empty : Tree :=
  { cnt := Vector.replicate 511 0, info := Vector.replicate 511 .absent, root := 0 }

/-- "one leaf per symbol" (42_tree_builder.md R170): the arena with the leaves. -/
def leafArena (f : Vector Word 256) : Tree :=
  (presentSymbols f).foldl (fun t c => t.put (leafId c) f[c] .leaf) Tree.empty

/-- PQ holding one leaf per symbol. -/
def leafQueue (f : Vector Word 256) : List Entry :=
  (presentSymbols f).foldl (fun q c => insertEntry { cnt := f[c], id := leafId c } q) []

/-- The merge loop (42_tree_builder.md R170, R174) from the `k`-th merge on: while PQ has two elements, the two of least key
leave it, and the node of the pair, the first removed on the left, enters it. ROOT is the single element left. `fuel`
bounds the merges by the size of PQ (R175); no answer means there is no element to be the root. -/
def mergeLoop : (fuel k : Nat) → List Entry → Tree → Option Tree
  | _, _, [], _ => none
  | _, _, [e], t => some { t with root := e.id }
  | 0, _, _ :: _ :: _, _ => none
  | fuel + 1, k, a :: b :: rest, t =>
    mergeLoop fuel (k + 1) (insertEntry { cnt := a.cnt + b.cnt, id := innerId k } rest)
      (t.put (innerId k) (a.cnt + b.cnt) (.inner a.id b.id))

/-- The tree BUILD makes of a frequency table. -/
def buildTree (f : Vector Word 256) : Option Tree :=
  mergeLoop (leafQueue f).length 0 (leafQueue f) (leafArena f)

/-- The tree the state holds. -/
def State.tree (s : State) : Tree :=
  { cnt := s.nodeCnt, info := s.nodeInfo, root := s.root }

/-- The checks of BUILD in their order (40_command_sequencer.md R132). -/
def buildCheck (s : State) : Except Fault (Option ErrCode) :=
  if !s.valid.freq then .ok (some .sequence)
  else if s.nsym = 0 then .ok (some .emptyInput)
  else .ok none

/-- The body of BUILD (42_tree_builder.md R170). -/
def buildBody (s : State) : Except Fault State :=
  match buildTree s.freq with
  | some t => .ok { s with nodeCnt := t.cnt, nodeInfo := t.info, root := t.root }
  | none => .error .buildQueueEmpty

/-- The engine step of stage 2. -/
def buildStage (s : State) : Host.Outcome State Fault Refusal :=
  stageStep .build buildCheck noFailWrites buildBody s

/-- BUILD (42_tree_builder.md R170). -/
def execBuild (s : State) : Host.Outcome State Fault Refusal :=
  if s.atOnly .build then buildStage s else .refused .engineNotEnabled

end Sys2Proof.Machine
end

