-- ==== Sys2Proof/Machine/Count.lean ====
section
/-!
DEFINITION. COUNT, the frequency counter (41_frequency_counter.md).
-/

namespace Sys2Proof.Machine

/-- `FREQ[b] <- FREQ[b] + 1` (41_frequency_counter.md R150). -/
def bump (f : Vector Word 256) (b : Byte) : Vector Word 256 :=
  let c := symbolOfByte b
  f.set c.val (f[c] + 1)

/-- The table of counts of a byte sequence: all entries 0, then one linear scan (41_frequency_counter.md R150). -/
def tally (bytes : List Byte) : Vector Word 256 :=
  bytes.foldl bump (Vector.replicate 256 0)

/-- The number of keys of a table, #{s : FREQ[s] > 0} (41_frequency_counter.md R153). -/
def numSymbols (f : Vector Word 256) : Nat :=
  f.toList.countP (fun n => decide (n ≠ 0))

/-- The checks of COUNT in their order (40_command_sequencer.md R132). -/
def countCheck (s : State) : Except Fault (Option ErrCode) :=
  if !s.workersLegal then .ok (some .invalidWorkerCount)
  else if !s.lengthLegal then .ok (some .length)
  else .ok none

/-- The body of COUNT (41_frequency_counter.md R150). -/
def countBody (s : State) : Except Fault State :=
  let f := tally s.input
  .ok { s with freq := f, nsym := BitVec.ofNat 9 (numSymbols f) }

/-- The engine step of stage 1. -/
def countStage (s : State) : Host.Outcome State Fault Refusal :=
  stageStep .count countCheck noFailWrites countBody s

/-- COUNT (41_frequency_counter.md R150). -/
def execCount (s : State) : Host.Outcome State Fault Refusal :=
  if s.atOnly .count then countStage s else .refused .engineNotEnabled

end Sys2Proof.Machine
end

