-- ==== Sys2Proof/Machine/Encode.lean ====
section
/-!
DEFINITION. ENCODE, the bit-stream encoder (44_bit_encoder.md).
-/

namespace Sys2Proof.Machine

/-- The checks of ENCODE in their order (40_command_sequencer.md R132). -/
def encodeCheck (s : State) : Except Fault (Option ErrCode) :=
  if !s.valid.ctab then .ok (some .sequence)
  else if !s.workersLegal then .ok (some .invalidWorkerCount)
  else if !s.lengthLegal then .error .inputBeyondIbuf
  else if s.encLength / 8 > s.cfg.obufBytes then .ok (some .overflow)
  else .ok none

/-- `RAW_BITS <- raw; ENC_BITS <- enc` (44_bit_encoder.md R210). -/
def State.putLengths (s : State) : State :=
  { s with rawBits := BitVec.ofNat 32 s.rawLength, encBits := BitVec.ofNat 32 s.encLength }

/-- ENCODE failing with OVERFLOW "still writes RAW_BITS and ENC_BITS" (44_bit_encoder.md R213); failing otherwise it writes
nothing of its own (40_command_sequencer.md R129). -/
def encodeFailWrites (e : ErrCode) (s : State) : State :=
  match e with
  | .overflow => s.putLengths
  | .emptyInput | .invalidWorkerCount | .length | .sequence | .illegalCommand => s

/-- The Encoded Bit Stream with its padding (44_bit_encoder.md R214). -/
def State.encodedStream (s : State) : List Bool :=
  s.codedInput ++ List.replicate (s.encLength - s.rawLength) false

/-- The body of ENCODE (44_bit_encoder.md R210). -/
def encodeBody (s : State) : Except Fault State :=
  .ok { s.putLengths with bbuf := s.encodedStream }

/-- The engine step of stage 4. -/
def encodeStage (s : State) : Host.Outcome State Fault Refusal :=
  stageStep .encode encodeCheck encodeFailWrites encodeBody s

/-- ENCODE (44_bit_encoder.md R210). -/
def execEncode (s : State) : Host.Outcome State Fault Refusal :=
  if s.atOnly .encode then encodeStage s else .refused .engineNotEnabled

end Sys2Proof.Machine
end

