-- ==== Sys2Proof/Machine/Gencode.lean ====
section
/-!
DEFINITION. GENCODE, the code-table generator (43_code_table.md).
-/

namespace Sys2Proof.Machine

/-- The code table: CTAB_LEN and CTAB_CVAL (10_state.md R45, R46). -/
structure CodeTable where
  len : Vector Byte 256
  val : Vector (BitVec 255) 256
  deriving DecidableEq, Repr

/-- The table in which no symbol has a code. -/
def CodeTable.empty : CodeTable :=
  { len := Vector.replicate 256 0, val := Vector.replicate 256 0 }

/-- `CTAB_LEN[n] <- L; CTAB_CVAL[n] <- V`, where "n is a leaf, so n is its symbol" (43_code_table.md R190). -/
def CodeTable.put (t : CodeTable) (n : NodeId) (len val : Nat) : Except Fault CodeTable :=
  match symbolOfNode n with
  | some c => .ok { len := t.len.set c.val (BitVec.ofNat 8 len), val := t.val.set c.val (BitVec.ofNat 255 val) }
  | none => .error .leafWithoutSymbol

/-- `walk(n, L, V)` (43_code_table.md R190): "0" for left, "1" for right, the path bits most significant first. `fuel` is 256
less the depth, so a path may have at most 255 branches (00_scope.md R7). -/
def walk (info : Vector NodeInfo 511) : (fuel : Nat) → (n : NodeId) → (len val : Nat) → CodeTable → Except Fault CodeTable
  | 0, _, _, _, _ => .error .codeTooLong
  | fuel + 1, n, len, val, t =>
    match info[n] with
    | .inner left right =>
      match walk info fuel left (len + 1) (2 * val) t with
      | .ok t' => walk info fuel right (len + 1) (2 * val + 1) t'
      | .error e => .error e
    | .leaf | .absent => t.put n len val

/-- The code table GENCODE makes of a tree: a root that is a leaf gets the code "0" (43_code_table.md R192), else the codes are
paths (R191). -/
def genCode (info : Vector NodeInfo 511) (root : NodeId) : Except Fault CodeTable :=
  match info[root] with
  | .inner _ _ => walk info 256 root 0 0 CodeTable.empty
  | .leaf | .absent => CodeTable.empty.put root 1 0

/-- The largest code length (43_code_table.md R194). -/
def maxCodeLen (len : Vector Byte 256) : Nat :=
  len.toList.foldl (fun m l => max m l.toNat) 0

/-- The code table the state holds. -/
def State.codeTable (s : State) : CodeTable :=
  { len := s.ctabLen, val := s.ctabVal }

/-- The one check of GENCODE (40_command_sequencer.md R132). -/
def gencodeCheck (s : State) : Except Fault (Option ErrCode) :=
  if !s.valid.tree then .ok (some .sequence) else .ok none

/-- The body of GENCODE (43_code_table.md R190). -/
def gencodeBody (s : State) : Except Fault State :=
  match genCode s.nodeInfo s.root with
  | .ok t => .ok { s with ctabLen := t.len, ctabVal := t.val, maxLen := BitVec.ofNat 8 (maxCodeLen t.len) }
  | .error f => .error f

/-- The engine step of stage 3. -/
def gencodeStage (s : State) : Host.Outcome State Fault Refusal :=
  stageStep .gencode gencodeCheck noFailWrites gencodeBody s

/-- GENCODE (43_code_table.md R190). -/
def execGencode (s : State) : Host.Outcome State Fault Refusal :=
  if s.atOnly .gencode then gencodeStage s else .refused .engineNotEnabled

end Sys2Proof.Machine
end

