-- ==== Sys2Proof/Machine/Pack.lean ====
section
/-!
DEFINITION. PACK, the bit packer (45_bit_packer.md).
-/

namespace Sys2Proof.Machine

/-- The unsigned value of a bit string, its first bit the most significant (45_bit_packer.md R232). -/
def msbFirst (bits : List Bool) : Nat :=
  bits.foldl (fun v b => 2 * v + b.toNat) 0

/-- The first `n` bytes of a bit stream: "take 8 bits at a time" (45_bit_packer.md R232). -/
def packBytes : (n : Nat) → List Bool → List Byte
  | 0, _ => []
  | n + 1, bits => BitVec.ofNat 8 (msbFirst (bits.take 8)) :: packBytes n (bits.drop 8)

/-- ENC_BITS / 8, the number of bytes PACK writes (45_bit_packer.md R233). -/
def State.packLength (s : State) : Nat := s.encBits.toNat / 8

/-- The checks of PACK in their order (40_command_sequencer.md R132). -/
def packCheck (s : State) : Except Fault (Option ErrCode) :=
  if !s.valid.enc then .ok (some .sequence)
  else if !s.workersLegal then .ok (some .invalidWorkerCount)
  else .ok none

/-- The body of PACK (45_bit_packer.md R230). -/
def packBody (s : State) : Except Fault State :=
  if s.bbuf.length < 8 * s.packLength then .error .streamShorterThanEncBits
  else if s.packLength > s.cfg.obufBytes then .error .packBeyondObuf
  else
    .ok { s with
      obuf := s.obuf.writeBytes 0 (packBytes s.packLength s.bbuf)
      outLen := BitVec.ofNat 32 s.packLength }

/-- The engine step of stage 5. -/
def packStage (s : State) : Host.Outcome State Fault Refusal :=
  stageStep .pack packCheck noFailWrites packBody s

/-- PACK (45_bit_packer.md R230). -/
def execPack (s : State) : Host.Outcome State Fault Refusal :=
  if s.atOnly .pack then packStage s else .refused .engineNotEnabled

end Sys2Proof.Machine
end

