-- ==== Sys2Proof/Machine/Pipeline.lean ====
section
/-!
DEFINITION. The commands that are not a single stage: NOP, CLEAR and RUN (46_pipeline_commands.md).
-/

namespace Sys2Proof.Machine

/-- NOP (46_pipeline_commands.md R250): nothing, then `finish_ok()`. -/
def execNop (s : State) : Host.Outcome State Fault Refusal :=
  if s.atOnly .zero then .next s.finishOk else .refused .engineNotEnabled

/-- `clear_all` (46_pipeline_commands.md R251). -/
def State.clearAll (s : State) : State :=
  { s with
    freq := Vector.replicate 256 0
    ctabLen := Vector.replicate 256 0
    ctabVal := Vector.replicate 256 0
    nodeCnt := Vector.replicate 511 0
    nodeInfo := Vector.replicate 511 .absent
    nsym := 0
    root := 0
    rawBits := 0
    encBits := 0
    outLen := 0
    maxLen := 0
    cyc := { count := 0, build := 0, gencode := 0, encode := 0, pack := 0 }
    bbuf := []
    valid := Valid.allClear }

/-- CLEAR (46_pipeline_commands.md R251). -/
def execClear (s : State) : Host.Outcome State Fault Refusal :=
  if s.atOnly .zero then .next s.clearAll.finishOk else .refused .engineNotEnabled

/-- RUN (46_pipeline_commands.md R252): one engine step for the stage at the head of its list, the five stages in order; "the
first failing stage ends the command". -/
def execRun (s : State) : Host.Outcome State Fault Refusal :=
  match s.seq with
  | .busy _ (.count :: _) => countStage s
  | .busy _ (.build :: _) => buildStage s
  | .busy _ (.gencode :: _) => gencodeStage s
  | .busy _ (.encode :: _) => encodeStage s
  | .busy _ (.pack :: _) => packStage s
  | .busy _ (.zero :: _) | .busy _ [] | .idle => .refused .engineNotEnabled

end Sys2Proof.Machine
end

