-- ==== Sys2Proof/Machine/Bus.lean ====
section
/-!
DEFINITION. The host port (20_memory.md): the address map, the order of the checks, busy gating, and the read and write of
every target (10_state.md R41).
-/

namespace Sys2Proof.Machine

/-- The bytes of an access (20_memory.md R70). -/
def Size.bytes : Size → Nat
  | .byte => 1
  | .half => 2
  | .word => 4

/-- A region of the address map that answers (20_memory.md R72). -/
inductive Region where
  | csr
  | ibuf
  | obuf
  deriving DecidableEq, Repr

/-- Bus address of IBUF[0] (20_memory.md R72). -/
def ibufBase : Nat := 0x01000000

/-- Bus address of OBUF[0] (20_memory.md R72). -/
def obufBase : Nat := 0x20000000

/-- `decode(addr, n)` (20_memory.md R72): a region only when all n bytes of the access lie in it. -/
def regionOf (cfg : Config) (addr n : Nat) : Option Region :=
  if addr + n ≤ 0x4000 then some .csr
  else if ibufBase ≤ addr ∧ addr + n ≤ ibufBase + cfg.ibufBytes then some .ibuf
  else if obufBase ≤ addr ∧ addr + n ≤ obufBase + cfg.obufBytes then some .obuf
  else none

/-- A register or window entry of the CSR region (10_state.md R41). -/
inductive Csr where
  | id
  | cmd
  | status
  | len
  | nw
  | nsym
  | root
  | rawBits
  | encBits
  | outLen
  | maxLen
  | lastCmd
  | irqEn
  | irqStat
  | paramIbuf
  | paramObuf
  | paramLanes
  | cycCount
  | cycBuild
  | cycGencode
  | cycEncode
  | cycPack
  | freq (c : Symbol)
  | ctabLen (c : Symbol)
  | ctabCode (c : Symbol) (j : Fin 8)
  | nodeCnt (n : NodeId)
  | nodeInfo (n : NodeId)
  deriving DecidableEq, Repr

/-- The offset of a register or window entry (10_state.md R41); the symbolic names of 30_encoding.md R106 stand for these. -/
def Csr.offset : Csr → Nat
  | .id => 0x000
  | .cmd => 0x004
  | .status => 0x008
  | .len => 0x00C
  | .nw => 0x010
  | .nsym => 0x014
  | .root => 0x018
  | .rawBits => 0x01C
  | .encBits => 0x020
  | .outLen => 0x024
  | .maxLen => 0x028
  | .lastCmd => 0x02C
  | .irqEn => 0x030
  | .irqStat => 0x034
  | .paramIbuf => 0x038
  | .paramObuf => 0x03C
  | .paramLanes => 0x040
  | .cycCount => 0x044
  | .cycBuild => 0x048
  | .cycGencode => 0x04C
  | .cycEncode => 0x050
  | .cycPack => 0x054
  | .freq c => 0x400 + 4 * c.val
  | .ctabLen c => 0x800 + 4 * c.val
  | .ctabCode c j => 0x1000 + 32 * c.val + 4 * j.val
  | .nodeCnt n => 0x3000 + 4 * n.val
  | .nodeInfo n => 0x3800 + 4 * n.val

/-- The registers below the windows, by offset (10_state.md R41). -/
def Csr.ofRegisterOffset : Nat → Option Csr
  | 0x000 => some .id
  | 0x004 => some .cmd
  | 0x008 => some .status
  | 0x00C => some .len
  | 0x010 => some .nw
  | 0x014 => some .nsym
  | 0x018 => some .root
  | 0x01C => some .rawBits
  | 0x020 => some .encBits
  | 0x024 => some .outLen
  | 0x028 => some .maxLen
  | 0x02C => some .lastCmd
  | 0x030 => some .irqEn
  | 0x034 => some .irqStat
  | 0x038 => some .paramIbuf
  | 0x03C => some .paramObuf
  | 0x040 => some .paramLanes
  | 0x044 => some .cycCount
  | 0x048 => some .cycBuild
  | 0x04C => some .cycGencode
  | 0x050 => some .cycEncode
  | 0x054 => some .cycPack
  | _ => none

/-- The register or window entry at an offset, if 10_state.md R41 lists it; "Offsets not listed are unmapped". -/
def Csr.ofOffset (off : Nat) : Option Csr :=
  if off % 4 ≠ 0 then none
  else if off < 0x400 then Csr.ofRegisterOffset off
  else if h : 0x400 ≤ off ∧ off < 0x800 then some (.freq ⟨(off - 0x400) / 4, by omega⟩)
  else if h : 0x800 ≤ off ∧ off < 0xC00 then some (.ctabLen ⟨(off - 0x800) / 4, by omega⟩)
  else if h : 0x1000 ≤ off ∧ off < 0x3000 then
    some (.ctabCode ⟨(off - 0x1000) / 32, by omega⟩ ⟨(off - 0x1000) / 4 % 8, by omega⟩)
  else if h : 0x3000 ≤ off ∧ off < 0x3000 + 4 * 511 then some (.nodeCnt ⟨(off - 0x3000) / 4, by omega⟩)
  else if h : 0x3800 ≤ off ∧ off < 0x3800 + 4 * 511 then some (.nodeInfo ⟨(off - 0x3800) / 4, by omega⟩)
  else none

/-- What an access reaches. -/
inductive Target where
  | csr (c : Csr)
  | ibuf (a : Nat)
  | obuf (a : Nat)
  deriving DecidableEq, Repr

/-- The checks of `transact` before the busy check, in their order (20_memory.md R71): DECERR for no region, SLVERR for a
misaligned access (R75), SLVERR for a CSR access not 4 bytes wide (R76), DECERR for an unlisted CSR offset (R82). -/
def resolve (cfg : Config) (n : Size) (addr : Word) : Except Resp Target :=
  match regionOf cfg addr.toNat n.bytes with
  | none => .error .decerr
  | some r =>
    if addr.toNat % n.bytes ≠ 0 then .error .slverr
    else
      match r with
      | .csr =>
        if n ≠ .word then .error .slverr
        else
          match Csr.ofOffset addr.toNat with
          | some c => .ok (.csr c)
          | none => .error .decerr
      | .ibuf => .ok (.ibuf (addr.toNat - ibufBase))
      | .obuf => .ok (.obuf (addr.toNat - obufBase))

/-- The CSR reads refused while BUSY (20_memory.md R80, 10_state.md R41). -/
def Csr.readGated : Csr → Bool
  | .nsym | .root | .rawBits | .encBits | .outLen | .maxLen => true
  | .freq _ | .ctabLen _ | .ctabCode _ _ | .nodeCnt _ | .nodeInfo _ => true
  | .id | .cmd | .status | .len | .nw | .lastCmd | .irqEn | .irqStat => false
  | .paramIbuf | .paramObuf | .paramLanes => false
  | .cycCount | .cycBuild | .cycGencode | .cycEncode | .cycPack => false

/-- The CSR writes refused while BUSY: CMD, LEN and NW (20_memory.md R80). -/
def Csr.writeGated : Csr → Bool
  | .cmd | .len | .nw => true
  | .id | .status | .nsym | .root | .rawBits | .encBits | .outLen | .maxLen | .lastCmd => false
  | .irqEn | .irqStat | .paramIbuf | .paramObuf | .paramLanes => false
  | .cycCount | .cycBuild | .cycGencode | .cycEncode | .cycPack => false
  | .freq _ | .ctabLen _ | .ctabCode _ _ | .nodeCnt _ | .nodeInfo _ => false

/-- The reads refused while BUSY (20_memory.md R80): those of the CSRs, every read of IBUF and of OBUF. -/
def Target.readGated : Target → Bool
  | .csr c => c.readGated
  | .ibuf _ => true
  | .obuf _ => true

/-- The writes refused while BUSY (20_memory.md R80): those of the CSRs and every write of IBUF; a write of OBUF is not. -/
def Target.writeGated : Target → Bool
  | .csr c => c.writeGated
  | .ibuf _ => true
  | .obuf _ => false

/-- ID (10_state.md R22). -/
def idValue : Word := 0x48554601#32

/-- A NODE_INFO entry as the word of its window (10_state.md R44): VALID [31], INTERNAL [30], RIGHT [24:16], LEFT [8:0]. -/
def NodeInfo.word : NodeInfo → Word
  | .absent => 0
  | .leaf => BitVec.ofNat 32 (2 ^ 31)
  | .inner left right => BitVec.ofNat 32 (2 ^ 31 + 2 ^ 30 + 2 ^ 16 * right.val + left.val)

/-- CTAB_CODE[s][j] (10_state.md R46): `zext_256(CTAB_CVAL[s])[32*j+31 : 32*j]`. -/
def codeWindow (v : BitVec 255) (j : Fin 8) : Word :=
  (v.setWidth 256).extractLsb' (32 * j.val) 32

/-- A cycle counter as the host reads it: while BUSY a draw (10_state.md R40, log 7), and the draw is used up. -/
def State.readCycles (s : State) (st : Stage) : State × Word :=
  if s.busy then ({ s with draws := s.draws + 1 }, Config.freeRead s.draws) else (s, s.cyc.get st)

/-- The read of a CSR that is not gated (10_state.md R22 to R46). "A read changes no state" (20_memory.md R70); the state
returned differs from `s` in the model's own counter of free values alone. -/
def State.readCsr (s : State) : Csr → State × Word
  | .id => (s, idValue)
  | .cmd => (s, 0)
  | .status => (s, s.statusWord)
  | .len => (s, s.len)
  | .nw => (s, s.nw)
  | .nsym => (s, s.nsym.setWidth 32)
  | .root => (s, BitVec.ofNat 32 s.root.val)
  | .rawBits => (s, s.rawBits)
  | .encBits => (s, s.encBits)
  | .outLen => (s, s.outLen)
  | .maxLen => (s, s.maxLen.setWidth 32)
  | .lastCmd => (s, s.lastCmd)
  | .irqEn => (s, s.irqEn.setWidth 32)
  | .irqStat => (s, s.irqStat.setWidth 32)
  | .paramIbuf => (s, BitVec.ofNat 32 s.cfg.ibufBytes)
  | .paramObuf => (s, BitVec.ofNat 32 s.cfg.obufBytes)
  | .paramLanes => (s, BitVec.ofNat 32 s.cfg.nlanes)
  | .cycCount => s.readCycles .count
  | .cycBuild => s.readCycles .build
  | .cycGencode => s.readCycles .gencode
  | .cycEncode => s.readCycles .encode
  | .cycPack => s.readCycles .pack
  | .freq c => (s, s.freq[c])
  | .ctabLen c => (s, s.ctabLen[c].setWidth 32)
  | .ctabCode c j => (s, codeWindow s.ctabVal[c] j)
  | .nodeCnt n => (s, s.nodeCnt[n])
  | .nodeInfo n => (s, s.nodeInfo[n].word)

/-- The read of a target: a CSR word, or n bytes of a buffer, little-endian (20_memory.md R73). -/
def State.readTarget (s : State) (n : Size) : Target → State × Word
  | .csr c => s.readCsr c
  | .ibuf a => (s, BitVec.ofNat 32 (littleEndian (s.ibuf.readBytes a n.bytes)))
  | .obuf a => (s, BitVec.ofNat 32 (littleEndian (s.obuf.readBytes a n.bytes)))

/-- The write of a CSR that is not gated: CMD submits a command (40_command_sequencer.md R120), LEN stores and invalidates
(10_state.md R26), NW and IRQ_EN store (R27, R35), IRQ_STAT clears (R36), every other is read-only and ignores the write
(R54). -/
def State.writeCsr (s : State) (v : Word) : Csr → State
  | .cmd => s.accept v
  | .len => { s with len := v }.invalidate
  | .nw => { s with nw := v }
  | .irqEn => { s with irqEn := v.extractLsb' 0 2 }
  | .irqStat => s.acknowledge v
  | .id | .status | .nsym | .root | .rawBits | .encBits | .outLen | .maxLen | .lastCmd => s
  | .paramIbuf | .paramObuf | .paramLanes => s
  | .cycCount | .cycBuild | .cycGencode | .cycEncode | .cycPack => s
  | .freq _ | .ctabLen _ | .ctabCode _ _ | .nodeCnt _ | .nodeInfo _ => s

/-- The write of a target: IBUF stores its bytes and invalidates (10_state.md R47), OBUF ignores it (R48). -/
def State.writeTarget (s : State) (n : Size) (v : Word) : Target → State
  | .csr c => s.writeCsr v c
  | .ibuf a => { s with ibuf := s.ibuf.writeBytes a (toLittleEndian n.bytes v.toNat) }.invalidate
  | .obuf _ => s

/-- One host transaction (20_memory.md R71). -/
def transact (t : Txn) (s : State) : State × Reply :=
  match t with
  | .read n addr =>
    match resolve s.cfg n addr with
    | .error r => (s, { resp := r, rdata := 0 })
    | .ok target =>
      if target.readGated && s.busy then (s, { resp := .slverr, rdata := 0 })
      else ((s.readTarget n target).1, { resp := .okay, rdata := (s.readTarget n target).2 })
  | .write n addr v =>
    match resolve s.cfg n addr with
    | .error r => (s, { resp := r, rdata := 0 })
    | .ok target =>
      if target.writeGated && s.busy then (s, { resp := .slverr, rdata := 0 })
      else (s.writeTarget n v target, { resp := .okay, rdata := 0 })

end Sys2Proof.Machine
end

