-- ==== Sys2Proof/Machine/HostAgent.lean ====
section
/-!
DEFINITION. The host agent: the notation of host programs (30_encoding.md R106, R107), the step that performs the next line,
and the choice of the agent that moves next (40_command_sequencer.md R122).
-/

namespace Sys2Proof.Machine

/-! ## The transaction mnemonics (30_encoding.md R106) -/

def sw (addr v : Word) : HostStmt := .txn (.write .word addr v)
def sh (addr v : Word) : HostStmt := .txn (.write .half addr v)
def sb (addr v : Word) : HostStmt := .txn (.write .byte addr v)
def lw (addr : Word) : HostStmt := .txn (.read .word addr)
def lh (addr : Word) : HostStmt := .txn (.read .half addr)
def lb (addr : Word) : HostStmt := .txn (.read .byte addr)

/-- A register or window name as an address (30_encoding.md R106). -/
def csrAddr (c : Csr) : Word := BitVec.ofNat 32 c.offset

/-- `IBUF+a` (30_encoding.md R106). -/
def ibufAddr (a : Nat) : Word := BitVec.ofNat 32 (ibufBase + a)

/-- `OBUF+a` (30_encoding.md R106). -/
def obufAddr (a : Nat) : Word := BitVec.ofNat 32 (obufBase + a)

/-! ## The pseudo-instructions (30_encoding.md R107) -/

/-- `cmd MNEMONIC`. -/
def cmd (i : Instr) : HostStmt := sw (csrAddr .cmd) (encode i)

/-- `wait`: "repeat `lw STATUS` until bit 0 (BUSY) of the value is 0". -/
def wait : HostStmt := .poll (csrAddr .status) 1 0

/-- `put a, "text"`: one `sb` per byte of the text. -/
def put (a : Nat) : List Byte → List HostStmt
  | [] => []
  | b :: bs => sb (ibufAddr a) (b.setWidth 32) :: put (a + 1) bs

/-- `putw a, v`. -/
def putw (a : Nat) (v : Word) : HostStmt := sw (ibufAddr a) v

/-- `input "text"`: `put 0, "text"` then `sw LEN, length of text`. -/
def input (text : List Byte) : List HostStmt :=
  put 0 text ++ [sw (csrAddr .len) (BitVec.ofNat 32 text.length)]

/-! ## The host's step -/

/-- The host performs the next line of its program: one transaction (00_scope.md R3); a `poll` stays until its read returns a
value with (rdata AND mask) = value (30_encoding.md R107, log 15). A host with no line left does nothing (log 14). -/
def hostStep (s : State) : State :=
  match s.prog with
  | [] => s
  | .txn t :: rest =>
    { (transact t s).1 with prog := rest, bus := some (t, (transact t s).2) }
  | .poll addr mask value :: rest =>
    { (transact (.read .word addr) s).1 with
      prog := if (transact (.read .word addr) s).2.rdata &&& mask = value then rest else s.prog
      bus := some (.read .word addr, (transact (.read .word addr) s).2) }

/-- Who moves next: the schedule's first agent; with no schedule left, the engine if it is enabled ("An enabled engine step is
eventually taken", 40_command_sequencer.md R122), else the host (log 2). -/
def State.nextAgent (s : State) : Agent :=
  match s.sched with
  | a :: _ => a
  | [] => if s.busy then .engine else .host

/-- The schedule after the move. -/
def State.popSched (s : State) : State :=
  { s with sched := s.sched.tail }

end Sys2Proof.Machine
end

