-- ==== Sys2Proof/Machine/Reset.lean ====
section
/-!
DEFINITION. The reset step of the environment (70_reset_and_hazards.md R300, R301).
-/

namespace Sys2Proof.Machine

/-- PACK is performed or about to be: SEQ = BUSY(w, 5 :: rest) (70_reset_and_hazards.md R301). -/
def State.atPack (s : State) : Bool :=
  match s.seq with
  | .busy _ (.pack :: _) => true
  | .busy _ _ | .idle => false

/-- How many bytes of OBUF a reset makes draws: j < ENC_BITS / 8 (70_reset_and_hazards.md R301), of the bytes OBUF has
(log 8). -/
def State.drawnBytes (s : State) : Nat :=
  min (s.encBits.toNat / 8) s.cfg.obufBytes

/-- OBUF after a reset (70_reset_and_hazards.md R301). -/
def State.obufAfterReset (s : State) : Memory :=
  if s.atPack then s.obuf.writeBytes 0 ((List.range s.drawnBytes).map (Config.freeByte s.draws)) else s.obuf

/-- `reset()` (70_reset_and_hazards.md R301): the values of 10_state.md R57, IBUF unchanged, OBUF unchanged but for the draws.
The host's program, what it saw, the schedule and the counter of free values are not state of the block and stay
(log 18). -/
def State.resetStep (s : State) : State :=
  { State.powerUp s.cfg s.ibuf s.obufAfterReset with
    prog := s.prog
    sched := s.sched
    bus := s.bus
    draws := if s.atPack then s.draws + 1 else s.draws }

end Sys2Proof.Machine
end

