-- ==== Sys2Proof/Machine/Step.lean ====
section
/-!
DEFINITION. One step of the machine: the agent whose turn it is moves (00_scope.md R3). The engine's step decodes the word in
SEQ and runs the command (40_command_sequencer.md R125).
-/

namespace Sys2Proof.Machine

/-- One step: a host transaction, an engine step, or a reset. An engine whose step is not enabled (SEQ idle) lets its turn
pass (40_command_sequencer.md R122, log 14). -/
def step (s : State) : Host.Outcome State Fault Refusal :=
  match s.nextAgent with
  | .host => .next (hostStep s.popSched)
  | .reset => .next s.popSched.resetStep
  | .engine =>
    match s.popSched.fetch with
    | none => .next s.popSched
    | some w =>
      match decode w with
      | .ok i => exec i s.popSched
      | .error _ => illegalStep s.popSched

/-- The state in which the next step runs the instruction `w` of `nbits` bits: HUFFCORE fetches nothing (20_memory.md R89), its
command arrives by an OKAY write to CMD, so this is the acceptance of the word (40_command_sequencer.md R120) with the
engine to move next (log 4). -/
def State.withFetchWord (s : State) (nbits w : Nat) : State :=
  { s.accept (BitVec.ofNat 32 (w % 2 ^ nbits)) with sched := .engine :: s.sched }

end Sys2Proof.Machine
end

