-- ==== Sys2Proof/Machine/Workers.lean ====
section
/-!
DEFINITION. What goes on inside one engine step of the parallel stages: the partition of the input and of the bit stream among
the NW virtual workers, the word-wide lane, the merge under the lock, the output slots (41_frequency_counter.md R151 to R156,
44_bit_encoder.md R215, 45_bit_packer.md R231, R234). The step performs each stage as a whole (40_command_sequencer.md R125)
and does not call these; the statements say that they give what the stage gives.
-/

namespace Sys2Proof.Machine

/-- `chunk(k)` of `n` elements among `w` workers, as (start, end) (41_frequency_counter.md R151): "size = ⌊length/nw⌋, last chunk
absorbs the remainder". -/
def chunkBounds (n w k : Nat) : Nat × Nat :=
  (k * (n / w), if k < w - 1 then (k + 1) * (n / w) else n)

/-- `pchunk(k)` of `b` stream bits among `w` workers (45_bit_packer.md R231). -/
def packChunkBounds (b w k : Nat) : Nat × Nat :=
  (min (k * ceil8 (b / w)) b, if k < w - 1 then min ((k + 1) * ceil8 (b / w)) b else b)

/-- The elements from `start` up to `end`. -/
def slice {α : Type} (l : List α) (bounds : Nat × Nat) : List α :=
  (l.drop bounds.1).take (bounds.2 - bounds.1)

/-- The word indexes a lane reads for the chunk [start, end): "every m with 4m < end and 4m + 4 > start"
(41_frequency_counter.md R156). -/
def laneWords (bounds : Nat × Nat) : List Nat :=
  (List.range ((bounds.2 + 3) / 4)).filter fun m => decide (4 * m < bounds.2 ∧ bounds.1 < 4 * m + 4)

/-- The aligned 32-bit word of index m of a memory (41_frequency_counter.md R156). -/
def memoryWord (m : Memory) (index : Nat) : Word :=
  BitVec.ofNat 32 (littleEndian (m.readBytes (4 * index) 4))

/-- The bytes a lane counts: byte lane b of word m iff start <= 4m + b < end, the others masked (41_frequency_counter.md
R156). -/
def laneBytes (m : Memory) (bounds : Nat × Nat) : List Byte :=
  (laneWords bounds).flatMap fun index =>
    ((List.range 4).filter fun b => decide (bounds.1 ≤ 4 * index + b ∧ 4 * index + b < bounds.2)).map fun b =>
      (memoryWord m index).extractLsb' (8 * b) 8

/-- One merge under the lock: "FREQ[s] <- FREQ[s] + LFREQ[k][s]" for all s (20_memory.md R88). -/
def mergeTable (f localTable : Vector Word 256) : Vector Word 256 :=
  Vector.zipWith (· + ·) f localTable

/-- `COUNT_parallel` (41_frequency_counter.md R154): each worker's lane counts its chunk into its own table; the tables are merged
in the order given. -/
def countParallel (m : Memory) (n w : Nat) (order : List Nat) : Vector Word 256 :=
  order.foldl (fun f k => mergeTable f (tally (laneBytes m (chunkBounds n w k)))) (Vector.replicate 256 0)

/-- `ENCODE_parallel` (44_bit_encoder.md R215): each worker writes the codes of its chunk into its own slot, finishing in the order
given; the slots are concatenated in chunk index order. The padding comes after. -/
def encodeParallel (code : Symbol → List Bool) (bytes : List Byte) (w : Nat) (order : List Nat) : List Bool :=
  (order.foldl
    (fun slots k => slots.set k ((slice bytes (chunkBounds bytes.length w k)).flatMap fun b => code (symbolOfByte b)))
    (List.replicate w [])).flatten

/-- The parallel form of PACK (45_bit_packer.md R231, R234): each worker packs its chunk and writes the m-th byte of it to
OBUF[start/8 + m], finishing in the order given. -/
def packParallel (bits : List Bool) (w : Nat) (order : List Nat) (obuf : Memory) : Memory :=
  order.foldl
    (fun o k =>
      let bounds := packChunkBounds bits.length w k
      o.writeBytes (bounds.1 / 8) (packBytes ((bounds.2 - bounds.1) / 8) (slice bits bounds)))
    obuf

end Sys2Proof.Machine
end

