-- ==== Sys2Proof/WellFormed.lean ====
section
/-!
DEFINITION. Well-formedness of what is written down: commands, host transactions, instance parameters.
-/

namespace Sys2Proof

/-- Every command is well formed: "No command has an immediate or an operand field" (30_encoding.md R103), so there is
nothing to check in one. -/
def Instr.wellFormed : Instr → Bool
  | .nop | .clear | .count | .build | .gencode | .encode | .pack | .run => true

/-- The legal ranges of the parameters (00_scope.md R6). -/
def Config.wellFormed (c : Config) : Bool :=
  decide (1 ≤ c.ibufBytes) && decide (c.ibufBytes ≤ 2 ^ 24) &&
  decide (1 ≤ c.obufBytes) && decide (c.obufBytes ≤ 2 ^ 29) &&
  decide (1 ≤ c.nlanes) && decide (c.nlanes ≤ 256)

/-- A write carries "an n-byte value v" (20_memory.md R71): the value fits in its size. -/
def Machine.Txn.wellFormed : Machine.Txn → Bool
  | .read _ _ => true
  | .write .byte _ v => decide (v.toNat < 2 ^ 8)
  | .write .half _ v => decide (v.toNat < 2 ^ 16)
  | .write .word _ _ => true

end Sys2Proof
end

