-- ==== Sys2Proof/Safety.lean ====
section
/-!
DEFINITION. The terms claims are made in: the invariant of the machine, what the end of a stage leaves, what an engine step
leaves alone, paths in the tree, and the test-only decoder of 95_test_vectors.md V-EX-1.
-/

namespace Sys2Proof.Machine

/-! ## Which stage is performed -/

/-- SEQ is BUSY at stage `st` of the command `i`: the command performs `st` alone, or is a RUN (40_command_sequencer.md R121,
R125). -/
def State.performs (s : State) (i : Instr) (st : Stage) : Bool :=
  match s.seq with
  | .busy _ (h :: rest) =>
    decide (h = st) && decide (st ∈ stages i) && decide (st ≠ .zero) && (decide (i = .run) || rest.isEmpty)
  | .busy _ [] | .idle => false

/-- The stage whose output a stage needs (40_command_sequencer.md R128). -/
def Stage.predecessor : Stage → Stage
  | .zero | .count => .zero
  | .build => .count
  | .gencode => .build
  | .encode => .gencode
  | .pack => .encode

/-! ## What a stage leaves -/

/-- What no engine step writes: the parameters, LEN, NW, LASTCMD, IRQ_EN, IBUF (40_command_sequencer.md R126, R129; 10_state.md
R34, R35, R47), and the host's program, schedule and last transaction. -/
abbrev EngineFrame (s t : State) : Prop :=
  t.cfg = s.cfg ∧ t.len = s.len ∧ t.nw = s.nw ∧ t.lastCmd = s.lastCmd ∧ t.irqEn = s.irqEn ∧ t.ibuf = s.ibuf ∧
  t.prog = s.prog ∧ t.sched = s.sched ∧ t.bus = s.bus

/-- The Frequency Table is unchanged. -/
abbrev SameFreq (s t : State) : Prop := t.freq = s.freq ∧ t.nsym = s.nsym

/-- The tree is unchanged. -/
abbrev SameTree (s t : State) : Prop := t.nodeCnt = s.nodeCnt ∧ t.nodeInfo = s.nodeInfo ∧ t.root = s.root

/-- The code table is unchanged. -/
abbrev SameCodes (s t : State) : Prop := t.ctabLen = s.ctabLen ∧ t.ctabVal = s.ctabVal ∧ t.maxLen = s.maxLen

/-- The Encoded Bit Stream and its lengths are unchanged. -/
abbrev SameStream (s t : State) : Prop := t.bbuf = s.bbuf ∧ t.rawBits = s.rawBits ∧ t.encBits = s.encBits

/-- Every byte of OBUF and OUTLEN are unchanged. -/
abbrev SameOutput (s t : State) : Prop := (∀ a : Nat, t.obuf.read a = s.obuf.read a) ∧ t.outLen = s.outLen

/-- No result of any stage is changed. -/
abbrev SameResults (s t : State) : Prop :=
  SameFreq s t ∧ SameTree s t ∧ SameCodes s t ∧ SameStream s t ∧ SameOutput s t

/-- The counter of `st` holds a duration of at least 1 and every other counter is unchanged (10_state.md R40). -/
abbrev CounterWritten (st : Stage) (s t : State) : Prop :=
  1 ≤ (t.cyc.get st).toNat ∧ ∀ st' : Stage, st' ≠ st → t.cyc.get st' = s.cyc.get st'

/-- The end of a stage without error (40_command_sequencer.md R125): the next stage of the list, with STATUS.DONE, ERR and
IRQ_STAT as they were; or, after the last one, completion by `finish_ok` (R133). -/
def StageEnds (s t : State) : Prop :=
  match s.seq with
  | .busy w (_ :: st :: rest) => t.seq = .busy w (st :: rest) ∧ t.completion = s.completion ∧ t.irqStat = s.irqStat
  | .busy _ [_] | .busy _ [] | .idle =>
    t.seq = .idle ∧ t.completion = .done ∧ t.irqStat = s.irqStat ||| 0b01#2

/-- Completion with error `e` in stage `st` (40_command_sequencer.md R134). -/
abbrev CompletesWithError (e : ErrCode) (st : Stage) (s t : State) : Prop :=
  t.seq = .idle ∧ t.completion = .error e st ∧ t.irqStat = s.irqStat ||| 0b10#2

/-- The valid flags after the start of a stage: its own and every later one 0, the earlier ones kept (40_command_sequencer.md
R127). -/
abbrev FlagsStarted (st : Stage) (s t : State) : Prop :=
  ∀ st' : Stage, t.valid.flag st' = (decide (st'.code < st.code) && s.valid.flag st')

/-- The valid flags after a stage completes: as after its start, with its own set (40_command_sequencer.md R124, R127). -/
abbrev FlagsCompleted (st : Stage) (s t : State) : Prop :=
  ∀ st' : Stage, t.valid.flag st' = (decide (st' = st) || (decide (st'.code < st.code) && s.valid.flag st'))

/-- A stage that fails a check (40_command_sequencer.md R129) and writes no result: the flags, its counter, STATUS and
IRQ_STAT. -/
abbrev FailsWith (e : ErrCode) (st : Stage) (s t : State) : Prop :=
  CompletesWithError e st s t ∧ FlagsStarted st s t ∧ CounterWritten st s t ∧ EngineFrame s t ∧ SameResults s t

/-! ## Trees and codes -/

/-- The node a path reaches: "0" for left, "1" for right (43_code_table.md R191). -/
def follow (info : Vector NodeInfo 511) : NodeId → List Bool → Option NodeId
  | n, [] => some n
  | n, b :: bs =>
    match info[n] with
    | .inner left right => follow info (if b then right else left) bs
    | .leaf | .absent => none

/-- `a` is removed from PQ before `b` (42_tree_builder.md R172): the key (NODE_CNT[n], n). -/
abbrev KeyBefore (cnt : Vector Word 511) (a b : NodeId) : Prop :=
  cnt[a] < cnt[b] ∨ (cnt[a] = cnt[b] ∧ a < b)

/-- `n` is a child of the internal node `p`. -/
def IsChild (info : Vector NodeInfo 511) (n p : NodeId) : Prop :=
  ∃ l r : NodeId, info[p] = .inner l r ∧ (n = l ∨ n = r)

/-- `n` is in PQ before the `j`-th merge: it is a node of the tree made before that merge and is the child of no node made
before it (42_tree_builder.md R170, R173). -/
def InQueueAt (info : Vector NodeInfo 511) (j : Nat) (n : NodeId) : Prop :=
  info[n] ≠ .absent ∧ n.val < 256 + j ∧ ∀ p : NodeId, p.val < 256 + j → ¬ IsChild info n p

/-- The test-only decoder (95_test_vectors.md V-EX-1): read a code, emit its symbol, go on. `fuel` bounds the symbols. -/
def decodeStream (code : Symbol → List Bool) : (fuel : Nat) → List Bool → Option (List Symbol)
  | _, [] => some []
  | 0, _ :: _ => none
  | fuel + 1, bits =>
    match (List.finRange 256).find? fun c => !(code c).isEmpty && (code c).isPrefixOf bits with
    | some c => (decodeStream code fuel (bits.drop (code c).length)).map (c :: ·)
    | none => none

/-- The bits of bytes, most significant first (20_memory.md R74). -/
def bitsOfBytes (bytes : List Byte) : List Bool :=
  bytes.flatMap fun b => (List.range 8).map fun k => b.getLsbD (7 - k)

/-! ## Steps -/

/-- `n` steps, stopping at the first that does not go on. -/
def stepN : Nat → State → Host.Outcome State Fault Refusal
  | 0, s => .next s
  | n + 1, s =>
    match step s with
    | .next t => stepN n t
    | .fault f => .fault f
    | .refused r => .refused r

/-- The agents of the next `n` moves for as long as SEQ stays BUSY: the schedule's, then the engine (40_command_sequencer.md
R122; that the order of the agents stands in State is the model's choice, log 2). -/
def State.turns (s : State) (n : Nat) : List Agent :=
  s.sched.take n ++ List.replicate (n - s.sched.length) .engine

/-- The command SEQ holds completes in the `n`-th step, leaving `t`: SEQ is idle then for the first time, with DONE or ERR 1
(40_command_sequencer.md R135). -/
def CompletesAfter (n : Nat) (s t : State) : Prop :=
  stepN n s = .next t ∧ t.seq = .idle ∧ t.completion ≠ .none ∧
  ∀ (j : Nat) (u : State), j < n → stepN j s = .next u → u.busy = true

/-- The state without what only time and the worker count decide: NW, NLANES, the cycle counters and the counter of free
values (40_command_sequencer.md R138). -/
def State.untimed (s : State) : State :=
  { s with
    nw := 0
    cfg := { s.cfg with nlanes := 0 }
    cyc := { count := 0, build := 0, gencode := 0, encode := 0, pack := 0 }
    draws := 0 }

/-! ## The invariant -/

/-- While BUSY: LASTCMD is the word SEQ holds, the stages left are the end of that word's list, and DONE = ERR = 0
(40_command_sequencer.md R120, R135; 10_state.md R24, R50). -/
def State.seqOk (s : State) : Bool :=
  match s.seq with
  | .idle => true
  | .busy w q =>
    decide (s.lastCmd = w) && decide (s.completion = .none) && !q.isEmpty && q.isSuffixOf (stagesOfWord w)

/-- In a RUN past its first stage, the stage before has just succeeded and NW is legal (46_pipeline_commands.md R253). -/
def State.runOk (s : State) : Bool :=
  match s.seq with
  | .busy w (st :: _) =>
    decide (stagesOfWord w ≠ stages .run) || decide (st = .count) ||
      (s.valid.flag st.predecessor && s.workersLegal)
  | .busy _ [] | .idle => true

/-- "At every moment a set flag implies every earlier flag is set" (10_state.md R25). -/
def Valid.chain (v : Valid) : Bool :=
  (!v.tree || v.freq) && (!v.ctab || v.tree) && (!v.enc || v.ctab) && (!v.out || v.enc)

/-- FREQ_VALID: "FREQ and NSYM hold the Frequency Table of IBUF[0..LEN)" (10_state.md R25). -/
abbrev State.FreqMeans (s : State) : Prop :=
  s.lengthLegal = true ∧ s.freq = tally s.input ∧ s.nsym = BitVec.ofNat 9 (numSymbols s.freq)

/-- TREE_VALID: "NODE_CNT, NODE_INFO and ROOT hold the coding tree built from FREQ" (10_state.md R25). -/
abbrev State.TreeMeans (s : State) : Prop := buildTree s.freq = some s.tree

/-- CTAB_VALID: "CTAB_LEN, CTAB_CVAL and MAXLEN hold the Code Table of that tree" (10_state.md R25). -/
abbrev State.CtabMeans (s : State) : Prop :=
  (match genCode s.nodeInfo s.root with
    | .ok t => decide (t = s.codeTable)
    | .error _ => false) = true ∧
  s.maxLen = BitVec.ofNat 8 (maxCodeLen s.ctabLen)

/-- ENC_VALID: "BBUF, RAW_BITS and ENC_BITS hold the Encoded Bit Stream of IBUF[0..LEN) under CTAB" (10_state.md R25), and it
fits OBUF (44_bit_encoder.md R213). -/
abbrev State.EncMeans (s : State) : Prop :=
  s.bbuf = s.encodedStream ∧ s.rawBits = BitVec.ofNat 32 s.rawLength ∧ s.encBits = BitVec.ofNat 32 s.encLength ∧
  s.encLength / 8 ≤ s.cfg.obufBytes

/-- OUT_VALID: "OBUF[0..OUTLEN) and OUTLEN hold the Packed Byte Stream of BBUF" (10_state.md R25). -/
abbrev State.OutMeans (s : State) : Prop :=
  s.outLen.toNat = s.encBits.toNat / 8 ∧
  s.obuf.readBytes 0 s.outLen.toNat = packBytes s.outLen.toNat s.bbuf

/-- The invariant of the machine: legal parameters, memories in canonical form and inside their sizes, a legal sequencer state,
ENC_BITS a multiple of 8 (10_state.md R31), and valid flags that mean what 10_state.md R25 says. -/
abbrev State.Inv (s : State) : Prop :=
  s.cfg.wellFormed = true ∧
  s.ibuf.wf = true ∧ s.ibuf.within s.cfg.ibufBytes = true ∧
  s.obuf.wf = true ∧ s.obuf.within s.cfg.obufBytes = true ∧
  s.seqOk = true ∧ s.runOk = true ∧ s.encBits.toNat % 8 = 0 ∧
  s.valid.chain = true ∧
  (s.valid.freq = true → s.FreqMeans) ∧ (s.valid.tree = true → s.TreeMeans) ∧
  (s.valid.ctab = true → s.CtabMeans) ∧ (s.valid.enc = true → s.EncMeans) ∧
  (s.valid.out = true → s.OutMeans)

end Sys2Proof.Machine
end

