-- ==== Sys2Proof/Certificates/Slice0/Obligations.lean ====
section
/-!
DEFINITION. The statements for the provers.
-/

open Sys2Proof Sys2Proof.Machine

/-! ## The command word -/

/-- 30_encoding.md R101: the word, the mnemonic and the stages of each of the eight commands, with RSV = 0. -/
def Obligations.OpcodeMapWords : Prop :=
  (decode 0x00000000#32 = .ok .nop ∧ encode .nop = 0x00000000#32 ∧ mnemonic .nop = "NOP" ∧
    stages .nop = [.zero]) ∧
  (decode 0x00000001#32 = .ok .clear ∧ encode .clear = 0x00000001#32 ∧ mnemonic .clear = "CLEAR" ∧
    stages .clear = [.zero]) ∧
  (decode 0x00000002#32 = .ok .count ∧ encode .count = 0x00000002#32 ∧ mnemonic .count = "COUNT" ∧
    stages .count = [.count]) ∧
  (decode 0x00000003#32 = .ok .build ∧ encode .build = 0x00000003#32 ∧ mnemonic .build = "BUILD" ∧
    stages .build = [.build]) ∧
  (decode 0x00000004#32 = .ok .gencode ∧ encode .gencode = 0x00000004#32 ∧ mnemonic .gencode = "GENCODE" ∧
    stages .gencode = [.gencode]) ∧
  (decode 0x00000005#32 = .ok .encode ∧ encode .encode = 0x00000005#32 ∧ mnemonic .encode = "ENCODE" ∧
    stages .encode = [.encode]) ∧
  (decode 0x00000006#32 = .ok .pack ∧ encode .pack = 0x00000006#32 ∧ mnemonic .pack = "PACK" ∧
    stages .pack = [.pack]) ∧
  (decode 0x00000007#32 = .ok .run ∧ encode .run = 0x00000007#32 ∧ mnemonic .run = "RUN" ∧
    stages .run = [.count, .build, .gencode, .encode, .pack]) ∧
  (Stage.zero.code = 0 ∧ Stage.count.code = 1 ∧ Stage.build.code = 2 ∧ Stage.gencode.code = 3 ∧ Stage.encode.code = 4 ∧
    Stage.pack.code = 5) ∧
  (∀ st : Stage, st ≠ .zero → ∃ i : Instr, stages i = [st] ∧ (encode i).toNat - 1 = st.code)

/-- 30_encoding.md R102: a word is legal iff RSV = 0 and OP <= 0x07; the decoder is total, and the words it accepts are exactly
the eight that `encode` gives, each for its own command. With it the disassembly of R109: an illegal word prints as
`.illegal 0x` and its eight hexadecimal digits, the most significant first. -/
def Obligations.LegalWordsAreExactlyTheEncodedOnes : Prop :=
  (∀ w : Word, (∃ i, decode w = .ok i) ↔ w.extractLsb 31 8 = 0#24 ∧ (w.extractLsb 7 0).toNat ≤ 0x07) ∧
  (∀ (w : Word) (i : Instr), decode w = .ok i ↔ w = encode i) ∧
  (∀ i : Instr, disassemble (encode i) = mnemonic i) ∧
  (∀ w : Word, (∀ i : Instr, w ≠ encode i) →
    ∃ digits : List Char, digits.length = 8 ∧ (disassemble w).toList = ".illegal 0x".toList ++ digits ∧
      ∀ k : Nat, k < 8 → digits[k]? = "0123456789abcdef".toList[w.toNat / 16 ^ (7 - k) % 16]?)

/-- 40_command_sequencer.md R121: the stage list of every word, legal or not. -/
def Obligations.StageListOfEveryWord : Prop :=
  (∀ w : Word, (∀ i : Instr, w ≠ encode i) → stagesOfWord w = [.zero]) ∧
  stagesOfWord (encode .nop) = [.zero] ∧ stagesOfWord (encode .clear) = [.zero] ∧
  stagesOfWord (encode .count) = [.count] ∧ stagesOfWord (encode .build) = [.build] ∧
  stagesOfWord (encode .gencode) = [.gencode] ∧ stagesOfWord (encode .encode) = [.encode] ∧
  stagesOfWord (encode .pack) = [.pack] ∧
  stagesOfWord (encode .run) = [.count, .build, .gencode, .encode, .pack]

/-! ## The host port -/

/-- 10_state.md R41: the offsets of registers and windows name each one exactly once, and every listed offset is word-aligned and
inside the CSR region. -/
def Obligations.CsrOffsetsNameEachRegisterOnce : Prop :=
  (∀ c : Csr, Csr.ofOffset c.offset = some c) ∧
  (∀ (off : Nat) (c : Csr), Csr.ofOffset off = some c → c.offset = off) ∧
  (∀ c : Csr, c.offset % 4 = 0 ∧ c.offset + 4 ≤ 0x4000)

/-- 20_memory.md R71, R72, R75, R76, R82: the order of the checks of a transaction. -/
def Obligations.TransactionChecksInOrder : Prop :=
  ∀ (s : State) (n : Size) (addr v : Word) (t : Txn), (t = .read n addr ∨ t = .write n addr v) →
    let a := addr.toNat
    let inCsr := a + n.bytes ≤ 0x4000
    let inIbuf := 0x01000000 ≤ a ∧ a + n.bytes ≤ 0x01000000 + s.cfg.ibufBytes
    let inObuf := 0x20000000 ≤ a ∧ a + n.bytes ≤ 0x20000000 + s.cfg.obufBytes
    let response := (transact t s).2.resp
    (¬inCsr → ¬inIbuf → ¬inObuf → response = .decerr) ∧
    (inCsr ∨ inIbuf ∨ inObuf → a % n.bytes ≠ 0 → response = .slverr) ∧
    (inCsr → a % n.bytes = 0 → n ≠ .word → response = .slverr) ∧
    (inCsr → a % n.bytes = 0 → n = .word → (∀ c : Csr, c.offset ≠ a) → response = .decerr) ∧
    (a % n.bytes = 0 → (inIbuf ∨ inObuf ∨ (inCsr ∧ n = .word ∧ ∃ c : Csr, c.offset = a)) →
      response = .okay ∨ (response = .slverr ∧ s.busy = true))

/-- 20_memory.md R80: while BUSY, the listed reads and writes are answered SLVERR with no effect; all others are performed
normally: a write as in the same state with SEQ idle, a read likewise but for STATUS, which shows BUSY (10_state.md R24), and
for CYC_*, which is a draw (R40; what that read leaves is ReadsHaveNoSideEffects). A write of a read-only register or window
or of OBUF is ignored. -/
def Obligations.BusyGatingRefusesExactlyTheListed : Prop :=
  ∀ (s : State) (n : Size) (addr v : Word) (target : Target),
    s.busy = true → resolve s.cfg n addr = .ok target →
    let readListed :=
      target ∈ [.csr .nsym, .csr .root, .csr .rawBits, .csr .encBits, .csr .outLen, .csr .maxLen] ∨
      (∃ c, target = .csr (.freq c)) ∨ (∃ c, target = .csr (.ctabLen c)) ∨
      (∃ c j, target = .csr (.ctabCode c j)) ∨ (∃ i, target = .csr (.nodeCnt i)) ∨
      (∃ i, target = .csr (.nodeInfo i)) ∨ (∃ a, target = .ibuf a) ∨ (∃ a, target = .obuf a)
    let writeListed := target ∈ [.csr .cmd, .csr .len, .csr .nw] ∨ (∃ a, target = .ibuf a)
    let counter := target ∈ [.csr .cycCount, .csr .cycBuild, .csr .cycGencode, .csr .cycEncode, .csr .cycPack]
    (readListed → transact (.read n addr) s = (s, { resp := .slverr, rdata := 0 })) ∧
    (¬readListed → transact (.read n addr) s =
      ((s.readTarget n target).1, { resp := .okay, rdata := (s.readTarget n target).2 })) ∧
    (¬readListed → ¬counter → target ≠ .csr .status →
      transact (.read n addr) s = (s, (transact (.read n addr) { s with seq := .idle }).2)) ∧
    (target = .csr .status → transact (.read n addr) s = (s, { resp := .okay, rdata := s.statusWord })) ∧
    (writeListed → transact (.write n addr v) s = (s, { resp := .slverr, rdata := 0 })) ∧
    (¬writeListed → transact (.write n addr v) s = (s.writeTarget n v target, { resp := .okay, rdata := 0 })) ∧
    (¬writeListed → transact (.write n addr v) s =
      ({ (transact (.write n addr v) { s with seq := .idle }).1 with seq := s.seq }, { resp := .okay, rdata := 0 })) ∧
    ((∃ c, target = .csr c ∧ c ∉ [.cmd, .len, .nw, .irqEn, .irqStat]) ∨ (∃ a, target = .obuf a) →
      transact (.write n addr v) s = (s, { resp := .okay, rdata := 0 }))

/-- 60_exceptions.md R277: a transaction answered SLVERR or DECERR changes no state, and its read data is 0 (20_memory.md
R70). -/
def Obligations.RefusedTransactionsChangeNothing : Prop :=
  ∀ (t : Txn) (s : State), (transact t s).2.resp ≠ .okay → (transact t s).1 = s ∧ (transact t s).2.rdata = 0

/-- 20_memory.md R78: no read has a side effect, and every read is idempotent, except that a read of a CYC_* counter while BUSY
is a fresh draw: it uses up one free value (the counter of free values is the model's own, log 6). -/
def Obligations.ReadsHaveNoSideEffects : Prop :=
  ∀ (s : State) (n : Size) (addr : Word),
    { (transact (.read n addr) s).1 with draws := s.draws } = s ∧
    (s.busy = false ∨
        addr ∉ [0x044#32, 0x048#32, 0x04C#32, 0x050#32, 0x054#32] →
      (transact (.read n addr) s).1 = s ∧
      (transact (.read n addr) (transact (.read n addr) s).1).2 = (transact (.read n addr) s).2) ∧
    (s.busy = true → addr ∈ [0x044#32, 0x048#32, 0x04C#32, 0x050#32, 0x054#32] →
      (transact (.read .word addr) s).2.resp = .okay ∧
      (transact (.read .word addr) s).1.draws = s.draws + 1)

/-- 10_state.md R26, R27, R35, R36: the four registers the host writes, and what each write leaves unchanged. -/
def Obligations.HostRegisterWrites : Prop :=
  ∀ (s : State) (v : Word),
    (s.busy = false → transact (.write .word 0x00C#32 v) s =
      ({ s with
          len := v
          valid := { freq := false, tree := false, ctab := false, enc := false, out := false } },
        { resp := .okay, rdata := 0 })) ∧
    (s.busy = false → transact (.write .word 0x010#32 v) s = ({ s with nw := v }, { resp := .okay, rdata := 0 })) ∧
    (transact (.write .word 0x030#32 v) s =
      ({ s with irqEn := v.extractLsb' 0 2 }, { resp := .okay, rdata := 0 })) ∧
    (∃ stat : BitVec 2,
      transact (.write .word 0x034#32 v) s = ({ s with irqStat := stat }, { resp := .okay, rdata := 0 }) ∧
      ∀ k : Nat, k < 2 → stat.getLsbD k = (s.irqStat.getLsbD k && !v.getLsbD k))

/-- 10_state.md R47, 20_memory.md R73, R79: an OKAY write of IBUF stores its bytes, the low bits at the lowest address, clears the
five valid flags, and changes no other byte of IBUF and nothing else; a read of the same size then returns the bytes
written. The value may be wider than its size: that its low bytes are then the ones moved is the model's choice (log 16). -/
def Obligations.IbufWriteStoresLittleEndian : Prop :=
  ∀ (s : State) (n : Size) (a : Nat) (v : Word),
    s.busy = false → s.cfg.wellFormed = true → s.ibuf.wf = true →
    a % n.bytes = 0 → a + n.bytes ≤ s.cfg.ibufBytes →
    let addr := BitVec.ofNat 32 (0x01000000 + a)
    let t := (transact (.write n addr v) s).1
    (transact (.write n addr v) s).2.resp = .okay ∧
    (∀ k : Nat, k < n.bytes → t.ibuf.read (a + k) = v.extractLsb' (8 * k) 8) ∧
    (∀ b : Nat, b < a ∨ a + n.bytes ≤ b → t.ibuf.read b = s.ibuf.read b) ∧
    (∀ st : Stage, t.valid.flag st = false) ∧
    { t with ibuf := s.ibuf, valid := s.valid } = s ∧
    (transact (.read n addr) t).2 = { resp := .okay, rdata := BitVec.ofNat 32 (v.toNat % 2 ^ (8 * n.bytes)) }

/-- 20_memory.md R81: a write to a read-only register, a read-only window or OBUF is ignored and answered OKAY in every state,
BUSY or not. -/
def Obligations.ReadOnlyWritesAreIgnored : Prop :=
  (∀ (s : State) (v : Word) (c : Csr), c ∉ [.cmd, .len, .nw, .irqEn, .irqStat] →
    transact (.write .word (BitVec.ofNat 32 c.offset) v) s = (s, { resp := .okay, rdata := 0 })) ∧
  (∀ (s : State) (v : Word) (n : Size) (a : Nat), s.cfg.wellFormed = true →
    a % n.bytes = 0 → a + n.bytes ≤ s.cfg.obufBytes →
    transact (.write n (BitVec.ofNat 32 (0x20000000 + a)) v) s = (s, { resp := .okay, rdata := 0 }))

/-- 40_command_sequencer.md R120: acceptance. A write of a word to CMD while SEQ is IDLE stores it, clears DONE, ERR and ERRCODE,
and makes SEQ BUSY with the word's stage list; nothing else changes. While BUSY the write is refused. -/
def Obligations.CmdWriteAcceptsEveryWord : Prop :=
  ∀ (s : State) (w : Word),
    (s.seq = .idle →
      transact (.write .word 0x004#32 w) s =
        ({ s with lastCmd := w, completion := .none, seq := .busy w (stagesOfWord w) }, { resp := .okay, rdata := 0 }) ∧
      let t := (transact (.write .word 0x004#32 w) s).1
      t.statusWord.getLsbD 0 = true ∧ t.statusWord.getLsbD 1 = false ∧ t.statusWord.getLsbD 2 = false ∧
      t.statusWord.extractLsb' 4 4 = 0#4 ∧
      (stagesOfWord w).head?.map Stage.code = some (t.statusWord.extractLsb' 8 3).toNat) ∧
    (s.busy = true → transact (.write .word 0x004#32 w) s = (s, { resp := .slverr, rdata := 0 }))

/-- 10_state.md R24, R25, R50, with the codes of 60_exceptions.md R270 and the stage numbers: the fields of STATUS. -/
def Obligations.StatusWordFields : Prop :=
  ∀ s : State,
    let stageNumber := fun st : Stage =>
      match st with
      | .zero => 0#3
      | .count => 1#3
      | .build => 2#3
      | .gencode => 3#3
      | .encode => 4#3
      | .pack => 5#3
    (s.statusWord.getLsbD 0 = true ↔ ∃ w q, s.seq = .busy w q) ∧
    (s.statusWord.getLsbD 1 = true ↔ s.completion = .done) ∧
    (s.statusWord.getLsbD 2 = true ↔ ∃ e st, s.completion = .error e st) ∧
    s.statusWord.getLsbD 3 = false ∧
    s.statusWord.extractLsb' 4 4 =
      (match s.completion with
      | .none | .done => 0#4
      | .error .emptyInput _ => 1#4
      | .error .invalidWorkerCount _ => 2#4
      | .error .length _ => 3#4
      | .error .sequence _ => 4#4
      | .error .overflow _ => 5#4
      | .error .illegalCommand _ => 6#4) ∧
    (∀ w st rest, s.seq = .busy w (st :: rest) → s.statusWord.extractLsb' 8 3 = stageNumber st) ∧
    (s.seq = .idle → s.statusWord.extractLsb' 8 3 =
      (match s.completion with
      | .none | .done => 0#3
      | .error _ st => stageNumber st)) ∧
    (∀ k : Nat, 11 ≤ k → k < 16 → s.statusWord.getLsbD k = false) ∧
    s.statusWord.getLsbD 16 = s.valid.freq ∧ s.statusWord.getLsbD 17 = s.valid.tree ∧
    s.statusWord.getLsbD 18 = s.valid.ctab ∧ s.statusWord.getLsbD 19 = s.valid.enc ∧
    s.statusWord.getLsbD 20 = s.valid.out ∧
    (∀ k : Nat, 21 ≤ k → k < 32 → s.statusWord.getLsbD k = false)

/-- 10_state.md R22 to R41: what a read of each register returns: in every state, BUSY or not, for the registers R41 does not
gate, and while idle for the results and the CYC_* counters. -/
def Obligations.RegisterReadValues : Prop :=
  ∀ s : State, s.cfg.wellFormed = true →
    let read := fun addr : Word => (transact (.read .word addr) s).2
    let gives := fun (addr : Word) (v : Nat) => (read addr).resp = .okay ∧ (read addr).rdata.toNat = v
    (gives 0x000#32 0x48554601 ∧ gives 0x004#32 0 ∧ gives 0x008#32 s.statusWord.toNat ∧ gives 0x00C#32 s.len.toNat ∧
      gives 0x010#32 s.nw.toNat ∧ gives 0x02C#32 s.lastCmd.toNat ∧ gives 0x030#32 s.irqEn.toNat ∧
      gives 0x034#32 s.irqStat.toNat ∧ gives 0x038#32 s.cfg.ibufBytes ∧ gives 0x03C#32 s.cfg.obufBytes ∧
      gives 0x040#32 s.cfg.nlanes) ∧
    (s.busy = false →
      gives 0x014#32 s.nsym.toNat ∧ gives 0x018#32 s.root.val ∧ gives 0x01C#32 s.rawBits.toNat ∧
      gives 0x020#32 s.encBits.toNat ∧ gives 0x024#32 s.outLen.toNat ∧ gives 0x028#32 s.maxLen.toNat ∧
      gives 0x044#32 s.cyc.count.toNat ∧ gives 0x048#32 s.cyc.build.toNat ∧ gives 0x04C#32 s.cyc.gencode.toNat ∧
      gives 0x050#32 s.cyc.encode.toNat ∧ gives 0x054#32 s.cyc.pack.toNat)

/-- 10_state.md R42 to R48: what a read of each window returns while idle, NODE_INFO by its fields, CTAB_CODE bit by bit, and
IBUF and OBUF by the bytes of a read of every size, the lowest address in the low bits (20_memory.md R73). -/
def Obligations.WindowReadValues : Prop :=
  ∀ s : State, s.busy = false →
    let read := fun addr : Nat => (transact (.read .word (BitVec.ofNat 32 addr)) s).2
    (∀ c : Symbol, read (0x400 + 4 * c.val) = { resp := .okay, rdata := s.freq[c] }) ∧
    (∀ c : Symbol, (read (0x800 + 4 * c.val)).resp = .okay ∧
      (read (0x800 + 4 * c.val)).rdata.toNat = s.ctabLen[c].toNat) ∧
    (∀ (c : Symbol) (j : Fin 8), (read (0x1000 + 32 * c.val + 4 * j.val)).resp = .okay ∧
      ∀ k : Nat, k < 32 →
        (read (0x1000 + 32 * c.val + 4 * j.val)).rdata.getLsbD k = s.ctabVal[c].getLsbD (32 * j.val + k)) ∧
    (∀ n : NodeId, read (0x3000 + 4 * n.val) = { resp := .okay, rdata := s.nodeCnt[n] }) ∧
    (∀ n : NodeId,
      let info := (read (0x3800 + 4 * n.val)).rdata
      (read (0x3800 + 4 * n.val)).resp = .okay ∧
      info.extractLsb' 25 5 = 0#5 ∧ info.extractLsb' 9 7 = 0#7 ∧
      match s.nodeInfo[n] with
      | .absent => info = 0#32
      | .leaf => info.getLsbD 31 = true ∧ info.getLsbD 30 = false ∧
          info.extractLsb' 16 9 = 0#9 ∧ info.extractLsb' 0 9 = 0#9
      | .inner left right => info.getLsbD 31 = true ∧ info.getLsbD 30 = true ∧
          (info.extractLsb' 16 9).toNat = right.val ∧ (info.extractLsb' 0 9).toNat = left.val) ∧
    (∀ (n : Size) (a : Nat), s.cfg.wellFormed = true → a % n.bytes = 0 → a + n.bytes ≤ s.cfg.ibufBytes →
      let reply := (transact (.read n (BitVec.ofNat 32 (0x01000000 + a))) s).2
      reply.resp = .okay ∧ reply.rdata.toNat < 2 ^ (8 * n.bytes) ∧
      ∀ k : Nat, k < n.bytes → reply.rdata.extractLsb' (8 * k) 8 = s.ibuf.read (a + k)) ∧
    (∀ (n : Size) (a : Nat), s.cfg.wellFormed = true → a % n.bytes = 0 → a + n.bytes ≤ s.cfg.obufBytes →
      let reply := (transact (.read n (BitVec.ofNat 32 (0x20000000 + a))) s).2
      reply.resp = .okay ∧ reply.rdata.toNat < 2 ^ (8 * n.bytes) ∧
      ∀ k : Nat, k < n.bytes → reply.rdata.extractLsb' (8 * k) 8 = s.obuf.read (a + k))

/-- 60_exceptions.md R281: `irq` is a level, a function of IRQ_STAT and IRQ_EN. It rises only where an enabled bit is set or a
pending bit is enabled, falls only where every enabled pending bit is cleared or disabled, and is low after a reset. -/
def Obligations.IrqIsTheLevelOfEnabledPendingBits : Prop :=
  (∀ s : State, s.irq = true ↔
    (s.irqStat.getLsbD 0 = true ∧ s.irqEn.getLsbD 0 = true) ∨ (s.irqStat.getLsbD 1 = true ∧ s.irqEn.getLsbD 1 = true)) ∧
  (∀ s t : State, t.irqStat = s.irqStat → t.irqEn = s.irqEn → t.irq = s.irq) ∧
  (∀ s t : State, s.irq = false → t.irq = true → ∃ k : Nat, k < 2 ∧ t.irqStat.getLsbD k = true ∧ t.irqEn.getLsbD k = true ∧
    (s.irqStat.getLsbD k = false ∨ s.irqEn.getLsbD k = false)) ∧
  (∀ s t : State, s.irq = true → t.irq = false → ∀ k : Nat, s.irqStat.getLsbD k = true → s.irqEn.getLsbD k = true →
    t.irqStat.getLsbD k = false ∨ t.irqEn.getLsbD k = false) ∧
  (∀ (s : State) (v : Word), (transact (.write .word 0x030#32 v) s).1.irq = true ↔
    ∃ k : Nat, k < 2 ∧ s.irqStat.getLsbD k = true ∧ v.getLsbD k = true) ∧
  (∀ (s : State) (v : Word), (transact (.write .word 0x034#32 v) s).1.irq = true ↔
    ∃ k : Nat, k < 2 ∧ s.irqStat.getLsbD k = true ∧ v.getLsbD k = false ∧ s.irqEn.getLsbD k = true) ∧
  (∀ s t : State, s.nextAgent = .reset → step s = .next t → t.irq = false)

/-- 30_encoding.md R107: a host at `wait` reads STATUS, stays while BUSY = 1 and goes on once it is 0; its read changes nothing. -/
def Obligations.WaitStaysUntilBusyFalls : Prop :=
  ∀ (s : State) (rest : List HostStmt), s.prog = wait :: rest →
    hostStep s = { s with
      prog := if s.busy = true then s.prog else rest
      bus := some (.read .word 0x008#32, { resp := .okay, rdata := s.statusWord }) }

/-! ## The sequencer -/

/-- 40_command_sequencer.md R125: when it is the engine's turn and the word in SEQ decodes to `i`, the step is `exec i` on the
state with the turn taken off the schedule; and the word of a command given to `withFetchWord` is the next one run. -/
def Obligations.StepRunsTheDecodedCommand : Prop :=
  (∀ (s : State) (w : Word) (q : List Stage) (i : Instr),
    s.nextAgent = .engine → s.seq = .busy w q → decode w = .ok i →
    step s = exec i { s with sched := s.sched.tail }) ∧
  (∀ (s : State) (i : Instr), step (s.withFetchWord 32 (encode i).toNat) = exec i (s.accept (encode i))) ∧
  (∀ i : Instr, decodeTableWord 32 (encode i).toNat = some i)

/-- 30_encoding.md R104, 40_command_sequencer.md R123: an illegal word completes with ILLEGAL_COMMAND and STAGE = 0, and changes
nothing else, no valid flag and no cycle counter. -/
def Obligations.IllegalWordCompletesWithError : Prop :=
  ∀ (s : State) (w : Word), (∀ i : Instr, w ≠ encode i) → s.nextAgent = .engine → s.seq = .busy w [.zero] →
    step s = .next { s with
      sched := s.sched.tail
      seq := .idle
      completion := .error .illegalCommand .zero
      irqStat := s.irqStat ||| 0b10#2 }

/-- 40_command_sequencer.md R127: whenever a stage is performed, by its own command or in a RUN, the flags of every later stage
are 0 afterwards, the earlier ones are as before, and its own is 1 unless it failed, then 0. -/
def Obligations.StageStartClearsFlagsFromItsOwn : Prop :=
  ∀ (i : Instr) (s t : State) (st : Stage), s.performs i st = true → exec i s = .next t → s.completion = .none →
    (∀ st' : Stage, st.code < st'.code → t.valid.flag st' = false) ∧
    (∀ st' : Stage, st'.code < st.code → t.valid.flag st' = s.valid.flag st') ∧
    (t.valid.flag st = true ↔ t.completion.isError = false)

/-! ## NOP and CLEAR -/

/-- 46_pipeline_commands.md R250: NOP does nothing but complete. -/
def Obligations.NopOnlyCompletes : Prop :=
  ∀ (s : State) (w : Word), s.seq = .busy w [.zero] →
    exec .nop s = .next { s with seq := .idle, completion := .done, irqStat := s.irqStat ||| 0b01#2 }

/-- 46_pipeline_commands.md R251: CLEAR makes every stage output, counter and valid flag 0 and completes; IBUF, OBUF, LEN, NW,
IRQ_EN and LASTCMD are unchanged. -/
def Obligations.ClearDiscardsEveryStageOutput : Prop :=
  ∀ (s : State) (w : Word), s.seq = .busy w [.zero] →
    ∃ t : State, exec .clear s = .next t ∧
      (∀ c : Symbol, t.freq[c] = 0#32 ∧ t.ctabLen[c] = 0#8 ∧ t.ctabVal[c] = 0#255) ∧
      (∀ n : NodeId, t.nodeCnt[n] = 0#32 ∧ t.nodeInfo[n] = .absent) ∧
      t.nsym = 0#9 ∧ t.root.val = 0 ∧ t.rawBits = 0#32 ∧ t.encBits = 0#32 ∧ t.outLen = 0#32 ∧ t.maxLen = 0#8 ∧
      (∀ st : Stage, t.cyc.get st = 0#32) ∧ t.bbuf = [] ∧ (∀ st : Stage, t.valid.flag st = false) ∧
      t.seq = .idle ∧ t.completion = .done ∧ t.irqStat = s.irqStat ||| 0b01#2 ∧
      EngineFrame s t ∧ (∀ a : Nat, t.obuf.read a = s.obuf.read a) ∧ t.draws = s.draws

/-! ## COUNT -/

/-- 41_frequency_counter.md R150, R152, R153: COUNT, and stage 1 of RUN, complete for every legal NW and LEN. FREQ counts each
byte value of the input, NSYM the values that occur; every other result is unchanged. -/
def Obligations.CountMakesTheFrequencyTable : Prop :=
  ∀ (i : Instr) (s : State), s.performs i .count = true → 0 < s.nw.toInt → s.len.toNat ≤ s.cfg.ibufBytes →
    ∃ t : State, exec i s = .next t ∧
      (∀ c : Symbol, t.freq[c].toNat =
        (List.range s.len.toNat).countP fun k => decide ((s.ibuf.read k).toNat = c.val)) ∧
      t.nsym.toNat = (List.finRange 256).countP (fun c : Symbol => decide (t.freq[c] ≠ 0)) ∧
      (t.nsym = 0 ↔ s.len = 0) ∧
      FlagsCompleted .count s t ∧ StageEnds s t ∧ CounterWritten .count s t ∧ EngineFrame s t ∧
      SameTree s t ∧ SameCodes s t ∧ SameStream s t ∧ SameOutput s t

/-- 41_frequency_counter.md R150, R157; 40_command_sequencer.md R130, R132: when and how COUNT fails. -/
def Obligations.CountFailsOnWorkerCountThenLength : Prop :=
  ∀ (i : Instr) (s : State), s.performs i .count = true →
    ((s.nw = 0 ∨ s.nw.getLsbD 31 = true) → ∃ t, exec i s = .next t ∧ FailsWith .invalidWorkerCount .count s t) ∧
    (s.nw ≠ 0 → s.nw.getLsbD 31 = false → s.cfg.ibufBytes < s.len.toNat →
      ∃ t, exec i s = .next t ∧ FailsWith .length .count s t)

/-- 41_frequency_counter.md R158: after a successful COUNT the sum of FREQ is LEN. -/
def Obligations.FrequenciesSumToLength : Prop :=
  ∀ (i : Instr) (s t : State), s.performs i .count = true → exec i s = .next t → t.valid.freq = true →
    ((List.finRange 256).map fun c : Symbol => t.freq[c].toNat).sum = t.len.toNat

/-! ## BUILD -/

/-- 42_tree_builder.md R170, R173, R174, R175: BUILD, and stage 2 of RUN, complete on every table that is not empty: one leaf per
symbol, NSYM - 1 internal nodes with ids 256 on whose counts are the sums of their children's, every other node absent. ROOT
is the sole leaf or the last internal node (R176). FREQ and every other result are unchanged. -/
def Obligations.BuildMakesLeavesAndMerges : Prop :=
  ∀ (i : Instr) (s : State), s.performs i .build = true → s.valid.freq = true → s.nsym ≠ 0 →
    (∃ c : Symbol, s.freq[c] ≠ 0) →
    ∃ t : State, exec i s = .next t ∧
      let present := (List.finRange 256).countP fun c : Symbol => decide (s.freq[c] ≠ 0)
      (∀ c : Symbol, t.nodeInfo[leafId c] = (if s.freq[c] = 0 then .absent else .leaf) ∧
        t.nodeCnt[leafId c] = s.freq[c]) ∧
      (∀ n : NodeId, 256 ≤ n.val → n.val + 1 < 256 + present →
        ∃ l r : NodeId, t.nodeInfo[n] = .inner l r ∧ t.nodeCnt[n] = t.nodeCnt[l] + t.nodeCnt[r]) ∧
      (∀ n : NodeId, 256 + present ≤ n.val + 1 → t.nodeInfo[n] = .absent ∧ t.nodeCnt[n] = 0) ∧
      (present = 1 → ∃ c : Symbol, s.freq[c] ≠ 0 ∧ t.root = leafId c) ∧
      (2 ≤ present → t.root.val = 256 + present - 2) ∧
      FlagsCompleted .build s t ∧ StageEnds s t ∧ CounterWritten .build s t ∧ EngineFrame s t ∧
      SameFreq s t ∧ SameCodes s t ∧ SameStream s t ∧ SameOutput s t

/-- 42_tree_builder.md R172, R174: every merge of BUILD takes the two elements of least key out of PQ, the least as LEFT and the
next as RIGHT, where PQ holds the nodes made so far that are no node's child yet. -/
def Obligations.BuildMergesTheTwoLeastKeys : Prop :=
  ∀ (i : Instr) (s : State), s.performs i .build = true → s.valid.freq = true → s.nsym ≠ 0 →
    (∃ c : Symbol, s.freq[c] ≠ 0) →
    ∃ t : State, exec i s = .next t ∧
      ∀ (j : Nat) (p l r : NodeId), p.val = 256 + j → t.nodeInfo[p] = .inner l r →
        InQueueAt t.nodeInfo j l ∧ InQueueAt t.nodeInfo j r ∧ KeyBefore t.nodeCnt l r ∧
        ∀ n : NodeId, InQueueAt t.nodeInfo j n → n ≠ l → n ≠ r →
          KeyBefore t.nodeCnt l n ∧ KeyBefore t.nodeCnt r n

/-- 42_tree_builder.md R177: the nodes with VALID = 1 form one full binary tree at ROOT: children are nodes of the tree made
before their parent, the two children differ, ROOT is nobody's child, and every other node is the child of exactly one. -/
def Obligations.BuildMakesOneFullBinaryTree : Prop :=
  ∀ (i : Instr) (s : State), s.performs i .build = true → s.valid.freq = true → s.nsym ≠ 0 →
    (∃ c : Symbol, s.freq[c] ≠ 0) →
    ∃ t : State, exec i s = .next t ∧
      t.nodeInfo[t.root] ≠ .absent ∧ (∀ p : NodeId, ¬ IsChild t.nodeInfo t.root p) ∧
      (∀ p l r : NodeId, t.nodeInfo[p] = .inner l r →
        256 ≤ p.val ∧ l ≠ r ∧ t.nodeInfo[l] ≠ .absent ∧ t.nodeInfo[r] ≠ .absent ∧ l.val < p.val ∧ r.val < p.val) ∧
      (∀ n : NodeId, t.nodeInfo[n] ≠ .absent → n ≠ t.root → ∃! p : NodeId, IsChild t.nodeInfo n p)

/-- 42_tree_builder.md R170, R178: when and how BUILD fails; FREQ_VALID stays 1 on EMPTY_INPUT. -/
def Obligations.BuildFailsOnSequenceThenEmptyInput : Prop :=
  ∀ (i : Instr) (s : State), s.performs i .build = true →
    (s.valid.freq = false → ∃ t, exec i s = .next t ∧ FailsWith .sequence .build s t) ∧
    (s.valid.freq = true → s.nsym = 0 →
      ∃ t, exec i s = .next t ∧ FailsWith .emptyInput .build s t ∧ t.valid.freq = true)

/-- 42_tree_builder.md R176: in every state of the invariant with TREE_VALID = 1, ROOT is the sole symbol or 256 + NSYM - 2, and
NODE_CNT[ROOT] = LEN. -/
def Obligations.RootHoldsTheInputLength : Prop :=
  ∀ s : State, s.Inv → s.valid.tree = true →
    s.nodeCnt[s.root].toNat = s.len.toNat ∧
    (s.nsym.toNat = 1 → ∃ c : Symbol, s.freq[c] ≠ 0 ∧ s.root = leafId c) ∧
    (2 ≤ s.nsym.toNat → s.root.val = 256 + s.nsym.toNat - 2)

/-! ## GENCODE -/

/-- 43_code_table.md R190, R191, R193, R194: GENCODE, and stage 3 of RUN, complete on the tree BUILD makes of FREQ. The code of a
symbol is the path to its leaf, or "0" when its leaf is the root; a symbol not in the input has length and value 0; MAXLEN
is the largest length; the tree and every other result are unchanged (R196). -/
def Obligations.GencodeAssignsPathsAsCodes : Prop :=
  ∀ (i : Instr) (s : State), s.performs i .gencode = true → s.valid.tree = true → buildTree s.freq = some s.tree →
    ∃ t : State, exec i s = .next t ∧
      (∀ c : Symbol, s.freq[c] = 0 → t.ctabLen[c] = 0#8 ∧ t.ctabVal[c] = 0#255) ∧
      (∀ c : Symbol, s.freq[c] ≠ 0 →
        1 ≤ t.ctabLen[c].toNat ∧ t.ctabVal[c].toNat < 2 ^ t.ctabLen[c].toNat ∧
        if s.root = leafId c then t.code c = [false]
        else follow s.nodeInfo s.root (t.code c) = some (leafId c)) ∧
      (∀ c : Symbol, t.ctabLen[c].toNat ≤ t.maxLen.toNat) ∧ (∃ c : Symbol, t.ctabLen[c] = t.maxLen) ∧
      FlagsCompleted .gencode s t ∧ StageEnds s t ∧ CounterWritten .gencode s t ∧ EngineFrame s t ∧
      SameFreq s t ∧ SameTree s t ∧ SameStream s t ∧ SameOutput s t

/-- 43_code_table.md R192: a root that is a leaf gets the 1-bit code "0", and no other symbol has a code. -/
def Obligations.GencodeGivesTheSoleSymbolZero : Prop :=
  ∀ (i : Instr) (s : State) (c : Symbol), s.performs i .gencode = true → s.valid.tree = true →
    s.root = leafId c → s.nodeInfo[s.root] = .leaf →
    ∃ t : State, exec i s = .next t ∧ t.code c = [false] ∧ t.maxLen = 1#8 ∧
      (∀ d : Symbol, t.ctabLen[d] = (if d = c then 1#8 else 0#8) ∧ t.ctabVal[d] = 0#255) ∧
      FlagsCompleted .gencode s t ∧ StageEnds s t ∧ CounterWritten .gencode s t ∧ EngineFrame s t ∧
      SameFreq s t ∧ SameTree s t ∧ SameStream s t ∧ SameOutput s t

/-- 43_code_table.md R190, R197: GENCODE fails with SEQUENCE when TREE_VALID = 0. -/
def Obligations.GencodeFailsOnSequence : Prop :=
  ∀ (i : Instr) (s : State), s.performs i .gencode = true → s.valid.tree = false →
    ∃ t, exec i s = .next t ∧ FailsWith .sequence .gencode s t

/-- 43_code_table.md R195, laws 1 and 2: in every state of the invariant with CTAB_VALID = 1 no code is a prefix of another, and
every symbol of the input has a code of length at least 1 (and no other symbol has one). -/
def Obligations.CodesArePrefixFree : Prop :=
  ∀ s : State, s.Inv → s.valid.ctab = true →
    (∀ c : Symbol, 1 ≤ s.ctabLen[c].toNat ↔ ∃ k : Nat, k < s.len.toNat ∧ (s.ibuf.read k).toNat = c.val) ∧
    (∀ c d : Symbol, c ≠ d → 1 ≤ s.ctabLen[c].toNat → 1 ≤ s.ctabLen[d].toNat → ¬ s.code c <+: s.code d)

/-- 43_code_table.md R195, laws 3 and 4: the sum of 2^(-CTAB_LEN) over the symbols of the input is 1 when NSYM >= 2 and 1/2 when
NSYM = 1 (both sides times 2^255). -/
def Obligations.CodesAreComplete : Prop :=
  ∀ s : State, s.Inv → s.valid.ctab = true →
    ((List.finRange 256).map fun c : Symbol =>
        if s.ctabLen[c] = 0 then 0 else 2 ^ (255 - s.ctabLen[c].toNat)).sum =
      if s.nsym.toNat = 1 then 2 ^ 254 else 2 ^ 255

/-! ## ENCODE -/

/-- 44_bit_encoder.md R210 to R214: ENCODE, and stage 4 of RUN, complete for every legal NW when the stream fits OBUF. BBUF is
the codes of the input bytes in input order and then the padding of 0 to 7 zero bits; RAW_BITS and ENC_BITS are the lengths
without and with it; every other result is unchanged. -/
def Obligations.EncodeConcatenatesTheCodes : Prop :=
  ∀ (i : Instr) (s : State), s.performs i .encode = true → s.valid.ctab = true → 0 < s.nw.toInt →
    s.cfg.wellFormed = true → s.len.toNat ≤ s.cfg.ibufBytes →
    let raw := ((List.range s.len.toNat).map fun k => s.ctabLen[symbolOfByte (s.ibuf.read k)].toNat).sum
    let pad := (8 - raw % 8) % 8
    (raw + pad) / 8 ≤ s.cfg.obufBytes →
    ∃ t : State, exec i s = .next t ∧
      t.bbuf = ((List.range s.len.toNat).flatMap fun k =>
          let c := symbolOfByte (s.ibuf.read k)
          (List.range s.ctabLen[c].toNat).map fun j => s.ctabVal[c].getLsbD (s.ctabLen[c].toNat - 1 - j)) ++
        List.replicate pad false ∧
      t.rawBits.toNat = raw ∧ t.encBits.toNat = raw + pad ∧ t.bbuf.length = raw + pad ∧ (raw + pad) % 8 = 0 ∧
      FlagsCompleted .encode s t ∧ StageEnds s t ∧ CounterWritten .encode s t ∧ EngineFrame s t ∧
      SameFreq s t ∧ SameTree s t ∧ SameCodes s t ∧ SameOutput s t

/-- 44_bit_encoder.md R210, R213, R217; 40_command_sequencer.md R132: when and how ENCODE fails. OVERFLOW writes RAW_BITS and
ENC_BITS with the lengths the stream would have had; the other errors write no result. -/
def Obligations.EncodeFailsOnSequenceWorkersOverflow : Prop :=
  ∀ (i : Instr) (s : State), s.performs i .encode = true →
    (s.valid.ctab = false → ∃ t, exec i s = .next t ∧ FailsWith .sequence .encode s t) ∧
    (s.valid.ctab = true → (s.nw = 0 ∨ s.nw.getLsbD 31 = true) →
      ∃ t, exec i s = .next t ∧ FailsWith .invalidWorkerCount .encode s t) ∧
    (let raw := ((List.range s.len.toNat).map fun k => s.ctabLen[symbolOfByte (s.ibuf.read k)].toNat).sum
     let pad := (8 - raw % 8) % 8
     s.valid.ctab = true → s.nw ≠ 0 → s.nw.getLsbD 31 = false → s.cfg.wellFormed = true →
     s.len.toNat ≤ s.cfg.ibufBytes → s.cfg.obufBytes < (raw + pad) / 8 →
      ∃ t, exec i s = .next t ∧ t.rawBits.toNat = raw ∧ t.encBits.toNat = raw + pad ∧
        CompletesWithError .overflow .encode s t ∧ FlagsStarted .encode s t ∧ CounterWritten .encode s t ∧
        EngineFrame s t ∧ SameFreq s t ∧ SameTree s t ∧ SameCodes s t ∧ t.bbuf = s.bbuf ∧ SameOutput s t)

/-! ## PACK -/

/-- 45_bit_packer.md R230, R232, R233: PACK, and stage 5 of RUN, complete for every legal NW when BBUF holds ENC_BITS bits that fit
OBUF. Bit 8j of the stream is bit 7 of OBUF[j] and bit 8j + 7 is bit 0; OUTLEN = ENC_BITS / 8; every byte of OBUF from
OUTLEN on and every other result are unchanged. -/
def Obligations.PackWritesBytesMostSignificantBitFirst : Prop :=
  ∀ (i : Instr) (s : State), s.performs i .pack = true → s.valid.enc = true → 0 < s.nw.toInt →
    s.obuf.wf = true → s.bbuf.length = s.encBits.toNat → s.encBits.toNat / 8 ≤ s.cfg.obufBytes →
    ∃ t : State, exec i s = .next t ∧
      (∀ j k : Nat, j < s.encBits.toNat / 8 → k < 8 →
        some ((t.obuf.read j).getLsbD (7 - k)) = s.bbuf[8 * j + k]?) ∧
      (∀ a : Nat, s.encBits.toNat / 8 ≤ a → t.obuf.read a = s.obuf.read a) ∧
      t.outLen.toNat = s.encBits.toNat / 8 ∧
      FlagsCompleted .pack s t ∧ StageEnds s t ∧ CounterWritten .pack s t ∧ EngineFrame s t ∧
      SameFreq s t ∧ SameTree s t ∧ SameCodes s t ∧ SameStream s t

/-- 45_bit_packer.md R230, R236: when and how PACK fails; no byte of OBUF is written. -/
def Obligations.PackFailsOnSequenceThenWorkers : Prop :=
  ∀ (i : Instr) (s : State), s.performs i .pack = true →
    (s.valid.enc = false → ∃ t, exec i s = .next t ∧ FailsWith .sequence .pack s t) ∧
    (s.valid.enc = true → (s.nw = 0 ∨ s.nw.getLsbD 31 = true) →
      ∃ t, exec i s = .next t ∧ FailsWith .invalidWorkerCount .pack s t)

/-! ## RUN -/

/-- 46_pipeline_commands.md R252, 40_command_sequencer.md R124: a stage of a RUN that is not its last is the step of that stage's
own command, except that success moves SEQ to the next stage in place of completing. -/
def Obligations.RunStageIsTheStageCommand : Prop :=
  ∀ (s : State) (w w' : Word) (i : Instr) (st next : Stage) (rest : List Stage),
    s.seq = .busy w (st :: next :: rest) → st ≠ .zero → stages i = [st] →
    match exec i { s with seq := .busy w' [st] } with
    | .next t =>
      exec .run s = .next (if t.completion = .done
        then { t with seq := .busy w (next :: rest), completion := s.completion, irqStat := s.irqStat } else t)
    | .fault f => exec .run s = .fault f
    | .refused _ => False

/-- 46_pipeline_commands.md R252 with the round trip of 95_test_vectors.md V-EX-4: from its acceptance, a RUN with a legal NW on a
non-empty input that fits IBUF completes; whenever its stream fits OBUF (ENC_BITS / 8 <= OBUF_BYTES, 44_bit_encoder.md R213)
it does so without error in its fifth engine step with all five valid flags, and the bytes it packs decode to the input. An
OBUF of 32 bytes for each input byte always suffices (00_scope.md R6). This holds for every schedule of host and engine steps
with five engine steps and no reset (that the schedule stands in State is the model's choice, log 2); the last clause is
about the engine alone, the empty schedule of log 2. -/
def Obligations.RunCompressesLosslessly : Prop :=
  ∀ (s : State) (n : Nat), s.cfg.wellFormed = true → s.obuf.wf = true →
    s.seq = .busy (encode .run) (stages .run) → 0 < s.nw.toInt →
    1 ≤ s.len.toNat → s.len.toNat ≤ s.cfg.ibufBytes →
    .reset ∉ s.turns n → 5 ≤ (s.turns n).count .engine →
    ∃ (k : Nat) (t : State), k ≤ n ∧ CompletesAfter k s t ∧
      (32 * s.len.toNat ≤ s.cfg.obufBytes → t.encBits.toNat / 8 ≤ s.cfg.obufBytes) ∧
      (t.encBits.toNat / 8 ≤ s.cfg.obufBytes →
        (s.turns k).count .engine = 5 ∧
        t.completion = .done ∧ t.statusWord = 0x001F0002#32 ∧ t.irqStat.getLsbD 0 = true ∧
        t.cfg = s.cfg ∧ t.len = s.len ∧ t.nw = s.nw ∧ t.lastCmd = s.lastCmd ∧ t.ibuf = s.ibuf ∧
        t.outLen.toNat = (t.rawBits.toNat + 7) / 8 ∧
        (∀ a : Nat, t.outLen.toNat ≤ a → t.obuf.read a = s.obuf.read a) ∧
        decodeStream t.code t.len.toNat
            ((bitsOfBytes (t.obuf.readBytes 0 t.outLen.toNat)).take t.rawBits.toNat) =
          some ((List.range s.len.toNat).map fun k => symbolOfByte (s.ibuf.read k)) ∧
        (s.sched = [] → k = 5 ∧ t.irqStat = s.irqStat ||| 0b01#2 ∧ EngineFrame s t))

/-- 46_pipeline_commands.md R253: the five outcomes of a RUN accepted in a state of the invariant, by STATUS, and the engine step
in which each completes it; no other is reachable, SEQUENCE in particular is not. This holds for every schedule of host and
engine steps with five engine steps and no reset (that the schedule stands in State is the model's choice, log 2). -/
def Obligations.RunOutcomesAreTheFive : Prop :=
  ∀ (s : State) (n : Nat), s.Inv → s.seq = .busy (encode .run) (stages .run) →
    .reset ∉ s.turns n → 5 ≤ (s.turns n).count .engine →
    ∃ (k : Nat) (t : State), k ≤ n ∧ CompletesAfter k s t ∧
      let engineSteps := (s.turns k).count .engine
      ((¬ 0 < s.nw.toInt ∧ engineSteps = 1 ∧ t.statusWord = 0x00000124#32) ∨
       (0 < s.nw.toInt ∧ s.cfg.ibufBytes < s.len.toNat ∧ engineSteps = 1 ∧ t.statusWord = 0x00000134#32) ∨
       (0 < s.nw.toInt ∧ s.len = 0 ∧ engineSteps = 2 ∧ t.statusWord = 0x00010214#32) ∨
       (0 < s.nw.toInt ∧ 1 ≤ s.len.toNat ∧ s.len.toNat ≤ s.cfg.ibufBytes ∧
         s.cfg.obufBytes < t.encBits.toNat / 8 ∧ engineSteps = 4 ∧ t.statusWord = 0x00070454#32) ∨
       (0 < s.nw.toInt ∧ 1 ≤ s.len.toNat ∧ s.len.toNat ≤ s.cfg.ibufBytes ∧
         t.encBits.toNat / 8 ≤ s.cfg.obufBytes ∧ engineSteps = 5 ∧ t.statusWord = 0x001F0002#32))

/-- 40_command_sequencer.md R125, R135, R139: in a state of the invariant with a command accepted, a host step leaves SEQ, DONE and
ERR alone, and an engine step completes the command or takes the head off its stage list. So the command completes in its
fifth engine step at the latest, for every schedule of host and engine steps with five engine steps and no reset (that the
schedule stands in State is the model's choice, log 2). -/
def Obligations.CommandsCompleteWithinFiveEngineSteps : Prop :=
  ∀ s : State, s.Inv → s.busy = true →
    (s.nextAgent = .host → ∃ t : State, step s = .next t ∧ t.seq = s.seq ∧ t.completion = s.completion) ∧
    (s.nextAgent = .engine → ∃ t : State, step s = .next t ∧
      ((t.seq = .idle ∧ t.completion ≠ .none) ∨
       ∃ w st st' rest, s.seq = .busy w (st :: st' :: rest) ∧ t.seq = .busy w (st' :: rest) ∧ t.completion = .none)) ∧
    (∀ n : Nat, .reset ∉ s.turns n → 5 ≤ (s.turns n).count .engine →
      ∃ (k : Nat) (t : State), k ≤ n ∧ CompletesAfter k s t ∧ (s.turns k).count .engine ≤ 5)

/-- 40_command_sequencer.md R138: what a command leaves does not depend on NW (while legal), on NLANES, on the cycle counters or
on the free values taken, but for those themselves. -/
def Obligations.ResultsDoNotDependOnWorkersOrTime : Prop :=
  ∀ (i : Instr) (s₁ s₂ : State), s₁.untimed = s₂.untimed → 0 < s₁.nw.toInt → 0 < s₂.nw.toInt →
    match exec i s₁, exec i s₂ with
    | .next t₁, .next t₂ => t₁.untimed = t₂.untimed
    | .fault f₁, .fault f₂ => f₁ = f₂
    | .refused r₁, .refused r₂ => r₁ = r₂
    | _, _ => False

/-! ## Rules of the whole machine -/

/-- 10_state.md R48; 40_command_sequencer.md R129: OBUF changes only in the engine step of a PACK stage whose checks pass, or in a
reset while PACK is performed or next. -/
def Obligations.OnlyPackAndResetWriteObuf : Prop :=
  ∀ s t : State, step s = .next t → t.obuf ≠ s.obuf →
    (∃ w rest, s.seq = .busy w (.pack :: rest)) ∧
    ((s.nextAgent = .engine ∧ s.valid.enc = true ∧ 0 < s.nw.toInt) ∨ s.nextAgent = .reset)

/-- 10_state.md R42: "only COUNT, CLEAR and reset write FREQ". -/
def Obligations.OnlyCountClearAndResetWriteFreq : Prop :=
  ∀ s t : State, step s = .next t → t.freq ≠ s.freq →
    (s.nextAgent = .engine ∧ ∃ w rest, s.seq = .busy w (.count :: rest)) ∨
    (s.nextAgent = .engine ∧ s.seq = .busy (encode .clear) [.zero]) ∨ s.nextAgent = .reset

/-- 60_exceptions.md R280: an IRQ_STAT bit rises only in the engine step that completes a command, DONE_IS without and ERR_IS
with an error; never in a bus transaction, at acceptance, or between the stages of a RUN. -/
def Obligations.OnlyCompletionSetsIrqStat : Prop :=
  ∀ (s t : State) (k : Nat), step s = .next t → t.irqStat.getLsbD k = true → s.irqStat.getLsbD k = false →
    s.nextAgent = .engine ∧ s.busy = true ∧ t.seq = .idle ∧
    ((k = 0 ∧ t.completion = .done) ∨ (k = 1 ∧ t.completion.isError = true))

/-- 40_command_sequencer.md R126: while a command runs, no step but a reset changes LEN, NW or IBUF; and no step at all changes the
parameters of the instance (00_scope.md R6). -/
def Obligations.InputsAreFixedWhileBusy : Prop :=
  ∀ s t : State, step s = .next t →
    t.cfg = s.cfg ∧
    (s.busy = true → s.nextAgent ≠ .reset → t.len = s.len ∧ t.nw = s.nw ∧ t.ibuf = s.ibuf)

/-! ## Reset and power-up -/

/-- 70_reset_and_hazards.md R300, 10_state.md R57: a reset, in every state, puts every register, flag and table at its reset value
and leaves IBUF unchanged. -/
def Obligations.ResetPutsEveryRegisterAtItsValue : Prop :=
  ∀ s : State, s.nextAgent = .reset →
    ∃ t : State, step s = .next t ∧
      t.seq = .idle ∧ t.statusWord = 0#32 ∧ t.len = 0#32 ∧ t.nw = 0#32 ∧ t.nsym = 0#9 ∧ t.root.val = 0 ∧
      t.rawBits = 0#32 ∧ t.encBits = 0#32 ∧ t.outLen = 0#32 ∧ t.maxLen = 0#8 ∧ t.lastCmd = 0#32 ∧
      t.irqEn = 0#2 ∧ t.irqStat = 0#2 ∧ t.irq = false ∧ (∀ st : Stage, t.cyc.get st = 0#32) ∧
      (∀ c : Symbol, t.freq[c] = 0#32 ∧ t.ctabLen[c] = 0#8 ∧ t.ctabVal[c] = 0#255) ∧
      (∀ n : NodeId, t.nodeCnt[n] = 0#32 ∧ t.nodeInfo[n] = .absent) ∧ t.bbuf = [] ∧
      t.cfg = s.cfg ∧ (∀ a : Nat, t.ibuf.read a = s.ibuf.read a)

/-- 70_reset_and_hazards.md R301: a reset leaves OBUF unchanged, except that while PACK is performed or next the bytes below
ENC_BITS / 8 become draws; the abandoned command does not complete and raises no interrupt. -/
def Obligations.ResetLeavesObufButForPack : Prop :=
  ∀ s : State, s.nextAgent = .reset → s.obuf.wf = true →
    ∃ t : State, step s = .next t ∧ t.completion = .none ∧ t.irqStat = 0#2 ∧
      ((∀ w rest, s.seq ≠ .busy w (.pack :: rest)) → ∀ a : Nat, t.obuf.read a = s.obuf.read a) ∧
      (∀ a : Nat, s.encBits.toNat / 8 ≤ a → t.obuf.read a = s.obuf.read a)

/-- 70_reset_and_hazards.md R303: at power-up, for every legal instance and every pair of images, the invariant holds; State.reset is
one of these (log 1, log 5: its parameters and images are the model's choice). -/
def Obligations.InvariantHoldsAtPowerUp : Prop :=
  (∀ (cfg : Config) (ibufImage obufImage : Memory), cfg.wellFormed = true →
    ibufImage.wf = true → ibufImage.within cfg.ibufBytes = true →
    obufImage.wf = true → obufImage.within cfg.obufBytes = true →
    (State.powerUp cfg ibufImage obufImage).Inv) ∧
  State.reset.Inv

/-! ## The invariant -/

/-- Every step keeps the invariant: legal parameters, canonical memories, a legal sequencer state, and the meaning of the valid
flags (10_state.md R25: a set flag implies every earlier flag, and says its result is the one of the present inputs). -/
def Obligations.EveryStepKeepsTheInvariant : Prop :=
  ∀ s t : State, s.Inv → step s = .next t → t.Inv

/-- In every state of the invariant the machine goes on: the model's faults and refusals are met in no state a run reaches (log
11, log 12). -/
def Obligations.NoStepOfTheInvariantStops : Prop :=
  ∀ s : State, s.Inv → ∃ t : State, step s = .next t

/-- Canonical memories that read alike are equal (log 5: what an unlisted byte reads as is the model's choice). -/
def Obligations.CanonicalMemoriesReadingAlikeAreEqual : Prop :=
  ∀ m₁ m₂ : Memory, m₁.wf = true → m₂.wf = true → (∀ a : Nat, m₁.read a = m₂.read a) → m₁ = m₂

/-! ## Inside the parallel stages -/

/-- 41_frequency_counter.md R151, 45_bit_packer.md R231: the chunks of both partitions are in index order and cover their sequence
exactly, for every worker count of at least 1; and the packer's chunks never split a byte. -/
def Obligations.ChunksCoverInOrder : Prop :=
  (∀ (l : List Byte) (w : Nat), 1 ≤ w →
    ((List.range w).flatMap fun k => slice l (chunkBounds l.length w k)) = l) ∧
  (∀ (l : List Bool) (w : Nat), 1 ≤ w → l.length % 8 = 0 →
    ((List.range w).flatMap fun k => slice l (packChunkBounds l.length w k)) = l ∧
    ∀ k : Nat, (packChunkBounds l.length w k).1 % 8 = 0 ∧ (packChunkBounds l.length w k).2 % 8 = 0)

/-- 41_frequency_counter.md R156: a word-wide lane counts each byte of its chunk exactly once, in order. -/
def Obligations.LaneCountsEachByteOfItsChunk : Prop :=
  ∀ (m : Memory) (start stop : Nat), start ≤ stop → laneBytes m (start, stop) = m.readBytes start (stop - start)

/-- 41_frequency_counter.md R154, R155: the parallel counter gives the sequential table for every worker count and every order of
the merges. -/
def Obligations.ParallelCountEqualsSequential : Prop :=
  ∀ (m : Memory) (n w : Nat) (order : List Nat), 1 ≤ w → order.Perm (List.range w) →
    countParallel m n w order = tally (m.readBytes 0 n)

/-- 44_bit_encoder.md R215: the parallel encoder gives the sequential concatenation for every worker count and every order in which
the workers finish. -/
def Obligations.ParallelEncodeEqualsSequential : Prop :=
  ∀ (code : Symbol → List Bool) (bytes : List Byte) (w : Nat) (order : List Nat), 1 ≤ w → order.Perm (List.range w) →
    encodeParallel code bytes w order = bytes.flatMap fun b => code (symbolOfByte b)

/-- 45_bit_packer.md R231, R234, R235: the parallel packer leaves OBUF as the sequential one does for every worker count and every
order in which the workers finish. -/
def Obligations.ParallelPackEqualsSequential : Prop :=
  ∀ (bits : List Bool) (w : Nat) (order : List Nat) (obuf : Memory), 1 ≤ w → order.Perm (List.range w) →
    bits.length % 8 = 0 → obuf.wf = true →
    packParallel bits w order obuf = obuf.writeBytes 0 (packBytes (bits.length / 8) bits)

/-! ## Turns of the host, and turns with nothing to do -/

/-- 00_scope.md R3, 20_memory.md R70, R71, R84, 30_encoding.md R107: a turn of the host performs the next line of its program, one
transaction; a `poll` repeats until its read gives the value. Whose turn it is, and where the program and the reply stand,
are the model's choice (log 2, log 3), as are what a refused read of a `poll` compares (log 15) and that a turn with nothing
to do passes (log 14). -/
def Obligations.HostTurnPerformsTheNextTransaction : Prop :=
  (∀ (s : State) (a : Agent) (rest : List Agent), s.sched = a :: rest → s.nextAgent = a) ∧
  (∀ s : State, s.sched = [] → s.nextAgent = if s.busy = true then .engine else .host) ∧
  ∀ s : State,
    let s' := { s with sched := s.sched.tail }
    (∀ (t : Txn) (rest : List HostStmt), s.nextAgent = .host → s.prog = .txn t :: rest →
      step s = .next { (transact t s').1 with prog := rest, bus := some (t, (transact t s').2) }) ∧
    (∀ (addr mask value : Word) (rest : List HostStmt), s.nextAgent = .host → s.prog = .poll addr mask value :: rest →
      let t : Txn := .read .word addr
      let reply := (transact t s').2
      (reply.rdata &&& mask = value →
        step s = .next { (transact t s').1 with prog := rest, bus := some (t, reply) }) ∧
      (reply.rdata &&& mask ≠ value →
        step s = .next { (transact t s').1 with bus := some (t, reply) })) ∧
    (s.nextAgent = .host → s.prog = [] → step s = .next s') ∧
    (s.nextAgent = .engine → s.seq = .idle → step s = .next s')
end

