-- ==== Sys2Proof/Laws/State.lean ====
section
/-!
SUPPORT. What each update of the state leaves in each field. One theorem per update; simp uses each conjunct as a rule of its
own, so that no later proof unfolds a record update.
-/

namespace Sys2Proof.Machine

/-- The fields after acceptance (40_command_sequencer.md R120). -/
@[simp] theorem State.accept_fields (s : State) (w : Word) :
    (s.accept w).cfg = s.cfg ∧ (s.accept w).seq = .busy w (stagesOfWord w) ∧ (s.accept w).completion = .none ∧
    (s.accept w).valid = s.valid ∧ (s.accept w).len = s.len ∧ (s.accept w).nw = s.nw ∧ (s.accept w).nsym = s.nsym ∧
    (s.accept w).root = s.root ∧ (s.accept w).rawBits = s.rawBits ∧ (s.accept w).encBits = s.encBits ∧
    (s.accept w).outLen = s.outLen ∧ (s.accept w).maxLen = s.maxLen ∧ (s.accept w).lastCmd = w ∧
    (s.accept w).irqEn = s.irqEn ∧ (s.accept w).irqStat = s.irqStat ∧ (s.accept w).cyc = s.cyc ∧
    (s.accept w).freq = s.freq ∧ (s.accept w).nodeCnt = s.nodeCnt ∧ (s.accept w).nodeInfo = s.nodeInfo ∧
    (s.accept w).ctabLen = s.ctabLen ∧ (s.accept w).ctabVal = s.ctabVal ∧ (s.accept w).bbuf = s.bbuf ∧
    (s.accept w).ibuf = s.ibuf ∧ (s.accept w).obuf = s.obuf ∧ (s.accept w).prog = s.prog ∧
    (s.accept w).sched = s.sched ∧ (s.accept w).bus = s.bus ∧ (s.accept w).draws = s.draws :=
  ⟨rfl, rfl, rfl, rfl, rfl, rfl, rfl, rfl, rfl, rfl, rfl, rfl, rfl, rfl, rfl, rfl, rfl, rfl, rfl, rfl, rfl, rfl, rfl, rfl, rfl, rfl, rfl, rfl⟩

/-- The fields after completion without error (40_command_sequencer.md R133). -/
@[simp] theorem State.finishOk_fields (s : State) :
    s.finishOk.cfg = s.cfg ∧ s.finishOk.seq = .idle ∧ s.finishOk.completion = .done ∧ s.finishOk.valid = s.valid ∧
    s.finishOk.len = s.len ∧ s.finishOk.nw = s.nw ∧ s.finishOk.nsym = s.nsym ∧ s.finishOk.root = s.root ∧
    s.finishOk.rawBits = s.rawBits ∧ s.finishOk.encBits = s.encBits ∧ s.finishOk.outLen = s.outLen ∧
    s.finishOk.maxLen = s.maxLen ∧ s.finishOk.lastCmd = s.lastCmd ∧ s.finishOk.irqEn = s.irqEn ∧
    s.finishOk.irqStat = s.irqStat ||| doneIs ∧ s.finishOk.cyc = s.cyc ∧ s.finishOk.freq = s.freq ∧
    s.finishOk.nodeCnt = s.nodeCnt ∧ s.finishOk.nodeInfo = s.nodeInfo ∧ s.finishOk.ctabLen = s.ctabLen ∧
    s.finishOk.ctabVal = s.ctabVal ∧ s.finishOk.bbuf = s.bbuf ∧ s.finishOk.ibuf = s.ibuf ∧ s.finishOk.obuf = s.obuf ∧
    s.finishOk.prog = s.prog ∧ s.finishOk.sched = s.sched ∧ s.finishOk.bus = s.bus ∧ s.finishOk.draws = s.draws :=
  ⟨rfl, rfl, rfl, rfl, rfl, rfl, rfl, rfl, rfl, rfl, rfl, rfl, rfl, rfl, rfl, rfl, rfl, rfl, rfl, rfl, rfl, rfl, rfl, rfl, rfl, rfl, rfl, rfl⟩

/-- The fields after completion with an error (40_command_sequencer.md R134). -/
@[simp] theorem State.finishError_fields (s : State) (e : ErrCode) (st : Stage) :
    (s.finishError e st).cfg = s.cfg ∧ (s.finishError e st).seq = .idle ∧
    (s.finishError e st).completion = .error e st ∧ (s.finishError e st).valid = s.valid ∧
    (s.finishError e st).len = s.len ∧ (s.finishError e st).nw = s.nw ∧ (s.finishError e st).nsym = s.nsym ∧
    (s.finishError e st).root = s.root ∧ (s.finishError e st).rawBits = s.rawBits ∧
    (s.finishError e st).encBits = s.encBits ∧ (s.finishError e st).outLen = s.outLen ∧
    (s.finishError e st).maxLen = s.maxLen ∧ (s.finishError e st).lastCmd = s.lastCmd ∧
    (s.finishError e st).irqEn = s.irqEn ∧ (s.finishError e st).irqStat = s.irqStat ||| errIs ∧
    (s.finishError e st).cyc = s.cyc ∧ (s.finishError e st).freq = s.freq ∧ (s.finishError e st).nodeCnt = s.nodeCnt ∧
    (s.finishError e st).nodeInfo = s.nodeInfo ∧ (s.finishError e st).ctabLen = s.ctabLen ∧
    (s.finishError e st).ctabVal = s.ctabVal ∧ (s.finishError e st).bbuf = s.bbuf ∧
    (s.finishError e st).ibuf = s.ibuf ∧ (s.finishError e st).obuf = s.obuf ∧ (s.finishError e st).prog = s.prog ∧
    (s.finishError e st).sched = s.sched ∧ (s.finishError e st).bus = s.bus ∧ (s.finishError e st).draws = s.draws :=
  ⟨rfl, rfl, rfl, rfl, rfl, rfl, rfl, rfl, rfl, rfl, rfl, rfl, rfl, rfl, rfl, rfl, rfl, rfl, rfl, rfl, rfl, rfl, rfl, rfl, rfl, rfl, rfl, rfl⟩

/-- The fields after the W1C write (10_state.md R36). -/
@[simp] theorem State.acknowledge_fields (s : State) (v : Word) :
    (s.acknowledge v).cfg = s.cfg ∧ (s.acknowledge v).seq = s.seq ∧ (s.acknowledge v).completion = s.completion ∧
    (s.acknowledge v).valid = s.valid ∧ (s.acknowledge v).len = s.len ∧ (s.acknowledge v).nw = s.nw ∧
    (s.acknowledge v).nsym = s.nsym ∧ (s.acknowledge v).root = s.root ∧ (s.acknowledge v).rawBits = s.rawBits ∧
    (s.acknowledge v).encBits = s.encBits ∧ (s.acknowledge v).outLen = s.outLen ∧
    (s.acknowledge v).maxLen = s.maxLen ∧ (s.acknowledge v).lastCmd = s.lastCmd ∧ (s.acknowledge v).irqEn = s.irqEn ∧
    (s.acknowledge v).irqStat = s.irqStat &&& ~~~(v.extractLsb' 0 2) ∧ (s.acknowledge v).cyc = s.cyc ∧
    (s.acknowledge v).freq = s.freq ∧ (s.acknowledge v).nodeCnt = s.nodeCnt ∧
    (s.acknowledge v).nodeInfo = s.nodeInfo ∧ (s.acknowledge v).ctabLen = s.ctabLen ∧
    (s.acknowledge v).ctabVal = s.ctabVal ∧ (s.acknowledge v).bbuf = s.bbuf ∧ (s.acknowledge v).ibuf = s.ibuf ∧
    (s.acknowledge v).obuf = s.obuf ∧ (s.acknowledge v).prog = s.prog ∧ (s.acknowledge v).sched = s.sched ∧
    (s.acknowledge v).bus = s.bus ∧ (s.acknowledge v).draws = s.draws :=
  ⟨rfl, rfl, rfl, rfl, rfl, rfl, rfl, rfl, rfl, rfl, rfl, rfl, rfl, rfl, rfl, rfl, rfl, rfl, rfl, rfl, rfl, rfl, rfl, rfl, rfl, rfl, rfl, rfl⟩

/-- The fields after the cycle counter's write (10_state.md R40). -/
@[simp] theorem State.recordDuration_fields (s : State) (st : Stage) :
    (s.recordDuration st).cfg = s.cfg ∧ (s.recordDuration st).seq = s.seq ∧
    (s.recordDuration st).completion = s.completion ∧ (s.recordDuration st).valid = s.valid ∧
    (s.recordDuration st).len = s.len ∧ (s.recordDuration st).nw = s.nw ∧ (s.recordDuration st).nsym = s.nsym ∧
    (s.recordDuration st).root = s.root ∧ (s.recordDuration st).rawBits = s.rawBits ∧
    (s.recordDuration st).encBits = s.encBits ∧ (s.recordDuration st).outLen = s.outLen ∧
    (s.recordDuration st).maxLen = s.maxLen ∧ (s.recordDuration st).lastCmd = s.lastCmd ∧
    (s.recordDuration st).irqEn = s.irqEn ∧ (s.recordDuration st).irqStat = s.irqStat ∧
    (s.recordDuration st).cyc = s.cyc.set (duration s.draws) st ∧ (s.recordDuration st).freq = s.freq ∧
    (s.recordDuration st).nodeCnt = s.nodeCnt ∧ (s.recordDuration st).nodeInfo = s.nodeInfo ∧
    (s.recordDuration st).ctabLen = s.ctabLen ∧ (s.recordDuration st).ctabVal = s.ctabVal ∧
    (s.recordDuration st).bbuf = s.bbuf ∧ (s.recordDuration st).ibuf = s.ibuf ∧ (s.recordDuration st).obuf = s.obuf ∧
    (s.recordDuration st).prog = s.prog ∧ (s.recordDuration st).sched = s.sched ∧ (s.recordDuration st).bus = s.bus ∧
    (s.recordDuration st).draws = s.draws + 1 :=
  ⟨rfl, rfl, rfl, rfl, rfl, rfl, rfl, rfl, rfl, rfl, rfl, rfl, rfl, rfl, rfl, rfl, rfl, rfl, rfl, rfl, rfl, rfl, rfl, rfl, rfl, rfl, rfl, rfl⟩

/-- The fields after the start of a stage (40_command_sequencer.md R127). -/
@[simp] theorem State.startStage_fields (s : State) (st : Stage) :
    (s.startStage st).cfg = s.cfg ∧ (s.startStage st).seq = s.seq ∧ (s.startStage st).completion = s.completion ∧
    (s.startStage st).valid = s.valid.clearFrom st ∧ (s.startStage st).len = s.len ∧ (s.startStage st).nw = s.nw ∧
    (s.startStage st).nsym = s.nsym ∧ (s.startStage st).root = s.root ∧ (s.startStage st).rawBits = s.rawBits ∧
    (s.startStage st).encBits = s.encBits ∧ (s.startStage st).outLen = s.outLen ∧
    (s.startStage st).maxLen = s.maxLen ∧ (s.startStage st).lastCmd = s.lastCmd ∧ (s.startStage st).irqEn = s.irqEn ∧
    (s.startStage st).irqStat = s.irqStat ∧ (s.startStage st).cyc = s.cyc ∧ (s.startStage st).freq = s.freq ∧
    (s.startStage st).nodeCnt = s.nodeCnt ∧ (s.startStage st).nodeInfo = s.nodeInfo ∧
    (s.startStage st).ctabLen = s.ctabLen ∧ (s.startStage st).ctabVal = s.ctabVal ∧ (s.startStage st).bbuf = s.bbuf ∧
    (s.startStage st).ibuf = s.ibuf ∧ (s.startStage st).obuf = s.obuf ∧ (s.startStage st).prog = s.prog ∧
    (s.startStage st).sched = s.sched ∧ (s.startStage st).bus = s.bus ∧ (s.startStage st).draws = s.draws :=
  ⟨rfl, rfl, rfl, rfl, rfl, rfl, rfl, rfl, rfl, rfl, rfl, rfl, rfl, rfl, rfl, rfl, rfl, rfl, rfl, rfl, rfl, rfl, rfl, rfl, rfl, rfl, rfl, rfl⟩

/-- The fields after an input write (20_memory.md R79). -/
@[simp] theorem State.invalidate_fields (s : State) :
    s.invalidate.cfg = s.cfg ∧ s.invalidate.seq = s.seq ∧ s.invalidate.completion = s.completion ∧
    s.invalidate.valid = Valid.allClear ∧ s.invalidate.len = s.len ∧ s.invalidate.nw = s.nw ∧
    s.invalidate.nsym = s.nsym ∧ s.invalidate.root = s.root ∧ s.invalidate.rawBits = s.rawBits ∧
    s.invalidate.encBits = s.encBits ∧ s.invalidate.outLen = s.outLen ∧ s.invalidate.maxLen = s.maxLen ∧
    s.invalidate.lastCmd = s.lastCmd ∧ s.invalidate.irqEn = s.irqEn ∧ s.invalidate.irqStat = s.irqStat ∧
    s.invalidate.cyc = s.cyc ∧ s.invalidate.freq = s.freq ∧ s.invalidate.nodeCnt = s.nodeCnt ∧
    s.invalidate.nodeInfo = s.nodeInfo ∧ s.invalidate.ctabLen = s.ctabLen ∧ s.invalidate.ctabVal = s.ctabVal ∧
    s.invalidate.bbuf = s.bbuf ∧ s.invalidate.ibuf = s.ibuf ∧ s.invalidate.obuf = s.obuf ∧
    s.invalidate.prog = s.prog ∧ s.invalidate.sched = s.sched ∧ s.invalidate.bus = s.bus ∧
    s.invalidate.draws = s.draws :=
  ⟨rfl, rfl, rfl, rfl, rfl, rfl, rfl, rfl, rfl, rfl, rfl, rfl, rfl, rfl, rfl, rfl, rfl, rfl, rfl, rfl, rfl, rfl, rfl, rfl, rfl, rfl, rfl, rfl⟩

/-- The fields after taking the next agent off the schedule. -/
@[simp] theorem State.popSched_fields (s : State) :
    s.popSched.cfg = s.cfg ∧ s.popSched.seq = s.seq ∧ s.popSched.completion = s.completion ∧
    s.popSched.valid = s.valid ∧ s.popSched.len = s.len ∧ s.popSched.nw = s.nw ∧ s.popSched.nsym = s.nsym ∧
    s.popSched.root = s.root ∧ s.popSched.rawBits = s.rawBits ∧ s.popSched.encBits = s.encBits ∧
    s.popSched.outLen = s.outLen ∧ s.popSched.maxLen = s.maxLen ∧ s.popSched.lastCmd = s.lastCmd ∧
    s.popSched.irqEn = s.irqEn ∧ s.popSched.irqStat = s.irqStat ∧ s.popSched.cyc = s.cyc ∧ s.popSched.freq = s.freq ∧
    s.popSched.nodeCnt = s.nodeCnt ∧ s.popSched.nodeInfo = s.nodeInfo ∧ s.popSched.ctabLen = s.ctabLen ∧
    s.popSched.ctabVal = s.ctabVal ∧ s.popSched.bbuf = s.bbuf ∧ s.popSched.ibuf = s.ibuf ∧ s.popSched.obuf = s.obuf ∧
    s.popSched.prog = s.prog ∧ s.popSched.sched = s.sched.tail ∧ s.popSched.bus = s.bus ∧ s.popSched.draws = s.draws :=
  ⟨rfl, rfl, rfl, rfl, rfl, rfl, rfl, rfl, rfl, rfl, rfl, rfl, rfl, rfl, rfl, rfl, rfl, rfl, rfl, rfl, rfl, rfl, rfl, rfl, rfl, rfl, rfl, rfl⟩

/-- The fields after the lengths ENCODE writes (44_bit_encoder.md R210). -/
@[simp] theorem State.putLengths_fields (s : State) :
    s.putLengths.cfg = s.cfg ∧ s.putLengths.seq = s.seq ∧ s.putLengths.completion = s.completion ∧
    s.putLengths.valid = s.valid ∧ s.putLengths.len = s.len ∧ s.putLengths.nw = s.nw ∧ s.putLengths.nsym = s.nsym ∧
    s.putLengths.root = s.root ∧ s.putLengths.rawBits = BitVec.ofNat 32 s.rawLength ∧
    s.putLengths.encBits = BitVec.ofNat 32 s.encLength ∧ s.putLengths.outLen = s.outLen ∧
    s.putLengths.maxLen = s.maxLen ∧ s.putLengths.lastCmd = s.lastCmd ∧ s.putLengths.irqEn = s.irqEn ∧
    s.putLengths.irqStat = s.irqStat ∧ s.putLengths.cyc = s.cyc ∧ s.putLengths.freq = s.freq ∧
    s.putLengths.nodeCnt = s.nodeCnt ∧ s.putLengths.nodeInfo = s.nodeInfo ∧ s.putLengths.ctabLen = s.ctabLen ∧
    s.putLengths.ctabVal = s.ctabVal ∧ s.putLengths.bbuf = s.bbuf ∧ s.putLengths.ibuf = s.ibuf ∧
    s.putLengths.obuf = s.obuf ∧ s.putLengths.prog = s.prog ∧ s.putLengths.sched = s.sched ∧
    s.putLengths.bus = s.bus ∧ s.putLengths.draws = s.draws :=
  ⟨rfl, rfl, rfl, rfl, rfl, rfl, rfl, rfl, rfl, rfl, rfl, rfl, rfl, rfl, rfl, rfl, rfl, rfl, rfl, rfl, rfl, rfl, rfl, rfl, rfl, rfl, rfl, rfl⟩

/-- The fields after CLEAR (46_pipeline_commands.md R251). -/
@[simp] theorem State.clearAll_fields (s : State) :
    s.clearAll.cfg = s.cfg ∧ s.clearAll.seq = s.seq ∧ s.clearAll.completion = s.completion ∧
    s.clearAll.valid = Valid.allClear ∧ s.clearAll.len = s.len ∧ s.clearAll.nw = s.nw ∧ s.clearAll.nsym = 0 ∧
    s.clearAll.root = 0 ∧ s.clearAll.rawBits = 0 ∧ s.clearAll.encBits = 0 ∧ s.clearAll.outLen = 0 ∧
    s.clearAll.maxLen = 0 ∧ s.clearAll.lastCmd = s.lastCmd ∧ s.clearAll.irqEn = s.irqEn ∧
    s.clearAll.irqStat = s.irqStat ∧ s.clearAll.cyc = ⟨0, 0, 0, 0, 0⟩ ∧ s.clearAll.freq = Vector.replicate 256 0 ∧
    s.clearAll.nodeCnt = Vector.replicate 511 0 ∧ s.clearAll.nodeInfo = Vector.replicate 511 .absent ∧
    s.clearAll.ctabLen = Vector.replicate 256 0 ∧ s.clearAll.ctabVal = Vector.replicate 256 0 ∧ s.clearAll.bbuf = [] ∧
    s.clearAll.ibuf = s.ibuf ∧ s.clearAll.obuf = s.obuf ∧ s.clearAll.prog = s.prog ∧ s.clearAll.sched = s.sched ∧
    s.clearAll.bus = s.bus ∧ s.clearAll.draws = s.draws :=
  ⟨rfl, rfl, rfl, rfl, rfl, rfl, rfl, rfl, rfl, rfl, rfl, rfl, rfl, rfl, rfl, rfl, rfl, rfl, rfl, rfl, rfl, rfl, rfl, rfl, rfl, rfl, rfl, rfl⟩

/-- The fields of a state of `powerUp` that its arguments decide (70_reset_and_hazards.md R303). -/
@[simp] theorem State.powerUp_fields (cfg : Config) (i o : Memory) :
    (State.powerUp cfg i o).cfg = cfg ∧ (State.powerUp cfg i o).ibuf = i ∧ (State.powerUp cfg i o).obuf = o ∧
    (State.powerUp cfg i o).seq = .idle ∧ (State.powerUp cfg i o).completion = .none ∧
    (State.powerUp cfg i o).valid = Valid.allClear ∧ (State.powerUp cfg i o).encBits = 0 :=
  ⟨rfl, rfl, rfl, rfl, rfl, rfl, rfl⟩

/-- What a reset step leaves that it does not set to a constant (70_reset_and_hazards.md R300, R301). -/
@[simp] theorem State.resetStep_fields (s : State) :
    s.resetStep.cfg = s.cfg ∧ s.resetStep.ibuf = s.ibuf ∧ s.resetStep.obuf = s.obufAfterReset ∧
    s.resetStep.prog = s.prog ∧ s.resetStep.sched = s.sched ∧ s.resetStep.bus = s.bus ∧
    s.resetStep.seq = .idle ∧ s.resetStep.completion = .none ∧ s.resetStep.valid = Valid.allClear ∧
    s.resetStep.encBits = 0 :=
  ⟨rfl, rfl, rfl, rfl, rfl, rfl, rfl, rfl, rfl, rfl⟩

end Sys2Proof.Machine
end

