-- ==== Sys2Proof/Laws/Bus.lean ====
section
/-!
SUPPORT. Everything a host transaction can do, said once (20_memory.md R70, R71, R79).
-/

namespace Sys2Proof.Machine

/-- A read of a register changes nothing but, for a cycle counter while BUSY, the counter of free values. -/
theorem State.readCsr_state (s : State) (c : Csr) :
    (s.readCsr c).1 = s ∨ (s.busy = true ∧ (s.readCsr c).1 = { s with draws := s.draws + 1 }) := by
  cases c
  case cycCount | cycBuild | cycGencode | cycEncode | cycPack =>
    simp only [State.readCsr, State.readCycles]
    split
    · rename_i hb; exact .inr ⟨hb, rfl⟩
    · exact .inl rfl
  all_goals exact .inl rfl

/-- What a host transaction does to the state: nothing; a draw of a cycle counter while BUSY; or one of the six writes that
have an effect, of which those to CMD, LEN, NW and IBUF need BUSY = 0. -/
theorem transact_cases (t : Txn) (s : State) :
    (transact t s).1 = s ∨
    (s.busy = true ∧ (transact t s).1 = { s with draws := s.draws + 1 }) ∨
    (s.busy = false ∧ ∃ w, (transact t s).1 = s.accept w) ∨
    (s.busy = false ∧ ∃ v, (transact t s).1 = { s with len := v }.invalidate) ∨
    (s.busy = false ∧ ∃ v, (transact t s).1 = { s with nw := v }) ∨
    (∃ v, (transact t s).1 = { s with irqEn := v }) ∨
    (∃ v, (transact t s).1 = s.acknowledge v) ∨
    (s.busy = false ∧ ∃ n addr a v, resolve s.cfg n addr = .ok (.ibuf a) ∧
      (transact t s).1 = { s with ibuf := s.ibuf.writeBytes a (toLittleEndian n.bytes v) }.invalidate) := by
  cases t with
  | read n addr =>
    simp only [transact]
    split
    · exact .inl rfl
    · rename_i target _
      split
      · exact .inl rfl
      · cases target with
        | csr c =>
          rcases s.readCsr_state c with h | ⟨hb, h⟩
          · exact .inl h
          · exact .inr (.inl ⟨hb, h⟩)
        | ibuf a => exact .inl rfl
        | obuf a => exact .inl rfl
  | write n addr v =>
    simp only [transact]
    split
    · exact .inl rfl
    · rename_i target hr
      split
      · exact .inl rfl
      · rename_i hg
        cases target with
        | obuf a => exact .inl rfl
        | ibuf a =>
          have hb : s.busy = false := by simpa [Target.writeGated] using hg
          exact .inr (.inr (.inr (.inr (.inr (.inr (.inr ⟨hb, n, addr, a, v.toNat, hr, rfl⟩))))))
        | csr c =>
          cases c
          case cmd =>
            have hb : s.busy = false := by simpa [Target.writeGated, Csr.writeGated] using hg
            exact .inr (.inr (.inl ⟨hb, v, rfl⟩))
          case len =>
            have hb : s.busy = false := by simpa [Target.writeGated, Csr.writeGated] using hg
            exact .inr (.inr (.inr (.inl ⟨hb, v, rfl⟩)))
          case nw =>
            have hb : s.busy = false := by simpa [Target.writeGated, Csr.writeGated] using hg
            exact .inr (.inr (.inr (.inr (.inl ⟨hb, v, rfl⟩))))
          case irqEn => exact .inr (.inr (.inr (.inr (.inr (.inl ⟨_, rfl⟩)))))
          case irqStat => exact .inr (.inr (.inr (.inr (.inr (.inr (.inl ⟨v, rfl⟩))))))
          all_goals exact .inl rfl

/-- An access that resolves to an IBUF byte has all its bytes below IBUF_BYTES (20_memory.md R72). -/
theorem resolve_ibuf_within {cfg : Config} {n : Size} {addr : Word} {a : Nat} (h : resolve cfg n addr = .ok (.ibuf a)) :
    a + n.bytes ≤ cfg.ibufBytes := by
  unfold resolve at h
  cases hr : regionOf cfg addr.toNat n.bytes with
  | none => simp [hr] at h
  | some r =>
    simp only [hr] at h
    split at h
    · simp at h
    · cases r with
      | csr =>
        simp only at h
        split at h
        · simp at h
        · split at h <;> simp at h
      | obuf => simp at h
      | ibuf =>
        simp only [Except.ok.injEq, Target.ibuf.injEq] at h
        have hi : ibufBase ≤ addr.toNat ∧ addr.toNat + n.bytes ≤ ibufBase + cfg.ibufBytes := by
          by_contra hn
          unfold regionOf at hr
          rw [if_neg hn] at hr
          split at hr
          · simp at hr
          · split at hr <;> simp at hr
        omega

@[simp] theorem toLittleEndian_length (n v : Nat) : (toLittleEndian n v).length = n := by
  induction n generalizing v with
  | zero => rfl
  | succ n ih => simp [toLittleEndian, ih]

/-- The bytes of a value, read back, are the value below 2^(8n) (20_memory.md R73). -/
theorem littleEndian_toLittleEndian (n v : Nat) : littleEndian (toLittleEndian n v) = v % 256 ^ n := by
  induction n generalizing v with
  | zero => simp [toLittleEndian, littleEndian, Nat.mod_one]
  | succ n ih =>
    rw [Nat.pow_succ, Nat.mul_comm (256 ^ n) 256, Nat.mod_mul]
    simp [toLittleEndian, littleEndian, ih]

end Sys2Proof.Machine
end

