-- ==== Sys2Proof/Laws/Memory.lean ====
section
/-!
SUPPORT. Laws of the data memories: what a read gives after a write, and that every operation keeps the canonical form and
stays inside the memory's size.
-/

namespace Sys2Proof.Machine

@[simp] theorem Memory.read_nil (a : Nat) : Memory.read [] a = Memory.blank := rfl

@[simp] theorem Memory.read_cons (c : Host.Cell) (m : Memory) (a : Nat) :
    Memory.read (c :: m) a = if a = c.1 then c.2 else m.read a := rfl

theorem Memory.wf_cons (c : Host.Cell) (m : Memory) :
    Memory.wf (c :: m) = true ↔ c.2 ≠ Memory.blank ∧ (∀ d ∈ m, c.1 < d.1) ∧ m.wf = true := by
  obtain ⟨a, v⟩ := c
  simp [Memory.wf, and_assoc]

/-- An address below every listed one reads as blank. -/
theorem Memory.read_below (m : Memory) (a : Nat) (h : ∀ d ∈ m, a < d.1) : m.read a = Memory.blank := by
  induction m with
  | nil => rfl
  | cons c m ih =>
    have hc : a < c.1 := h c (by simp)
    rw [Memory.read_cons, if_neg (by omega)]
    exact ih fun d hd => h d (by simp [hd])

/-- A read after a write: the value at the written address, the old byte elsewhere. -/
theorem Memory.read_write (m : Memory) (a b : Nat) (v : Byte) (h : m.wf = true) :
    (m.write a v).read b = if b = a then v else m.read b := by
  induction m with
  | nil =>
    unfold Memory.write
    split <;> rename_i hv <;> simp_all
  | cons c m ih =>
    obtain ⟨k, w⟩ := c
    obtain ⟨_, hlt, hm⟩ := (Memory.wf_cons (k, w) m).1 h
    unfold Memory.write
    by_cases h1 : a < k
    · have hb : b = a → Memory.read ((k, w) :: m) b = Memory.blank := fun hba => by
        apply Memory.read_below
        intro d hd
        rcases List.mem_cons.1 hd with rfl | hd
        · exact hba ▸ h1
        · exact hba ▸ Nat.lt_trans h1 (hlt d hd)
      rw [if_pos h1]
      split
      · rename_i hv
        split
        · rename_i hba; rw [hb hba, hv]
        · rfl
      · simp [Memory.read_cons]
    · rw [if_neg h1]
      by_cases h2 : a = k
      · subst h2
        rw [if_pos rfl]
        split
        · rename_i hv
          by_cases hba : b = a
          · subst hba
            rw [Memory.read_below m b hlt, hv]; simp
          · simp [hba]
        · by_cases hba : b = a <;> simp [hba]
      · rw [if_neg h2]
        simp only [Memory.read_cons]
        rw [ih hm]
        by_cases hbk : b = k
        · subst hbk
          rw [if_pos rfl, if_neg (fun e => h2 e.symm), if_pos rfl]
        · rw [if_neg hbk, if_neg hbk]

/-- The addresses a write lists: the written one and those listed before. -/
theorem Memory.mem_write (m : Memory) (a : Nat) (v : Byte) (d : Host.Cell) (h : d ∈ m.write a v) :
    d.1 = a ∨ d ∈ m := by
  induction m with
  | nil =>
    unfold Memory.write at h
    split at h <;> simp_all
  | cons c m ih =>
    obtain ⟨k, w⟩ := c
    unfold Memory.write at h
    by_cases h1 : a < k
    · rw [if_pos h1] at h
      split at h
      · exact .inr h
      · rcases List.mem_cons.1 h with rfl | h
        · exact .inl rfl
        · exact .inr h
    · rw [if_neg h1] at h
      by_cases h2 : a = k
      · rw [if_pos h2] at h
        split at h
        · exact .inr (List.mem_cons_of_mem _ h)
        · rcases List.mem_cons.1 h with rfl | h
          · exact .inl rfl
          · exact .inr (List.mem_cons_of_mem _ h)
      · rw [if_neg h2] at h
        rcases List.mem_cons.1 h with rfl | h
        · exact .inr (by simp)
        · rcases ih h with h | h
          · exact .inl h
          · exact .inr (List.mem_cons_of_mem _ h)

/-- A write keeps the canonical form. -/
theorem Memory.write_wf (m : Memory) (a : Nat) (v : Byte) (h : m.wf = true) : (m.write a v).wf = true := by
  induction m with
  | nil =>
    unfold Memory.write
    split
    · rfl
    · rename_i hv; simp [Memory.wf, hv]
  | cons c m ih =>
    obtain ⟨k, w⟩ := c
    obtain ⟨hw, hlt, hm⟩ := (Memory.wf_cons (k, w) m).1 h
    unfold Memory.write
    by_cases h1 : a < k
    · rw [if_pos h1]
      split
      · exact h
      · rename_i hv
        refine (Memory.wf_cons _ _).2 ⟨hv, ?_, h⟩
        intro d hd
        rcases List.mem_cons.1 hd with rfl | hd
        · exact h1
        · exact Nat.lt_trans h1 (hlt d hd)
    · rw [if_neg h1]
      by_cases h2 : a = k
      · rw [if_pos h2]
        split
        · exact hm
        · rename_i hv
          exact (Memory.wf_cons _ _).2 ⟨hv, by subst h2; exact hlt, hm⟩
      · rw [if_neg h2]
        refine (Memory.wf_cons _ _).2 ⟨hw, ?_, ih hm⟩
        intro d hd
        rcases Memory.mem_write m a v d hd with h3 | h3
        · show k < d.1
          omega
        · exact hlt d h3

/-- A write inside the size keeps every listed address inside it. -/
theorem Memory.write_within (m : Memory) (a size : Nat) (v : Byte) (h : m.within size = true) (ha : a < size) :
    (m.write a v).within size = true := by
  simp only [Memory.within, List.all_eq_true, decide_eq_true_eq] at h ⊢
  intro d hd
  rcases Memory.mem_write m a v d hd with h1 | h1
  · omega
  · exact h d h1

/-- Writing bytes keeps the canonical form. -/
theorem Memory.writeBytes_wf (vs : List Byte) (m : Memory) (a : Nat) (h : m.wf = true) :
    (m.writeBytes a vs).wf = true := by
  induction vs generalizing m a with
  | nil => exact h
  | cons v vs ih => exact ih _ _ (Memory.write_wf m a v h)

/-- Writing bytes inside the size stays inside it. -/
theorem Memory.writeBytes_within (vs : List Byte) (m : Memory) (a size : Nat) (h : m.within size = true)
    (ha : a + vs.length ≤ size) : (m.writeBytes a vs).within size = true := by
  induction vs generalizing m a with
  | nil => exact h
  | cons v vs ih =>
    simp only [List.length_cons] at ha
    exact ih _ _ (Memory.write_within m a size v h (by omega)) (by omega)

/-- A read after writing bytes: inside the written range the byte written there, elsewhere the old byte. -/
theorem Memory.read_writeBytes (vs : List Byte) (m : Memory) (a b : Nat) (h : m.wf = true) :
    (m.writeBytes a vs).read b = if a ≤ b ∧ b < a + vs.length then vs.getD (b - a) 0 else m.read b := by
  induction vs generalizing m a with
  | nil =>
    simp only [Memory.writeBytes, List.length_nil]
    rw [if_neg (by omega)]
  | cons v vs ih =>
    simp only [Memory.writeBytes, List.length_cons]
    rw [ih _ _ (Memory.write_wf m a v h), Memory.read_write m a b v h]
    by_cases h1 : b = a
    · subst h1
      rw [if_neg (by omega), if_pos rfl, if_pos (by omega)]
      simp
    · rw [if_neg h1]
      by_cases h2 : a + 1 ≤ b ∧ b < a + 1 + vs.length
      · rw [if_pos h2, if_pos (by omega), show b - a = (b - (a + 1)) + 1 by omega]
        rfl
      · rw [if_neg h2, if_neg (by omega)]

@[simp] theorem Memory.readBytes_length (m : Memory) (a n : Nat) : (m.readBytes a n).length = n := by
  simp [Memory.readBytes]

/-- The memory of the reset state has the canonical form. -/
theorem State.reset_memories_wf : State.reset.ibuf.wf = true ∧ State.reset.obuf.wf = true := ⟨rfl, rfl⟩

end Sys2Proof.Machine
end

