-- ==== Sys2Proof/Laws/Ops.lean ====
section
/-!
SUPPORT. One lemma per shared operation that says everything it can do; the proofs cite these instead of unfolding.
-/

namespace Sys2Proof.Machine

/-! ## The end of a stage -/

theorem State.advance_last (s : State) (w : Word) (st : Stage) (h : s.seq = .busy w [st]) : s.advance = s.finishOk := by
  simp [State.advance, h]

theorem State.advance_more (s : State) (w : Word) (st st' : Stage) (rest : List Stage)
    (h : s.seq = .busy w (st :: st' :: rest)) : s.advance = { s with seq := .busy w (st' :: rest) } := by
  simp [State.advance, h]

/-- The end of a stage either completes the command or moves SEQ to the next stage. -/
theorem State.advance_cases (s : State) :
    s.advance = s.finishOk ∨
    ∃ w st st' rest, s.seq = .busy w (st :: st' :: rest) ∧ s.advance = { s with seq := .busy w (st' :: rest) } := by
  unfold State.advance
  split
  · rename_i w h st rest heq
    exact .inr ⟨w, h, st, rest, heq, rfl⟩
  all_goals exact .inl rfl

/-! ## The step of a stage -/

/-- A stage step that gives a next state either failed a check or ran its body. -/
theorem stageStep_next {st : Stage} {check : State → Except Fault (Option ErrCode)} {onFail : ErrCode → State → State}
    {body : State → Except Fault State} {s t : State} (h : stageStep st check onFail body s = .next t) :
    (∃ e, check (s.startStage st) = .ok (some e) ∧
      t = (onFail e ((s.startStage st).recordDuration st)).finishError e st) ∨
    (∃ u, check (s.startStage st) = .ok none ∧ body ((s.startStage st).recordDuration st) = .ok u ∧
      t = ({ u with valid := u.valid.setFlag st }).advance) := by
  unfold stageStep at h
  split at h
  · cases h
  · rename_i e he
    cases h
    exact .inl ⟨e, he, rfl⟩
  · rename_i hc
    split at h
    · cases h
    · rename_i u hu
      cases h
      exact .inr ⟨u, hc, hu, rfl⟩

theorem stageStep_of_check {st : Stage} {check : State → Except Fault (Option ErrCode)}
    {onFail : ErrCode → State → State} {body : State → Except Fault State} {s : State} {e : ErrCode}
    (h : check (s.startStage st) = .ok (some e)) :
    stageStep st check onFail body s = .next ((onFail e ((s.startStage st).recordDuration st)).finishError e st) := by
  simp [stageStep, h]

theorem stageStep_of_body {st : Stage} {check : State → Except Fault (Option ErrCode)}
    {onFail : ErrCode → State → State} {body : State → Except Fault State} {s u : State}
    (h : check (s.startStage st) = .ok none) (hb : body ((s.startStage st).recordDuration st) = .ok u) :
    stageStep st check onFail body s = .next ({ u with valid := u.valid.setFlag st }).advance := by
  simp [stageStep, h, hb]

/-! ## Which meaning runs a stage -/

theorem State.performs_iff (s : State) (i : Instr) (st : Stage) :
    s.performs i st = true ↔
      ∃ w rest, s.seq = .busy w (st :: rest) ∧ st ∈ stages i ∧ st ≠ .zero ∧ (i = .run ∨ rest = []) := by
  unfold State.performs
  split
  · rename_i w h rest heq
    simp only [Bool.and_eq_true, Bool.or_eq_true, decide_eq_true_eq, List.isEmpty_iff, Seq.busy.injEq, List.cons.injEq, heq]
    constructor
    · rintro ⟨⟨⟨rfl, h2⟩, h3⟩, h4⟩
      exact ⟨w, rest, ⟨rfl, rfl, rfl⟩, h2, h3, h4⟩
    · rintro ⟨w', rest', ⟨rfl, rfl, rfl⟩, h2, h3, h4⟩
      exact ⟨⟨⟨rfl, h2⟩, h3⟩, h4⟩
  all_goals simp_all

theorem exec_of_performs_count {s : State} {i : Instr} (h : s.performs i .count = true) : exec i s = countStage s := by
  obtain ⟨w, rest, hs, hm, -, hr⟩ := (s.performs_iff i .count).1 h
  cases i <;> simp_all [stages, exec, execCount, execRun, State.atOnly]

theorem exec_of_performs_build {s : State} {i : Instr} (h : s.performs i .build = true) : exec i s = buildStage s := by
  obtain ⟨w, rest, hs, hm, -, hr⟩ := (s.performs_iff i .build).1 h
  cases i <;> simp_all [stages, exec, execBuild, execRun, State.atOnly]

theorem exec_of_performs_gencode {s : State} {i : Instr} (h : s.performs i .gencode = true) :
    exec i s = gencodeStage s := by
  obtain ⟨w, rest, hs, hm, -, hr⟩ := (s.performs_iff i .gencode).1 h
  cases i <;> simp_all [stages, exec, execGencode, execRun, State.atOnly]

theorem exec_of_performs_encode {s : State} {i : Instr} (h : s.performs i .encode = true) : exec i s = encodeStage s := by
  obtain ⟨w, rest, hs, hm, -, hr⟩ := (s.performs_iff i .encode).1 h
  cases i <;> simp_all [stages, exec, execEncode, execRun, State.atOnly]

theorem exec_of_performs_pack {s : State} {i : Instr} (h : s.performs i .pack = true) : exec i s = packStage s := by
  obtain ⟨w, rest, hs, hm, -, hr⟩ := (s.performs_iff i .pack).1 h
  cases i <;> simp_all [stages, exec, execPack, execRun, State.atOnly]

theorem State.atOnly_iff (s : State) (st : Stage) : s.atOnly st = true ↔ ∃ w, s.seq = .busy w [st] := by
  unfold State.atOnly
  split
  · rename_i w h heq
    simp [heq]
  all_goals simp_all

theorem State.performs_of_atOnly {s : State} {i : Instr} {st : Stage} (h : s.atOnly st = true) (hm : st ∈ stages i)
    (hz : st ≠ .zero) : s.performs i st = true := by
  obtain ⟨w, hw⟩ := (s.atOnly_iff st).1 h
  exact (s.performs_iff i st).2 ⟨w, [], hw, hm, hz, .inr rfl⟩

/-- Everything a command can do when it gives a next state: one of the five stages, or NOP's or CLEAR's pseudo-stage. -/
theorem exec_next {i : Instr} {s t : State} (h : exec i s = .next t) :
    (s.performs i .count = true ∧ countStage s = .next t) ∨ (s.performs i .build = true ∧ buildStage s = .next t) ∨
    (s.performs i .gencode = true ∧ gencodeStage s = .next t) ∨ (s.performs i .encode = true ∧ encodeStage s = .next t) ∨
    (s.performs i .pack = true ∧ packStage s = .next t) ∨
    (i = .nop ∧ s.atOnly .zero = true ∧ t = s.finishOk) ∨
    (i = .clear ∧ s.atOnly .zero = true ∧ t = s.clearAll.finishOk) := by
  have head : ∀ w st rest, s.seq = .busy w (st :: rest) → st ∈ stages .run → st ≠ .zero →
      s.performs .run st = true := fun w st rest hs hm hz => (s.performs_iff _ _).2 ⟨w, rest, hs, hm, hz, .inl rfl⟩
  cases i <;> simp only [exec, execNop, execClear, execCount, execBuild, execGencode, execEncode, execPack, execRun] at h
  case run =>
    split at h
    case h_1 w r heq => exact .inl ⟨head w _ r heq (by simp [stages]) (by simp), h⟩
    case h_2 w r heq => exact .inr (.inl ⟨head w _ r heq (by simp [stages]) (by simp), h⟩)
    case h_3 w r heq => exact .inr (.inr (.inl ⟨head w _ r heq (by simp [stages]) (by simp), h⟩))
    case h_4 w r heq => exact .inr (.inr (.inr (.inl ⟨head w _ r heq (by simp [stages]) (by simp), h⟩)))
    case h_5 w r heq => exact .inr (.inr (.inr (.inr (.inl ⟨head w _ r heq (by simp [stages]) (by simp), h⟩))))
    all_goals cases h
  all_goals
    split at h
    case isFalse => cases h
    case isTrue ha => ?_
  case nop => cases h; exact .inr (.inr (.inr (.inr (.inr (.inl ⟨rfl, ha, rfl⟩)))))
  case clear => cases h; exact .inr (.inr (.inr (.inr (.inr (.inr ⟨rfl, ha, rfl⟩)))))
  case count => exact .inl ⟨State.performs_of_atOnly ha (by simp [stages]) (by simp), h⟩
  case build => exact .inr (.inl ⟨State.performs_of_atOnly ha (by simp [stages]) (by simp), h⟩)
  case gencode => exact .inr (.inr (.inl ⟨State.performs_of_atOnly ha (by simp [stages]) (by simp), h⟩))
  case encode => exact .inr (.inr (.inr (.inl ⟨State.performs_of_atOnly ha (by simp [stages]) (by simp), h⟩)))
  case pack => exact .inr (.inr (.inr (.inr (.inl ⟨State.performs_of_atOnly ha (by simp [stages]) (by simp), h⟩))))

end Sys2Proof.Machine
end

