-- ==== Sys2Proof/Laws/PerInstr.lean ====
section
/-!
SUPPORT. Statements for all commands, one lemma per constructor.
-/

namespace Sys2Proof.Laws

/-- The word of a command is well formed and its four bytes, with any bytes after them, decode to the command and those bytes
(30_encoding.md R101, R105). -/
def EncodedBytes.Statement (i : Instr) : Prop :=
  i.wellFormed = true ∧
  ∀ rest : List Byte,
    (match decodeBytes (bytesOfWord (encode i) ++ rest) with
      | .ok r => r = (i, rest)
      | .error _ => False)

theorem EncodedBytes.nop : EncodedBytes.Statement .nop := ⟨rfl, fun _ => rfl⟩
theorem EncodedBytes.clear : EncodedBytes.Statement .clear := ⟨rfl, fun _ => rfl⟩
theorem EncodedBytes.count : EncodedBytes.Statement .count := ⟨rfl, fun _ => rfl⟩
theorem EncodedBytes.build : EncodedBytes.Statement .build := ⟨rfl, fun _ => rfl⟩
theorem EncodedBytes.gencode : EncodedBytes.Statement .gencode := ⟨rfl, fun _ => rfl⟩
theorem EncodedBytes.encode : EncodedBytes.Statement .encode := ⟨rfl, fun _ => rfl⟩
theorem EncodedBytes.pack : EncodedBytes.Statement .pack := ⟨rfl, fun _ => rfl⟩
theorem EncodedBytes.run : EncodedBytes.Statement .run := ⟨rfl, fun _ => rfl⟩

end Sys2Proof.Laws
end

