-- ==== Sys2Proof/Laws/Step.lean ====
section
/-!
SUPPORT. Everything one step can do, said once.
-/

namespace Sys2Proof.Machine

/-- A step that goes on is a host step, a reset, an engine turn that passes because SEQ is idle, the engine step of the command
in SEQ, or the ILLEGAL_COMMAND completion of an illegal word. -/
theorem step_next {s t : State} (h : step s = .next t) :
    (s.nextAgent = .host ∧ t = hostStep s.popSched) ∨
    (s.nextAgent = .reset ∧ t = s.popSched.resetStep) ∨
    (s.nextAgent = .engine ∧ s.seq = .idle ∧ t = s.popSched) ∨
    (s.nextAgent = .engine ∧ ∃ w q i, s.seq = .busy w q ∧ decode w = .ok i ∧ exec i s.popSched = .next t) ∨
    (s.nextAgent = .engine ∧ ∃ w e, s.seq = .busy w [.zero] ∧ decode w = .error e ∧
      t = s.popSched.finishError .illegalCommand .zero) := by
  unfold step at h
  split at h
  · rename_i ha; cases h; exact .inl ⟨ha, rfl⟩
  · rename_i ha; cases h; exact .inr (.inl ⟨ha, rfl⟩)
  · rename_i ha
    cases hs : s.seq with
    | idle =>
      simp only [State.fetch, State.popSched_fields, hs] at h
      cases h
      exact .inr (.inr (.inl ⟨ha, rfl, rfl⟩))
    | busy w q =>
      simp only [State.fetch, State.popSched_fields, hs] at h
      split at h
      · rename_i i hi
        exact .inr (.inr (.inr (.inl ⟨ha, w, q, i, rfl, hi, h⟩)))
      · rename_i e he
        unfold illegalStep at h
        split at h
        · rename_i hz
          cases h
          obtain ⟨w', hw'⟩ := (State.atOnly_iff _ _).1 hz
          simp only [State.popSched_fields, hs, Seq.busy.injEq] at hw'
          exact .inr (.inr (.inr (.inr ⟨ha, w, e, by rw [hw'.2], he, rfl⟩)))
        · cases h

/-- An engine turn with a command in SEQ is the engine step of that command. -/
theorem step_of_decode {s : State} {w : Word} {q : List Stage} {i : Instr} (ha : s.nextAgent = .engine)
    (hs : s.seq = .busy w q) (hd : decode w = .ok i) : step s = exec i s.popSched := by
  simp [step, ha, State.fetch, hs, hd]

/-- A host step is one transaction: it leaves the schedule alone, and all else but its program and the record of the
transaction is what the transaction leaves. -/
theorem hostStep_cases (s : State) :
    hostStep s = s ∨ ∃ t prog, hostStep s = { (transact t s).1 with prog := prog, bus := some (t, (transact t s).2) } := by
  unfold hostStep
  split
  · exact .inl rfl
  · exact .inr ⟨_, _, rfl⟩
  · exact .inr ⟨_, _, rfl⟩

/-! ## Several steps -/

@[simp] theorem stepN_zero (s : State) : stepN 0 s = .next s := rfl

theorem stepN_succ_of_next {s t : State} (n : Nat) (h : step s = .next t) : stepN (n + 1) s = stepN n t := by
  simp [stepN, h]

@[simp] theorem State.turns_zero (s : State) : s.turns 0 = [] := by simp [State.turns]

/-- While SEQ is BUSY the first of the coming turns is the agent of this step, and the others are those after it. -/
theorem State.turns_succ {s : State} (n : Nat) (h : s.busy = true) :
    s.turns (n + 1) = s.nextAgent :: s.popSched.turns n := by
  cases hs : s.sched with
  | nil => simp [State.turns, State.nextAgent, hs, h, List.replicate_succ]
  | cons a rest => simp [State.turns, State.nextAgent, hs]

/-- The coming turns depend on the schedule alone. -/
theorem State.turns_congr {s t : State} (n : Nat) (h : t.sched = s.sched) : t.turns n = s.turns n := by
  simp [State.turns, h]

end Sys2Proof.Machine
end

