-- ==== Sys2Proof/Tests/Slice0.lean ====
section
/-!
SUPPORT. The model's own tests. Expected values are from the spec's tables and vectors (95_test_vectors.md), named at each test;
and for every statement that has hypotheses, a witness that meets them all together.
-/

namespace Sys2Proof.Tests

set_option Elab.async false

open Sys2Proof Sys2Proof.Machine

/-! ## Helpers -/

/-- What `f` reads of the next state, if there is one. -/
def got {α : Type} (o : Host.Outcome State Fault Refusal) (f : State → α) : Option α :=
  match o with
  | .next t => some (f t)
  | .fault _ | .refused _ => none

/-- A small instance (16-byte buffers), "aabbc" in IBUF, LEN = 5, NW = 2. -/
def demo : State :=
  { State.powerUp { ibufBytes := 16, obufBytes := 16, nlanes := 1 }
      [(0, 0x61#8), (1, 0x61#8), (2, 0x62#8), (3, 0x62#8), (4, 0x63#8)] [] with
    len := 5, nw := 2 }

/-- "aaaa" in IBUF, LEN = 4 (V-EX-2). -/
def single : State :=
  { demo with ibuf := [(0, 0x61#8), (1, 0x61#8), (2, 0x61#8), (3, 0x61#8)], len := 4 }

/-- `demo` after COUNT, BUILD, GENCODE, ENCODE and PACK in turn, the fields written out from V-EX-1. -/
def counted : State :=
  { demo with
    valid := { freq := true, tree := false, ctab := false, enc := false, out := false }
    completion := .done
    freq := (((Vector.replicate 256 0).set 0x61 2).set 0x62 2).set 0x63 1
    nsym := 3 }

def built : State :=
  { counted with
    valid := { freq := true, tree := true, ctab := false, enc := false, out := false }
    nodeCnt := (((((Vector.replicate 511 0).set 0x61 2).set 0x62 2).set 0x63 1).set 256 3).set 257 5
    nodeInfo := (((((Vector.replicate 511 .absent).set 0x61 .leaf).set 0x62 .leaf).set 0x63 .leaf).set 256
      (.inner 0x63 0x61)).set 257 (.inner 0x62 256)
    root := 257 }

def coded : State :=
  { built with
    valid := { freq := true, tree := true, ctab := true, enc := false, out := false }
    ctabLen := (((Vector.replicate 256 0).set 0x61 2).set 0x62 1).set 0x63 2
    ctabVal := (((Vector.replicate 256 0).set 0x61 3).set 0x62 0).set 0x63 2
    maxLen := 2 }

def streamed : State :=
  { coded with
    valid := { freq := true, tree := true, ctab := true, enc := true, out := false }
    bbuf := [true, true, true, true, false, false, true, false]
    rawBits := 8
    encBits := 8 }

def packed : State :=
  { streamed with
    valid := { freq := true, tree := true, ctab := true, enc := true, out := true }
    obuf := [(0, 0xF2#8)]
    outLen := 1 }

/-- `single` after BUILD and after GENCODE, from V-EX-2. -/
def singleBuilt : State :=
  { single with
    valid := { freq := true, tree := true, ctab := false, enc := false, out := false }
    freq := (Vector.replicate 256 0).set 0x61 4
    nsym := 1
    nodeCnt := (Vector.replicate 511 0).set 0x61 4
    nodeInfo := (Vector.replicate 511 .absent).set 0x61 .leaf
    root := 0x61 }

def singleCoded : State :=
  { singleBuilt with
    valid := { freq := true, tree := true, ctab := true, enc := false, out := false }
    ctabLen := (Vector.replicate 256 0).set 0x61 1
    maxLen := 1 }

/-- `demo` with LEN = 0 after COUNT. -/
def emptyCounted : State :=
  { demo with len := 0, valid := { freq := true, tree := false, ctab := false, enc := false, out := false } }

/-! ## Decoding: words written out from 30_encoding.md R101 -/

theorem test_decode_nop : decode 0b00000000000000000000000000000000#32 = .ok .nop := rfl
theorem test_decode_clear : decode 0b00000000000000000000000000000001#32 = .ok .clear := rfl
theorem test_decode_count : decode 0b00000000000000000000000000000010#32 = .ok .count := rfl
theorem test_decode_build : decode 0b00000000000000000000000000000011#32 = .ok .build := rfl
theorem test_decode_gencode : decode 0b00000000000000000000000000000100#32 = .ok .gencode := rfl
theorem test_decode_encode : decode 0b00000000000000000000000000000101#32 = .ok .encode := rfl
theorem test_decode_pack : decode 0b00000000000000000000000000000110#32 = .ok .pack := rfl
theorem test_decode_run : decode 0b00000000000000000000000000000111#32 = .ok .run := rfl

/-- V-DEC-2, V-DEC-3: an undefined opcode. -/
theorem test_decode_undefined : decode 0x00000008#32 = .error (.undefinedOpcode 8) ∧
    decode 0x000000FF#32 = .error (.undefinedOpcode 0xFF) := ⟨rfl, rfl⟩

/-- V-DEC-4, V-DEC-5: a reserved field that is not 0. -/
theorem test_decode_reserved : decode 0x00000102#32 = .error (.reservedField 1) ∧
    decode 0x80000007#32 = .error (.reservedField 0x800000) := ⟨rfl, rfl⟩

theorem test_decode_truncated : decodeBytes [7, 0, 0] = .error .truncated := rfl

/-- The bytes of RUN, the low byte first. -/
theorem test_decode_bytes : decodeBytes [7, 0, 0, 0, 9] = .ok (.run, [9]) := rfl

/-- V-DEC-3, V-DEC-4. -/
theorem test_disassemble : disassemble 0x00000102#32 = ".illegal 0x00000102" ∧ disassemble 0x000000FF#32 = ".illegal 0x000000ff" ∧
    disassemble 0x00000007#32 = "RUN" := by decide +kernel

/-! ## Well-formedness: each check refuses an ill-formed term -/

theorem test_wellFormed_standard : Config.standard.wellFormed = true := by decide
theorem test_illFormed_ibuf_zero : Config.wellFormed { Config.standard with ibufBytes := 0 } = false := by decide
theorem test_illFormed_ibuf_large : Config.wellFormed { Config.standard with ibufBytes := 2 ^ 24 + 1 } = false := by decide
theorem test_illFormed_obuf_zero : Config.wellFormed { Config.standard with obufBytes := 0 } = false := by decide
theorem test_illFormed_obuf_large : Config.wellFormed { Config.standard with obufBytes := 2 ^ 29 + 1 } = false := by decide
theorem test_illFormed_lanes_zero : Config.wellFormed { Config.standard with nlanes := 0 } = false := by decide
theorem test_illFormed_lanes_large : Config.wellFormed { Config.standard with nlanes := 257 } = false := by decide
theorem test_illFormed_byte_write : Txn.wellFormed (.write .byte 0x01000000#32 0x100#32) = false := by decide
theorem test_illFormed_half_write : Txn.wellFormed (.write .half 0x01000000#32 0x10000#32) = false := by decide

/-! ## The commands -/

/-- V-CMD-1. -/
theorem test_nop : got (exec .nop (State.reset.accept 0)) (fun t => (t.statusWord, t.irqStat, t.lastCmd)) =
    some (0x00000002#32, 1#2, 0#32) := by decide +kernel

/-- V-CNT-1. -/
theorem test_count : got (exec .count (demo.accept 2)) (fun t => (t.freq[0x61], t.freq[0x62], t.freq[0x63], t.nsym, t.statusWord)) =
    some (2#32, 2#32, 1#32, 3#9, 0x00010002#32) := by decide +kernel

/-- V-CNT-7: the worker count is checked before the length. -/
theorem test_count_errors : got (exec .count ({ demo with nw := 0, len := 17 }.accept 2)) State.statusWord = some 0x00000124#32 ∧
    got (exec .count ({ demo with len := 17 }.accept 2)) State.statusWord = some 0x00000134#32 := by decide +kernel

/-- V-EX-1, V-BLD-1: NODE_INFO[256] = 0xC061_0063, NODE_INFO[257] = 0xC100_0062, ROOT = 257. -/
theorem test_build : got (exec .build (counted.accept 3))
    (fun t => (t.nodeInfo[256].word, t.nodeInfo[257].word, t.nodeCnt[257], t.root.val, t.statusWord)) =
    some (0xC0610063#32, 0xC1000062#32, 5#32, 257, 0x00030002#32) := by decide +kernel

/-- V-BLD-12. -/
theorem test_build_sequence : got (exec .build (State.reset.accept 3)) State.statusWord = some 0x00000244#32 := by decide +kernel

/-- V-GEN-1. -/
theorem test_gencode : got (exec .gencode (built.accept 4)) (fun t => (t.code 0x61, t.code 0x62, t.code 0x63, t.maxLen)) =
    some ([true, true], [false], [true, false], 2#8) := by decide +kernel

/-- V-GEN-2: the code "0" of a single symbol. -/
theorem test_gencode_single : got (exec .gencode (singleBuilt.accept 4))
    (fun t => (t.ctabLen[0x61], t.ctabVal[0x61], t.root.val, t.statusWord)) = some (1#8, 0#255, 0x61, 0x00070002#32) := by
  decide +kernel

/-- V-ENC-1. -/
theorem test_encode : got (exec .encode (coded.accept 5)) (fun t => (t.bbuf, t.rawBits, t.encBits)) =
    some ([true, true, true, true, false, false, true, false], 8#32, 8#32) := by decide +kernel

/-- V-ENC-15: NW rewritten to 0 before ENCODE. -/
theorem test_encode_workers : got (exec .encode ({ coded with nw := 0 }.accept 5)) State.statusWord = some 0x00070424#32 := by
  decide +kernel

/-- V-PACK-1. -/
theorem test_pack : got (exec .pack (streamed.accept 6)) (fun t => (t.obuf.read 0, t.outLen, t.statusWord)) =
    some (0xF2#8, 1#32, 0x001F0002#32) := by decide +kernel

/-- V-PACK-19. -/
theorem test_pack_workers : got (exec .pack ({ streamed with nw := 0xFFFFFFFF#32 }.accept 6)) (fun t => (t.statusWord, t.obuf)) =
    some (0x000F0524#32, []) := by decide +kernel

/-- V-CMD-3. -/
theorem test_clear : got (exec .clear (packed.accept 1)) (fun t => (t.statusWord, t.freq[0x61], t.len, t.nw, t.obuf.read 0, t.lastCmd)) =
    some (0x00000002#32, 0#32, 5#32, 2#32, 0xF2#8, 1#32) := by decide +kernel

/-- V-CMD-6, one stage: after COUNT of a RUN, STATUS is busy in stage 2 with FREQ_VALID. -/
theorem test_run_stage : got (exec .run (demo.accept 7)) State.statusWord = some 0x00010201#32 := by decide +kernel

/-- V-EX-3: BUILD of a RUN with LEN = 0 ends it with EMPTY_INPUT in stage 2. -/
theorem test_run_empty : got (exec .run ({ emptyCounted with completion := .none, seq := .busy 7 [.build, .gencode, .encode, .pack] }))
    State.statusWord = some 0x00010214#32 := by decide +kernel

/-- V-DEC-7. -/
theorem test_illegal : got (step (State.reset.withFetchWord 32 8)) (fun t => (t.statusWord, t.irqStat, t.lastCmd)) =
    some (0x00000064#32, 2#2, 8#32) := by decide +kernel

/-! ## The host port -/

/-- V-BUS-1, V-BUS-5, V-BUS-6, V-BUS-9, V-BUS-12, V-BUS-21. -/
theorem test_bus_responses :
    (transact (.read .word 0x00000000#32) State.reset).2 = { resp := .okay, rdata := 0x48554601#32 } ∧
    (transact (.read .half 0x00000008#32) State.reset).2.resp = .slverr ∧
    (transact (.read .word 0x00000002#32) State.reset).2.resp = .slverr ∧
    (transact (.read .word 0x000037FC#32) State.reset).2.resp = .decerr ∧
    (transact (.read .word 0x00004000#32) State.reset).2.resp = .decerr ∧
    (transact (.read .word 0x40000000#32) State.reset).2.resp = .decerr := by decide +kernel

/-- V-BUS-13, V-BUS-14: the bytes of a written word, and a halfword of it read back. -/
theorem test_bus_little_endian :
    (transact (.write .word 0x01000000#32 0x63626161#32) State.reset).1.ibuf =
      [(0, 0x61#8), (1, 0x61#8), (2, 0x62#8), (3, 0x63#8)] ∧
    (transact (.read .half 0x01000002#32) (transact (.write .word 0x01000000#32 0x63626161#32) State.reset).1).2.rdata =
      0x6362#32 := by decide +kernel

/-- V-BUS-24, V-BUS-27, V-BUS-28: while BUSY. -/
theorem test_bus_busy :
    (transact (.write .word 0x00000004#32 0#32) (demo.accept 2)).2.resp = .slverr ∧
    (transact (.read .word 0x00000015#32) (demo.accept 2)).2.resp = .slverr ∧
    (transact (.read .word 0x00000058#32) (demo.accept 2)).2.resp = .decerr := by decide +kernel

/-- V-IRQ-4, V-IRQ-7: enabling a pending source raises irq, W1C of all ones clears. -/
theorem test_irq :
    (transact (.write .word 0x00000030#32 3#32) { demo with irqStat := 1 }).1.irq = true ∧
    (transact (.write .word 0x00000034#32 0xFFFFFFFF#32) { demo with irqStat := 3 }).1.irqStat = 0#2 := by decide +kernel

/-- P1: `wait` stays while BUSY and goes on once idle. -/
theorem test_wait :
    (hostStep { demo.accept 7 with prog := [wait] }).prog = [wait] ∧ (hostStep { packed with prog := [wait] }).prog = [] ∧
    (hostStep { packed with prog := [wait] }).bus = some (.read .word 8#32, { resp := .okay, rdata := 0x001F0002#32 }) := by
  decide +kernel

/-- V-RST-1: reset keeps IBUF and OBUF and clears the rest. -/
theorem test_reset : got (step { packed with sched := [.reset] }) (fun t => (t.statusWord, t.len, t.ibuf.read 4, t.obuf.read 0)) =
    some (0#32, 0#32, 0x63#8, 0xF2#8) := by decide +kernel

/-- V-CNT-8, V-PACK-17: the chunks of the two partitions. -/
theorem test_chunks : (List.range 3).map (chunkBounds 10 3) = [(0, 3), (3, 6), (6, 10)] ∧
    (List.range 5).map (packChunkBounds 24 5) = [(0, 8), (8, 16), (16, 24), (24, 24), (24, 24)] := by decide +kernel

/-- The expansion of `input "ab"` (30_encoding.md R107). -/
theorem test_input_expansion : input [0x61#8, 0x62#8] =
    [sb 0x01000000#32 0x61#32, sb 0x01000001#32 0x62#32, sw 0x0000000C#32 2#32] := by decide +kernel

/-! ## Witnesses: the hypotheses of each statement, met together -/

theorem illegal_eight : ∀ i : Instr, (8#32 : Word) ≠ encode i := by intro i; cases i <;> decide

theorem witness_StageListOfEveryWord : ∀ i : Instr, (0xFFFFFFFF#32 : Word) ≠ encode i := by intro i; cases i <;> decide

theorem witness_LegalWordsAreExactlyTheEncodedOnes :
    (∀ i : Instr, (8#32 : Word) ≠ encode i) ∧ decode 7#32 = .ok .run := ⟨illegal_eight, rfl⟩

theorem witness_CsrOffsetsNameEachRegisterOnce : Csr.ofOffset 0x000 = some .id ∧ Csr.ofOffset 0x3FF8 = some (.nodeInfo 510) := by
  decide +kernel

/-- Each clause of TransactionChecksInOrder at a boundary address, for demo's 16-byte buffers. -/
theorem witness_TransactionChecksInOrder_none :
    ¬ (0x3FFE#32 : Word).toNat + Size.word.bytes ≤ 0x4000 ∧
    ¬ (0x01000000 ≤ (0x3FFE#32 : Word).toNat ∧ (0x3FFE#32 : Word).toNat + Size.word.bytes ≤ 0x01000000 + demo.cfg.ibufBytes) ∧
    ¬ (0x20000000 ≤ (0x3FFE#32 : Word).toNat ∧ (0x3FFE#32 : Word).toNat + Size.word.bytes ≤ 0x20000000 + demo.cfg.obufBytes) := by
  decide

theorem witness_TransactionChecksInOrder_misaligned :
    (0x01000000 ≤ (0x0100000A#32 : Word).toNat ∧
      (0x0100000A#32 : Word).toNat + Size.word.bytes ≤ 0x01000000 + demo.cfg.ibufBytes) ∧
    (0x0100000A#32 : Word).toNat % Size.word.bytes ≠ 0 := by decide

theorem witness_TransactionChecksInOrder_width :
    (0x3FFF#32 : Word).toNat + Size.byte.bytes ≤ 0x4000 ∧ (0x3FFF#32 : Word).toNat % Size.byte.bytes = 0 ∧
    Size.byte ≠ .word := by decide

theorem witness_TransactionChecksInOrder_unlisted :
    (0x3FFC#32 : Word).toNat + Size.word.bytes ≤ 0x4000 ∧ (0x3FFC#32 : Word).toNat % Size.word.bytes = 0 ∧
    ∀ c : Csr, c.offset ≠ (0x3FFC#32 : Word).toNat := by
  refine ⟨by decide, by decide, ?_⟩
  intro c
  cases c <;> simp only [Csr.offset, BitVec.toNat_ofNat] <;> omega

theorem witness_TransactionChecksInOrder_target :
    (0x3FF8#32 : Word).toNat + Size.word.bytes ≤ 0x4000 ∧ (0x3FF8#32 : Word).toNat % Size.word.bytes = 0 ∧
    (Csr.nodeInfo 510).offset = (0x3FF8#32 : Word).toNat ∧
    (0x20000000 ≤ (0x2000000C#32 : Word).toNat ∧
      (0x2000000C#32 : Word).toNat + Size.word.bytes ≤ 0x20000000 + demo.cfg.obufBytes) ∧
    (0x2000000C#32 : Word).toNat % Size.word.bytes = 0 := by decide

theorem witness_BusyGatingRefusesExactlyTheListed :
    (demo.accept 2).busy = true ∧
    resolve (demo.accept 2).cfg .word 0x014#32 = .ok (.csr .nsym) ∧ resolve (demo.accept 2).cfg .word 0x008#32 = .ok (.csr .status) ∧
    resolve (demo.accept 2).cfg .word 0x054#32 = .ok (.csr .cycPack) ∧ resolve (demo.accept 2).cfg .word 0x034#32 = .ok (.csr .irqStat) ∧
    resolve (demo.accept 2).cfg .word 0x004#32 = .ok (.csr .cmd) ∧ resolve (demo.accept 2).cfg .byte 0x0100000F#32 = .ok (.ibuf 15) ∧
    resolve (demo.accept 2).cfg .byte 0x2000000F#32 = .ok (.obuf 15) := by decide +kernel

theorem witness_RefusedTransactionsChangeNothing : (transact (.read .word 0x058#32) demo).2.resp ≠ .okay ∧
    (transact (.write .word 0x004#32 0#32) (demo.accept 2)).2.resp ≠ .okay := by decide +kernel

theorem witness_ReadsHaveNoSideEffects : demo.busy = false ∧ (demo.accept 2).busy = true ∧
    (0x054#32 : Word) ∈ [0x044#32, 0x048#32, 0x04C#32, 0x050#32, 0x054#32] ∧
    (0x058#32 : Word) ∉ [0x044#32, 0x048#32, 0x04C#32, 0x050#32, 0x054#32] := by decide

theorem witness_HostRegisterWrites : demo.busy = false := rfl

theorem witness_IbufWriteStoresLittleEndian : demo.busy = false ∧ demo.cfg.wellFormed = true ∧ demo.ibuf.wf = true ∧
    12 % Size.word.bytes = 0 ∧ 12 + Size.word.bytes ≤ demo.cfg.ibufBytes := by decide +kernel

theorem witness_ReadOnlyWritesAreIgnored : Csr.status ∉ [.cmd, .len, .nw, .irqEn, .irqStat] ∧ demo.cfg.wellFormed = true ∧
    12 % Size.word.bytes = 0 ∧ 12 + Size.word.bytes ≤ demo.cfg.obufBytes := by decide

theorem witness_CmdWriteAcceptsEveryWord : demo.seq = .idle ∧ (demo.accept 2).busy = true := ⟨rfl, rfl⟩

theorem witness_StatusWordFields : (demo.accept 7).seq = .busy 7#32 [.count, .build, .gencode, .encode, .pack] ∧ demo.seq = .idle ∧
    ({ demo with completion := .error .sequence .pack }).completion = .error .sequence .pack := ⟨rfl, rfl, rfl⟩

theorem witness_RegisterReadValues : packed.busy = false ∧ packed.cfg.wellFormed = true ∧ (demo.accept 2).busy = true ∧
    (demo.accept 2).cfg.wellFormed = true := by decide +kernel

theorem witness_WindowReadValues : packed.busy = false ∧ packed.nodeInfo[0x61] = .leaf ∧ packed.nodeInfo[256] = .inner 0x63 0x61 ∧
    packed.nodeInfo[510] = .absent ∧ packed.cfg.wellFormed = true ∧ 12 % Size.word.bytes = 0 ∧
    12 + Size.word.bytes ≤ packed.cfg.ibufBytes ∧ 12 + Size.word.bytes ≤ packed.cfg.obufBytes := by decide +kernel

/-- R73, R74: a word read of OBUF has OBUF[0] in its low bits. -/
theorem test_bus_obuf_read :
    (transact (.read .word 0x20000000#32) { demo with obuf := [(0, 0xF2#8), (1, 0x5C#8), (15, 0x81#8)] }).2.rdata = 0x00005CF2#32 ∧
    (transact (.read .byte 0x2000000F#32) { demo with obuf := [(0, 0xF2#8), (1, 0x5C#8), (15, 0x81#8)] }).2.rdata = 0x81#32 := by
  decide +kernel

theorem witness_IrqIsTheLevelOfEnabledPendingBits : ({ demo with nw := 3 }).irqStat = demo.irqStat ∧
    ({ demo with nw := 3 }).irqEn = demo.irqEn ∧ demo.irq = false ∧ ({ demo with irqStat := 2, irqEn := 2 }).irq = true ∧
    (2#2).getLsbD 1 = true ∧ ({ demo with sched := [.reset] }).nextAgent = .reset := ⟨rfl, rfl, rfl, rfl, rfl, rfl⟩

theorem witness_WaitStaysUntilBusyFalls : ({ demo with prog := [wait] }).prog = wait :: [] := rfl

theorem witness_StepRunsTheDecodedCommand : (demo.accept 2).nextAgent = .engine ∧ (demo.accept 2).seq = .busy 2 [.count] ∧
    decode 2 = .ok .count := ⟨rfl, rfl, rfl⟩

theorem witness_IllegalWordCompletesWithError : (∀ i : Instr, (8#32 : Word) ≠ encode i) ∧ (demo.accept 8).nextAgent = .engine ∧
    (demo.accept 8).seq = .busy 8 [.zero] := ⟨illegal_eight, rfl, rfl⟩

theorem witness_StageStartClearsFlagsFromItsOwn : (packed.accept 3).performs .build .build = true ∧
    got (exec .build (packed.accept 3)) (fun t => t.valid.flag .build) = some true ∧ (packed.accept 3).completion = .none := by
  decide +kernel

theorem witness_NopOnlyCompletes : (demo.accept 0).seq = .busy 0 [.zero] := rfl

theorem witness_ClearDiscardsEveryStageOutput : (packed.accept 1).seq = .busy 1 [.zero] := rfl

theorem witness_CountMakesTheFrequencyTable :
    ((demo.accept 2).performs .count .count = true ∧ 0 < (demo.accept 2).nw.toInt ∧
      (demo.accept 2).len.toNat ≤ (demo.accept 2).cfg.ibufBytes) ∧
    ((demo.accept 7).performs .run .count = true ∧ 0 < (demo.accept 7).nw.toInt ∧
      (demo.accept 7).len.toNat ≤ (demo.accept 7).cfg.ibufBytes) := by decide +kernel

theorem witness_CountFailsOnWorkerCountThenLength :
    (demo.accept 2).performs .count .count = true ∧ ({ demo with nw := 0x80000000#32 }).nw.getLsbD 31 = true ∧
    ({ demo with len := 17 }.accept 2).performs .count .count = true ∧ ({ demo with len := 17 }.accept 2).nw ≠ 0 ∧
    ({ demo with len := 17 }.accept 2).nw.getLsbD 31 = false ∧
    ({ demo with len := 17 }.accept 2).cfg.ibufBytes < ({ demo with len := 17 }.accept 2).len.toNat := by decide +kernel

theorem witness_FrequenciesSumToLength : (demo.accept 2).performs .count .count = true ∧
    got (exec .count (demo.accept 2)) (fun t => t.valid.freq) = some true := by decide +kernel

/-- The hypotheses of the three statements about a BUILD that succeeds. -/
theorem witness_Build : (counted.accept 3).performs .build .build = true ∧ (counted.accept 3).valid.freq = true ∧
    (counted.accept 3).nsym ≠ 0 ∧ (counted.accept 3).freq[(0x61 : Symbol)] ≠ 0 := by decide +kernel

theorem witness_BuildFailsOnSequenceThenEmptyInput :
    ((demo.accept 3).performs .build .build = true ∧ (demo.accept 3).valid.freq = false) ∧
    ((emptyCounted.accept 3).performs .build .build = true ∧
      (emptyCounted.accept 3).valid.freq = true ∧
      (emptyCounted.accept 3).nsym = 0) := by decide +kernel

/-- The three tables of `packed` and of `singleCoded` are those of their inputs. -/
theorem test_tables_packed : tally packed.input = packed.freq := by decide +kernel
theorem test_present_packed : presentSymbols packed.freq = [0x61, 0x62, 0x63] := by decide +kernel
theorem test_queue_packed : leafQueue packed.freq = [⟨1, 0x63⟩, ⟨2, 0x61⟩, ⟨2, 0x62⟩] := by decide +kernel
theorem test_tree_packed : buildTree packed.freq = some packed.tree := by
  simp only [buildTree, leafArena, test_present_packed, test_queue_packed]
  rfl
theorem test_tables_single : tally singleCoded.input = singleCoded.freq := by decide +kernel
theorem test_present_single : presentSymbols singleCoded.freq = [0x61] := by decide +kernel
theorem test_queue_single : leafQueue singleCoded.freq = [⟨4, 0x61⟩] := by decide +kernel
theorem test_tree_single : buildTree singleCoded.freq = some singleCoded.tree := by
  simp only [buildTree, leafArena, test_present_single, test_queue_single]
  rfl

/-- The hypotheses of the statements about states of the invariant with TREE_VALID and CTAB_VALID: the state after the five
stages. -/
theorem witness_Inv_packed : packed.Inv ∧ packed.valid.tree = true ∧ packed.valid.ctab = true := by
  refine ⟨⟨by decide, by decide, by decide, by decide, by decide, by decide, by decide, by decide, by decide,
    fun _ => ⟨by decide, test_tables_packed.symm, by decide +kernel⟩, fun _ => test_tree_packed,
    fun _ => by decide +kernel, fun _ => by decide +kernel, fun _ => by decide +kernel⟩, rfl, rfl⟩

/-- As above with a single symbol. -/
theorem witness_Inv_single : singleCoded.Inv ∧ singleCoded.valid.ctab = true ∧ singleCoded.nsym.toNat = 1 := by
  refine ⟨⟨by decide, by decide, by decide, by decide, by decide, by decide, by decide, by decide, by decide,
    fun _ => ⟨by decide, test_tables_single.symm, by decide +kernel⟩, fun _ => test_tree_single,
    fun _ => by decide +kernel, nofun, nofun⟩, rfl, rfl⟩

theorem witness_GencodeAssignsPathsAsCodes : (built.accept 4).performs .gencode .gencode = true ∧
    (built.accept 4).valid.tree = true ∧ buildTree (built.accept 4).freq = some (built.accept 4).tree :=
  ⟨rfl, rfl, test_tree_packed⟩

theorem witness_GencodeGivesTheSoleSymbolZero :
    (singleBuilt.accept 4).performs .gencode .gencode = true ∧
    (singleBuilt.accept 4).valid.tree = true ∧
    (singleBuilt.accept 4).root = leafId 0x61 ∧
    (singleBuilt.accept 4).nodeInfo[(leafId 0x61)] = .leaf := by decide +kernel

theorem witness_GencodeFailsOnSequence : (counted.accept 4).performs .gencode .gencode = true ∧
    (counted.accept 4).valid.tree = false := by decide +kernel

theorem witness_EncodeConcatenatesTheCodes : (coded.accept 5).performs .encode .encode = true ∧
    (coded.accept 5).valid.ctab = true ∧ 0 < (coded.accept 5).nw.toInt ∧ (coded.accept 5).cfg.wellFormed = true ∧
    (coded.accept 5).len.toNat ≤ (coded.accept 5).cfg.ibufBytes ∧
    (let s := coded.accept 5
     let raw := ((List.range s.len.toNat).map fun k => s.ctabLen[symbolOfByte (s.ibuf.read k)].toNat).sum
     (raw + (8 - raw % 8) % 8) / 8 ≤ s.cfg.obufBytes) := by decide +kernel

/-- "abracadabra" codes to 23 bits (V-ENC-16); here LEN = 5 of a table whose codes are all 255 bits long, which does not fit 16
bytes. -/
theorem witness_EncodeFailsOnSequenceWorkersOverflow :
    (built.accept 5).performs .encode .encode = true ∧ (built.accept 5).valid.ctab = false ∧
    ({ coded with nw := 0 }.accept 5).valid.ctab = true ∧ ({ coded with nw := 0 }.accept 5).nw = 0 ∧
    (let s := { coded with ctabLen := Vector.replicate 256 255 }.accept 5
     let raw := ((List.range s.len.toNat).map fun k => s.ctabLen[symbolOfByte (s.ibuf.read k)].toNat).sum
     s.performs .encode .encode = true ∧ s.valid.ctab = true ∧ s.nw ≠ 0 ∧ s.nw.getLsbD 31 = false ∧
     s.cfg.wellFormed = true ∧ s.len.toNat ≤ s.cfg.ibufBytes ∧ s.cfg.obufBytes < (raw + (8 - raw % 8) % 8) / 8) := by
  decide +kernel

theorem witness_PackWritesBytesMostSignificantBitFirst : (streamed.accept 6).performs .pack .pack = true ∧
    (streamed.accept 6).valid.enc = true ∧ 0 < (streamed.accept 6).nw.toInt ∧ (streamed.accept 6).obuf.wf = true ∧
    (streamed.accept 6).bbuf.length = (streamed.accept 6).encBits.toNat ∧
    (streamed.accept 6).encBits.toNat / 8 ≤ (streamed.accept 6).cfg.obufBytes := by decide +kernel

theorem witness_PackFailsOnSequenceThenWorkers : (coded.accept 6).performs .pack .pack = true ∧
    (coded.accept 6).valid.enc = false ∧ ({ streamed with nw := 0 }.accept 6).performs .pack .pack = true ∧
    ({ streamed with nw := 0 }.accept 6).valid.enc = true ∧ ({ streamed with nw := 0 }.accept 6).nw = 0 := by decide +kernel

theorem witness_RunStageIsTheStageCommand : (demo.accept 7).seq = .busy 7 (.count :: .build :: [.gencode, .encode, .pack]) ∧
    Stage.count ≠ .zero ∧ stages .count = [.count] := by decide

/-- A RUN accepted, with host steps between the engine's. -/
def interleaved (s : State) : State := { s with sched := [.host, .engine, .host] }.accept (encode .run)

/-- In an OBUF of 16 bytes, where LEN = 5 has a stream of one byte, and in one of 160, which always suffices. -/
theorem witness_RunCompressesLosslessly :
    let s := interleaved demo
    s.cfg.wellFormed = true ∧ s.obuf.wf = true ∧ s.seq = .busy (encode .run) (stages .run) ∧
    0 < s.nw.toInt ∧ 1 ≤ s.len.toNat ∧ s.len.toNat ≤ s.cfg.ibufBytes ∧ .reset ∉ s.turns 7 ∧ 5 ≤ (s.turns 7).count .engine ∧
    streamed.encBits.toNat / 8 ≤ s.cfg.obufBytes ∧ ({ s with sched := [] }).sched = [] ∧
    32 * s.len.toNat ≤ ({ s.cfg with obufBytes := 160 } : Config).obufBytes := by decide +kernel

/-- Sixteen zero bytes with room for one byte of output: the stream of 16 bits does not fit. -/
def crowded : State := { demo with cfg := { demo.cfg with obufBytes := 1 }, ibuf := [], len := 16 }

theorem interleaved_inv : (interleaved demo).Inv := by decide +kernel

theorem witness_RunOutcomesAreTheFive : (interleaved demo).Inv ∧
    (interleaved demo).seq = .busy (encode .run) (stages .run) ∧
    .reset ∉ (interleaved demo).turns 7 ∧ 5 ≤ ((interleaved demo).turns 7).count .engine :=
  ⟨interleaved_inv, rfl, by decide +kernel, by decide +kernel⟩

/-- The operands of each outcome; the last is `demo`'s. -/
theorem witness_RunOutcomesAreTheFive_workers : (interleaved { demo with nw := 0 }).Inv ∧
    ¬ 0 < (interleaved { demo with nw := 0 }).nw.toInt := ⟨by decide +kernel, by decide⟩

theorem witness_RunOutcomesAreTheFive_length : (interleaved { demo with len := 17 }).Inv ∧
    (interleaved { demo with len := 17 }).cfg.ibufBytes < (interleaved { demo with len := 17 }).len.toNat :=
  ⟨by decide +kernel, by decide⟩

theorem witness_RunOutcomesAreTheFive_empty : (interleaved { demo with len := 0 }).Inv ∧ (interleaved { demo with len := 0 }).len = 0 :=
  ⟨by decide +kernel, rfl⟩

theorem witness_RunOutcomesAreTheFive_overflow : (interleaved crowded).Inv ∧ 1 ≤ (interleaved crowded).len.toNat ∧
    (interleaved crowded).len.toNat ≤ (interleaved crowded).cfg.ibufBytes := ⟨by decide +kernel, by decide, by decide⟩

/-- R253: the engine step that ends each of the outcomes EMPTY_INPUT, OVERFLOW and success is shown by `test_run_empty` and these
two, the state before each written out. -/
theorem test_run_overflow : got (exec .run { crowded with
    seq := .busy 7 [.encode, .pack]
    valid := { freq := true, tree := true, ctab := true, enc := false, out := false }
    ctabLen := (Vector.replicate 256 0).set 0 1 }) (fun t => (t.statusWord, t.encBits)) = some (0x00070454#32, 16#32) := by
  decide +kernel

theorem test_run_done : got (exec .run { streamed with seq := .busy 7 [.pack], completion := .none }) State.statusWord =
    some 0x001F0002#32 := by decide +kernel

/-- R253: both failures of COUNT in a RUN. -/
theorem test_run_count_errors : got (exec .run ({ demo with nw := 0 }.accept 7)) State.statusWord = some 0x00000124#32 ∧
    got (exec .run ({ demo with len := 17 }.accept 7)) State.statusWord = some 0x00000134#32 := by decide +kernel

theorem witness_CommandsCompleteWithinFiveEngineSteps :
    (interleaved demo).Inv ∧ (interleaved demo).busy = true ∧ (interleaved demo).nextAgent = .host ∧
    (demo.accept 2).Inv ∧ (demo.accept 2).busy = true ∧ (demo.accept 2).nextAgent = .engine ∧
    .reset ∉ (interleaved demo).turns 7 ∧ 5 ≤ ((interleaved demo).turns 7).count .engine :=
  ⟨interleaved_inv, rfl, rfl, by decide +kernel, rfl, rfl, by decide +kernel, by decide +kernel⟩

theorem witness_ResultsDoNotDependOnWorkersOrTime :
    (demo.accept 2).untimed = ({ demo with nw := 7, draws := 3 }.accept 2).untimed ∧ 0 < (demo.accept 2).nw.toInt ∧
    0 < ({ demo with nw := 7, draws := 3 }.accept 2).nw.toInt := ⟨rfl, by decide, by decide⟩

theorem witness_OnlyPackAndResetWriteObuf :
    got (step (streamed.accept 6)) (fun t => decide (t.obuf ≠ streamed.obuf)) = some true := by decide +kernel

theorem witness_OnlyCountClearAndResetWriteFreq :
    got (step (demo.accept 2)) (fun t => decide (t.freq ≠ demo.freq)) = some true := by decide +kernel

theorem witness_OnlyCompletionSetsIrqStat :
    got (step (demo.accept 2)) (fun t => t.irqStat.getLsbD 0) = some true ∧ demo.irqStat.getLsbD 0 = false := by decide +kernel

theorem witness_InputsAreFixedWhileBusy : (demo.accept 2).busy = true ∧ (demo.accept 2).nextAgent ≠ .reset ∧
    got (step (demo.accept 2)) (fun t => t.nw) = some 2#32 := by decide +kernel

theorem witness_Reset : ({ packed.accept 6 with sched := [.reset] }).nextAgent = .reset ∧
    ({ packed.accept 6 with sched := [.reset] }).obuf.wf = true ∧
    ({ packed.accept 6 with sched := [.reset] }).seq = .busy 6 (.pack :: []) := by decide +kernel

theorem witness_ResetLeavesObufButForPack_idle : ({ packed with sched := [.reset] }).nextAgent = .reset ∧
    ({ packed with sched := [.reset] }).obuf.wf = true ∧
    ∀ w rest, ({ packed with sched := [.reset] }).seq ≠ .busy w (.pack :: rest) := by
  have h : packed.seq = .idle := by decide +kernel
  refine ⟨rfl, by decide +kernel, fun w rest => ?_⟩
  simp [h]

theorem witness_InvariantHoldsAtPowerUp : Config.standard.wellFormed = true ∧ Memory.wf [(65535, 1#8)] = true ∧
    Memory.within [(65535, 1#8)] Config.standard.ibufBytes = true ∧ Memory.wf [(2097151, 1#8)] = true ∧
    Memory.within [(2097151, 1#8)] Config.standard.obufBytes = true := by decide

theorem witness_EveryStepKeepsTheInvariant : (demo.accept 2).Inv ∧
    got (step (demo.accept 2)) (fun t => t.valid.freq) = some true := by decide +kernel

theorem witness_CanonicalMemoriesReadingAlikeAreEqual : Memory.wf (Memory.write [(3, 1#8)] 3 0#8) = true ∧
    Memory.wf ([] : Memory) = true ∧ ∀ a : Nat, Memory.read (Memory.write [(3, 1#8)] 3 0#8) a = Memory.read [] a :=
  ⟨by decide, by decide, fun _ => rfl⟩

/-- A host turn with a transaction, with a poll that stays and one that goes on, with no line left, and an idle engine's turn. -/
theorem witness_HostTurnPerformsTheNextTransaction :
    (let s := { demo with prog := cmd .run :: [wait] }
     s.nextAgent = .host ∧ s.prog = .txn (.write .word 0x004#32 7#32) :: [wait]) ∧
    (let s := { demo.accept 7 with sched := [.host, .engine], prog := [wait] }
     s.sched = .host :: [.engine] ∧ s.nextAgent = .host ∧ s.prog = .poll 0x008#32 1#32 0#32 :: [] ∧
     (transact (.read .word 0x008#32) { s with sched := s.sched.tail }).2.rdata &&& 1#32 ≠ 0#32) ∧
    (transact (.read .word 0x008#32) { demo with sched := demo.sched.tail }).2.rdata &&& 1#32 = 0#32 ∧
    (demo.nextAgent = .host ∧ demo.prog = [] ∧ demo.sched = []) ∧
    (({ demo with sched := [.engine] }).nextAgent = .engine ∧ ({ demo with sched := [.engine] }).seq = .idle) := by
  decide +kernel

/-- A CMD write on a host turn: the command is accepted, V-CMD-6. -/
theorem test_host_turn : got (step { demo with prog := cmd .run :: [wait] })
    (fun t => (t.statusWord, t.lastCmd, t.seq, t.prog, t.sched)) =
    some (0x00000101#32, 7#32, .busy 7#32 [.count, .build, .gencode, .encode, .pack], [wait], []) := by decide +kernel

/-- One worker, more workers than elements, and a completion order that is not the index order. -/
theorem witness_ParallelStages : 1 ≤ 3 ∧ 3 ≤ 3 ∧ [2, 0, 1].Perm (List.range 3) ∧ ([true, false, false, true, false, true, true, true] : List Bool).length % 8 = 0 ∧
    Memory.wf ([] : Memory) = true := by decide

end Sys2Proof.Tests
end

section
/-!
Turns of the host, and turns with nothing to do (O60): what each kind of line of the host's program does, and which agent a
turn belongs to.
-/

namespace Sys2Proof.Machine

/-! ## Whose turn it is -/

theorem State.nextAgent_of_sched_cons {s : State} {a : Agent} {rest : List Agent} (h : s.sched = a :: rest) :
    s.nextAgent = a := by simp [State.nextAgent, h]

theorem State.nextAgent_of_sched_nil {s : State} (h : s.sched = []) :
    s.nextAgent = if s.busy = true then .engine else .host := by simp [State.nextAgent, h]

theorem step_of_host {s : State} (ha : s.nextAgent = .host) : step s = .next (hostStep s.popSched) := by
  simp [step, ha]

/-- An engine turn whose step is not enabled passes (40_command_sequencer.md R122, log 14). -/
theorem step_of_engine_idle {s : State} (ha : s.nextAgent = .engine) (hs : s.seq = .idle) :
    step s = .next s.popSched := by simp [step, ha, State.fetch, hs]

/-! ## What a line of the host's program does -/

/-- No transaction writes the host's program, which is not state of the block (log 3). -/
@[simp] theorem transact_prog (t : Txn) (s : State) : (transact t s).1.prog = s.prog := by
  rcases transact_cases t s with
    h | ⟨_, h⟩ | ⟨_, _, h⟩ | ⟨_, _, h⟩ | ⟨_, _, h⟩ | ⟨_, h⟩ | ⟨_, h⟩ | ⟨_, _, _, _, _, _, h⟩ <;> simp [h]

theorem hostStep_of_nil {s : State} (hp : s.prog = []) : hostStep s = s := by simp [hostStep, hp]

theorem hostStep_of_txn {s : State} {t : Txn} {rest : List HostStmt} (hp : s.prog = .txn t :: rest) :
    hostStep s = { (transact t s).1 with prog := rest, bus := some (t, (transact t s).2) } := by simp [hostStep, hp]

section Poll

variable {s : State} {addr mask value : Word} {rest : List HostStmt}

/-- The poll goes on (30_encoding.md R107). -/
theorem hostStep_of_poll_eq (hp : s.prog = .poll addr mask value :: rest)
    (hv : (transact (.read .word addr) s).2.rdata &&& mask = value) :
    hostStep s = { (transact (.read .word addr) s).1 with
      prog := rest
      bus := some (.read .word addr, (transact (.read .word addr) s).2) } := by
  simp [hostStep, hp, hv]

/-- The poll stays: its read leaves the program as it was, so the same line is the next one again (30_encoding.md R107). -/
theorem hostStep_of_poll_ne (hp : s.prog = .poll addr mask value :: rest)
    (hv : (transact (.read .word addr) s).2.rdata &&& mask ≠ value) :
    hostStep s = { (transact (.read .word addr) s).1 with
      bus := some (.read .word addr, (transact (.read .word addr) s).2) } := by
  simp [hostStep, hp, hv, transact_prog]

end Poll

/-- Settles O60: the agent by the two cases of the schedule, a host turn by the three forms of the next line, and an engine
turn with SEQ idle. -/
theorem hostTurnPerformsTheNextTransaction : Obligations.HostTurnPerformsTheNextTransaction := by
  refine ⟨fun _ _ _ => State.nextAgent_of_sched_cons, fun _ => State.nextAgent_of_sched_nil, fun s => ⟨?txn, ?poll, ?done, ?idle⟩⟩
  case txn =>
    intro t rest ha hp
    rw [step_of_host ha, hostStep_of_txn (s := s.popSched) hp]
    rfl
  case poll =>
    intro addr mask value rest ha hp
    refine ⟨fun hv => ?goesOn, fun hv => ?stays⟩
    case goesOn =>
      rw [step_of_host ha, hostStep_of_poll_eq (s := s.popSched) hp hv]
      rfl
    case stays =>
      rw [step_of_host ha, hostStep_of_poll_ne (s := s.popSched) hp hv]
      rfl
  case done =>
    intro ha hp
    rw [step_of_host ha, hostStep_of_nil (s := s.popSched) hp]
    rfl
  case idle => exact step_of_engine_idle

end Sys2Proof.Machine
end

section
/-!
What each engine step can leave, stage by stage: the inversion lemmas of the five stages, and the fields that the end of a
stage keeps.
-/

namespace Sys2Proof.Machine

/-! ## The end of a stage -/

/-- The fields the end of a stage keeps: all but SEQ, DONE and IRQ_STAT (40_command_sequencer.md R125). -/
@[simp] theorem State.advance_fields (s : State) :
    s.advance.cfg = s.cfg ∧ s.advance.valid = s.valid ∧ s.advance.len = s.len ∧ s.advance.nw = s.nw ∧
    s.advance.nsym = s.nsym ∧ s.advance.root = s.root ∧ s.advance.rawBits = s.rawBits ∧
    s.advance.encBits = s.encBits ∧ s.advance.outLen = s.outLen ∧ s.advance.maxLen = s.maxLen ∧
    s.advance.lastCmd = s.lastCmd ∧ s.advance.irqEn = s.irqEn ∧ s.advance.cyc = s.cyc ∧ s.advance.freq = s.freq ∧
    s.advance.nodeCnt = s.nodeCnt ∧ s.advance.nodeInfo = s.nodeInfo ∧ s.advance.ctabLen = s.ctabLen ∧
    s.advance.ctabVal = s.ctabVal ∧ s.advance.bbuf = s.bbuf ∧ s.advance.ibuf = s.ibuf ∧ s.advance.obuf = s.obuf ∧
    s.advance.prog = s.prog ∧ s.advance.sched = s.sched ∧ s.advance.bus = s.bus ∧ s.advance.draws = s.draws := by
  rcases s.advance_cases with h | ⟨_, _, _, _, _, h⟩ <;> simp [h]

/-! ## The checks -/

theorem countCheck_eq_none {s : State} : countCheck s = .ok none ↔ s.workersLegal = true ∧ s.lengthLegal = true := by
  unfold countCheck
  split_ifs <;> simp_all

theorem buildCheck_eq_none {s : State} : buildCheck s = .ok none ↔ s.valid.freq = true ∧ s.nsym ≠ 0 := by
  unfold buildCheck
  split_ifs <;> simp_all

theorem gencodeCheck_eq_none {s : State} : gencodeCheck s = .ok none ↔ s.valid.tree = true := by
  unfold gencodeCheck
  split_ifs <;> simp_all

theorem encodeCheck_eq_none {s : State} : encodeCheck s = .ok none ↔
    s.valid.ctab = true ∧ s.workersLegal = true ∧ s.lengthLegal = true ∧ s.encLength / 8 ≤ s.cfg.obufBytes := by
  unfold encodeCheck
  split_ifs <;> simp_all

theorem packCheck_eq_none {s : State} : packCheck s = .ok none ↔ s.valid.enc = true ∧ s.workersLegal = true := by
  unfold packCheck
  split_ifs <;> simp_all

/-! ## The bodies -/

theorem buildBody_eq_ok {s u : State} (h : buildBody s = .ok u) :
    ∃ t, buildTree s.freq = some t ∧ u = { s with nodeCnt := t.cnt, nodeInfo := t.info, root := t.root } := by
  unfold buildBody at h
  split at h
  next t ht => cases h; exact ⟨t, ht, rfl⟩
  next => cases h

theorem gencodeBody_eq_ok {s u : State} (h : gencodeBody s = .ok u) :
    ∃ t, genCode s.nodeInfo s.root = .ok t ∧
      u = { s with ctabLen := t.len, ctabVal := t.val, maxLen := BitVec.ofNat 8 (maxCodeLen t.len) } := by
  unfold gencodeBody at h
  split at h
  next t ht => cases h; exact ⟨t, ht, rfl⟩
  next => cases h

theorem packBody_eq_ok {s u : State} (h : packBody s = .ok u) :
    s.packLength ≤ s.cfg.obufBytes ∧
      u = { s with
        obuf := s.obuf.writeBytes 0 (packBytes s.packLength s.bbuf)
        outLen := BitVec.ofNat 32 s.packLength } := by
  unfold packBody at h
  split at h
  next => cases h
  next =>
    split at h
    next => cases h
    next ho => cases h; exact ⟨by omega, rfl⟩

/-! ## The five stages -/

/-- The state a stage works on: the flags from its own on cleared, its counter written (40_command_sequencer.md R125, R127). -/
def State.begun (s : State) (st : Stage) : State := (s.startStage st).recordDuration st

/-- COUNT either fails and writes no result, or makes the table of counts (41_frequency_counter.md R150). -/
theorem countStage_next {s t : State} (h : countStage s = .next t) :
    (∃ e, t = (s.begun .count).finishError e .count) ∨
    (s.workersLegal = true ∧ s.lengthLegal = true ∧
      t = ({ s.begun .count with
        freq := tally s.input
        nsym := BitVec.ofNat 9 (numSymbols (tally s.input))
        valid := { Valid.allClear with freq := true } }).advance) := by
  rcases stageStep_next h with ⟨e, _, rfl⟩ | ⟨u, hc, hb, rfl⟩
  · exact .inl ⟨e, rfl⟩
  · obtain ⟨hw, hl⟩ := countCheck_eq_none.1 hc
    cases hb
    exact .inr ⟨hw, hl, rfl⟩

/-- BUILD either fails and writes no result, or makes the tree of FREQ (42_tree_builder.md R170). -/
theorem buildStage_next {s t : State} (h : buildStage s = .next t) :
    (∃ e, t = (s.begun .build).finishError e .build) ∨
    (s.valid.freq = true ∧ ∃ tr, buildTree s.freq = some tr ∧
      t = ({ s.begun .build with
        nodeCnt := tr.cnt
        nodeInfo := tr.info
        root := tr.root
        valid := { Valid.allClear with freq := s.valid.freq, tree := true } }).advance) := by
  rcases stageStep_next h with ⟨e, _, rfl⟩ | ⟨u, hc, hb, rfl⟩
  · exact .inl ⟨e, rfl⟩
  · obtain ⟨tr, htr, rfl⟩ := buildBody_eq_ok hb
    exact .inr ⟨(buildCheck_eq_none.1 hc).1, tr, htr, rfl⟩

/-- GENCODE either fails and writes no result, or makes the code table of the tree (43_code_table.md R190). -/
theorem gencodeStage_next {s t : State} (h : gencodeStage s = .next t) :
    (∃ e, t = (s.begun .gencode).finishError e .gencode) ∨
    (s.valid.tree = true ∧ ∃ tab, genCode s.nodeInfo s.root = .ok tab ∧
      t = ({ s.begun .gencode with
        ctabLen := tab.len
        ctabVal := tab.val
        maxLen := BitVec.ofNat 8 (maxCodeLen tab.len)
        valid := { Valid.allClear with freq := s.valid.freq, tree := s.valid.tree, ctab := true } }).advance) := by
  rcases stageStep_next h with ⟨e, _, rfl⟩ | ⟨u, hc, hb, rfl⟩
  · exact .inl ⟨e, rfl⟩
  · obtain ⟨tab, htab, rfl⟩ := gencodeBody_eq_ok hb
    exact .inr ⟨gencodeCheck_eq_none.1 hc, tab, htab, rfl⟩

/-- ENCODE fails and writes no result, fails with OVERFLOW and writes the two lengths (44_bit_encoder.md R213), or makes the
stream (R214). -/
theorem encodeStage_next {s t : State} (h : encodeStage s = .next t) :
    (∃ e, t = (s.begun .encode).finishError e .encode) ∨
    t = (s.begun .encode).putLengths.finishError .overflow .encode ∨
    (s.valid.ctab = true ∧ s.workersLegal = true ∧ s.lengthLegal = true ∧ s.encLength / 8 ≤ s.cfg.obufBytes ∧
      t = ({ (s.begun .encode).putLengths with
        bbuf := s.encodedStream
        valid := { s.valid with enc := true, out := false } }).advance) := by
  rcases stageStep_next h with ⟨e, _, rfl⟩ | ⟨u, hc, hb, rfl⟩
  · cases e
    case overflow => exact .inr (.inl rfl)
    all_goals exact .inl ⟨_, rfl⟩
  · obtain ⟨hv, hw, hl, ho⟩ := encodeCheck_eq_none.1 hc
    cases hb
    exact .inr (.inr ⟨hv, hw, hl, ho, rfl⟩)

/-- PACK either fails and writes no result, or writes the packed bytes (45_bit_packer.md R230). -/
theorem packStage_next {s t : State} (h : packStage s = .next t) :
    (∃ e, t = (s.begun .pack).finishError e .pack) ∨
    (s.valid.enc = true ∧ s.workersLegal = true ∧ s.packLength ≤ s.cfg.obufBytes ∧
      t = ({ s.begun .pack with
        obuf := s.obuf.writeBytes 0 (packBytes s.packLength s.bbuf)
        outLen := BitVec.ofNat 32 s.packLength
        valid := { s.valid with out := true } }).advance) := by
  rcases stageStep_next h with ⟨e, _, rfl⟩ | ⟨u, hc, hb, rfl⟩
  · exact .inl ⟨e, rfl⟩
  · obtain ⟨hv, hw⟩ := packCheck_eq_none.1 hc
    obtain ⟨ho, rfl⟩ := packBody_eq_ok hb
    exact .inr ⟨hv, hw, ho, rfl⟩

end Sys2Proof.Machine
end

section
/-!
The invariant (O52). It is three independent parts: the buffers, the sequencer, and the meaning of the valid flags. Each part
is shown to hold after every operation an agent can perform.
-/

namespace Sys2Proof.Machine

/-! ## The parts of the invariant -/

/-- Legal parameters, and memories in canonical form inside their sizes. -/
def State.BuffersOk (s : State) : Prop :=
  s.cfg.wellFormed = true ∧ s.ibuf.wf = true ∧ s.ibuf.within s.cfg.ibufBytes = true ∧
  s.obuf.wf = true ∧ s.obuf.within s.cfg.obufBytes = true

/-- A legal sequencer state. -/
def State.SequencerOk (s : State) : Prop := s.seqOk = true ∧ s.runOk = true

/-- A set flag implies every earlier one and means what 10_state.md R25 says; ENC_BITS is a multiple of 8 (R31). -/
def State.ResultsOk (s : State) : Prop :=
  s.encBits.toNat % 8 = 0 ∧ s.valid.chain = true ∧
  (s.valid.freq = true → s.FreqMeans) ∧ (s.valid.tree = true → s.TreeMeans) ∧
  (s.valid.ctab = true → s.CtabMeans) ∧ (s.valid.enc = true → s.EncMeans) ∧ (s.valid.out = true → s.OutMeans)

theorem State.inv_iff (s : State) : s.Inv ↔ s.BuffersOk ∧ s.SequencerOk ∧ s.ResultsOk := by
  unfold State.BuffersOk State.SequencerOk State.ResultsOk
  tauto

/-! ## The results -/

theorem Valid.chain_iff (v : Valid) : v.chain = true ↔
    (v.tree = true → v.freq = true) ∧ (v.ctab = true → v.tree = true) ∧ (v.enc = true → v.ctab = true) ∧
    (v.out = true → v.enc = true) := by
  simp only [Valid.chain, Bool.and_eq_true, Bool.or_eq_true, Bool.not_eq_true', ← Bool.not_eq_true, ← imp_iff_not_or,
    and_assoc]

/-- With no flag set no result has to mean anything. -/
theorem State.resultsOk_of_allClear {s : State} (hv : s.valid = Valid.allClear) (he : s.encBits.toNat % 8 = 0) :
    s.ResultsOk := by
  simp [State.ResultsOk, hv, he, Valid.allClear, Valid.chain]

/-- The flags that stay set at the start of a stage are those of the stages before, whose results stay. -/
theorem State.ResultsOk.begun {s : State} (h : s.ResultsOk) (st : Stage) : (s.begun st).ResultsOk := by
  obtain ⟨he, hc, hf, ht, hg, hn, ho⟩ := h
  obtain ⟨ct, cg, cn, _⟩ := s.valid.chain_iff.1 hc
  cases st
  case zero => exact ⟨he, hc, hf, ht, hg, hn, ho⟩
  case count => exact State.resultsOk_of_allClear rfl he
  case build => exact ⟨he, (Valid.chain_iff _).2 ⟨nofun, nofun, nofun, nofun⟩, hf, nofun, nofun, nofun, nofun⟩
  case gencode => exact ⟨he, (Valid.chain_iff _).2 ⟨ct, nofun, nofun, nofun⟩, hf, ht, nofun, nofun, nofun⟩
  case encode => exact ⟨he, (Valid.chain_iff _).2 ⟨ct, cg, nofun, nofun⟩, hf, ht, hg, nofun, nofun⟩
  case pack => exact ⟨he, (Valid.chain_iff _).2 ⟨ct, cg, cn, nofun⟩, hf, ht, hg, hn, nofun⟩

theorem State.ResultsOk.finishError {s : State} (h : s.ResultsOk) (e : ErrCode) (st : Stage) :
    (s.finishError e st).ResultsOk := h

theorem State.ResultsOk.finishOk {s : State} (h : s.ResultsOk) : s.finishOk.ResultsOk := h

theorem State.ResultsOk.advance {s : State} (h : s.ResultsOk) : s.advance.ResultsOk := by
  rcases s.advance_cases with ha | ⟨_, _, _, _, _, ha⟩ <;> rw [ha] <;> exact h

/-- ENC_BITS is a multiple of 8 even where its register cuts it off (10_state.md R31, log 13). -/
theorem State.encLength_word_mod (s : State) : (BitVec.ofNat 32 s.encLength).toNat % 8 = 0 := by
  simp only [State.encLength, ceil8, BitVec.toNat_ofNat]
  omega

theorem State.ResultsOk.count {s t : State} (h : s.ResultsOk) (ht : countStage s = .next t) : t.ResultsOk := by
  rcases countStage_next ht with ⟨e, rfl⟩ | ⟨_, hl, rfl⟩
  · exact (h.begun .count).finishError e .count
  · exact State.ResultsOk.advance ⟨h.1, rfl, fun _ => ⟨hl, rfl, rfl⟩, nofun, nofun, nofun, nofun⟩

theorem State.ResultsOk.build {s t : State} (h : s.ResultsOk) (ht : buildStage s = .next t) : t.ResultsOk := by
  rcases buildStage_next ht with ⟨e, rfl⟩ | ⟨hv, tr, htr, rfl⟩
  · exact (h.begun .build).finishError e .build
  · obtain ⟨he, _, hf, _⟩ := h
    have hchain := (Valid.chain_iff { Valid.allClear with freq := s.valid.freq, tree := true }).2
      ⟨fun _ => hv, nofun, nofun, nofun⟩
    exact State.ResultsOk.advance ⟨he, hchain, hf, fun _ => htr, nofun, nofun, nofun⟩

theorem State.ResultsOk.gencode {s t : State} (h : s.ResultsOk) (ht : gencodeStage s = .next t) : t.ResultsOk := by
  rcases gencodeStage_next ht with ⟨e, rfl⟩ | ⟨hv, tab, htab, rfl⟩
  · exact (h.begun .gencode).finishError e .gencode
  · obtain ⟨he, hc, hf, htr, _⟩ := h
    have hchain := (Valid.chain_iff
        { Valid.allClear with freq := s.valid.freq, tree := s.valid.tree, ctab := true }).2
      ⟨(s.valid.chain_iff.1 hc).1, fun _ => hv, nofun, nofun⟩
    refine State.ResultsOk.advance ⟨he, hchain, hf, htr, fun _ => ⟨?_, rfl⟩, nofun, nofun⟩
    simp [State.begun, htab, State.codeTable]

theorem State.ResultsOk.encode {s t : State} (h : s.ResultsOk) (ht : encodeStage s = .next t) : t.ResultsOk := by
  rcases encodeStage_next ht with ⟨e, rfl⟩ | rfl | ⟨hv, _, _, ho, rfl⟩
  · exact (h.begun .encode).finishError e .encode
  · obtain ⟨_, hc, hf, htr, hg, _⟩ := h.begun .encode
    exact ⟨s.encLength_word_mod, hc, hf, htr, hg, nofun, nofun⟩
  · obtain ⟨_, hc, hf, htr, hg, _⟩ := h
    obtain ⟨ct, cg, _⟩ := s.valid.chain_iff.1 hc
    have hchain := (Valid.chain_iff { s.valid with enc := true, out := false }).2 ⟨ct, cg, fun _ => hv, nofun⟩
    exact State.ResultsOk.advance
      ⟨s.encLength_word_mod, hchain, hf, htr, hg, fun _ => ⟨rfl, rfl, rfl, ho⟩, nofun⟩

@[simp] theorem packBytes_length (n : Nat) (bits : List Bool) : (packBytes n bits).length = n := by
  induction n generalizing bits with
  | zero => rfl
  | succ n ih => simp [packBytes, ih]

/-- The bytes written are those read back. -/
theorem Memory.readBytes_writeBytes (m : Memory) (a : Nat) (vs : List Byte) (h : m.wf = true) :
    (m.writeBytes a vs).readBytes a vs.length = vs := by
  refine List.ext_getElem (by simp) fun i hi hi' => ?_
  simp [Memory.readBytes, Memory.read_writeBytes vs m a _ h, hi']

theorem State.ResultsOk.pack {s t : State} (h : s.ResultsOk) (hb : s.BuffersOk) (ht : packStage s = .next t) :
    t.ResultsOk := by
  rcases packStage_next ht with ⟨e, rfl⟩ | ⟨hv, _, ho, rfl⟩
  · exact (h.begun .pack).finishError e .pack
  · obtain ⟨he, hc, hf, htr, hg, hn, _⟩ := h
    have hlen : (BitVec.ofNat 32 s.packLength).toNat = s.packLength := by
      have := s.encBits.isLt
      simp only [State.packLength, BitVec.toNat_ofNat]
      omega
    obtain ⟨ct, cg, cn, _⟩ := s.valid.chain_iff.1 hc
    have hchain := (Valid.chain_iff { s.valid with out := true }).2 ⟨ct, cg, cn, fun _ => hv⟩
    refine State.ResultsOk.advance ⟨he, hchain, hf, htr, hg, hn, fun _ => ⟨hlen, ?_⟩⟩
    obtain ⟨_, _, _, ho', _⟩ := hb
    have hr := Memory.readBytes_writeBytes s.obuf 0 (packBytes s.packLength s.bbuf) ho'
    rw [packBytes_length] at hr
    simp only [hlen]
    exact hr

/-! ## The sequencer -/

theorem State.sequencerOk_of_idle {s : State} (h : s.seq = .idle) : s.SequencerOk := by
  simp [State.SequencerOk, State.seqOk, State.runOk, h]

/-- The stages of a word are those of RUN or a single one (40_command_sequencer.md R121). -/
theorem stagesOfWord_cases (w : Word) : stagesOfWord w = stages .run ∨ ∃ st, stagesOfWord w = [st] := by
  unfold stagesOfWord
  split
  next i _ => cases i <;> simp [stages]
  next => exact .inr ⟨_, rfl⟩

/-- Where a command has two stages left it is RUN, and the second needs the output of the first. -/
theorem run_of_two_stages_left {w : Word} {st st' : Stage} {rest : List Stage}
    (h : st :: st' :: rest <:+ stagesOfWord w) : stagesOfWord w = stages .run ∧ st'.predecessor = st := by
  rcases stagesOfWord_cases w with hw | ⟨st₀, hw⟩
  · refine ⟨hw, ?_⟩
    rw [hw] at h
    simp only [stages, List.suffix_cons_iff, List.cons.injEq, List.suffix_nil] at h
    rcases h with h | h | h | h | h | h <;> simp_all [Stage.predecessor]
  · rw [hw] at h
    simpa using h.length_le

/-- The first stage of a word's list needs nothing of a RUN before it. -/
theorem State.accept_sequencerOk (s : State) (w : Word) : (s.accept w).SequencerOk := by
  rcases stagesOfWord_cases w with hw | ⟨st, hw⟩ <;>
    simp [State.SequencerOk, State.seqOk, State.runOk, hw, stages]

/-- At the end of a stage that has set its flag with a legal NW the sequencer state is legal again. -/
theorem State.advance_sequencerOk {s : State} (h : s.seqOk = true)
    (hf : ∀ w st rest, s.seq = .busy w (st :: rest) → s.valid.flag st = true)
    (hw : ∀ w st rest, s.seq = .busy w (st :: rest) → stagesOfWord w = stages .run → s.workersLegal = true) :
    s.advance.SequencerOk := by
  rcases s.advance_cases with ha | ⟨w, st, st', rest, hs, ha⟩
  · rw [ha]
    exact State.sequencerOk_of_idle rfl
  · rw [ha]
    simp only [State.seqOk, hs, Bool.and_eq_true, decide_eq_true_eq, List.isSuffixOf_iff_suffix] at h
    obtain ⟨⟨⟨hl, hc⟩, _⟩, hsuf⟩ := h
    obtain ⟨hrun, hp⟩ := run_of_two_stages_left hsuf
    have hsuf' : st' :: rest <:+ stagesOfWord w := (List.suffix_cons st _).trans hsuf
    have hwl := hw w st _ hs hrun
    refine ⟨?_, ?_⟩
    · simp [State.seqOk, hl, hc, hsuf']
    · have : State.workersLegal { s with seq := .busy w (st' :: rest) } = true := hwl
      simp [State.runOk, hp, hf w st _ hs, this]

/-- NW is legal in every stage of a RUN after the first (46_pipeline_commands.md R253). -/
theorem State.SequencerOk.workersLegal {s : State} (h : s.SequencerOk) {w : Word} {st : Stage} {rest : List Stage}
    (hs : s.seq = .busy w (st :: rest)) (hst : st ≠ .count) (hrun : stagesOfWord w = stages .run) :
    s.workersLegal = true := by
  obtain ⟨_, hr⟩ := h
  simp only [State.runOk, hs, Bool.or_eq_true, decide_eq_true_eq, Bool.and_eq_true] at hr
  rcases hr with (hr | hr) | hr
  · exact absurd hrun hr
  · exact absurd hr hst
  · exact hr.2

/-- The end of a stage whose body wrote results only: `u` has the sequencer state, NW and completion of `s`. -/
theorem State.SequencerOk.stageEnd {s u : State} {st : Stage} (h : s.SequencerOk)
    (hat : ∃ w rest, s.seq = .busy w (st :: rest))
    (hu : u.seq = s.seq ∧ u.lastCmd = s.lastCmd ∧ u.completion = s.completion ∧ u.nw = s.nw)
    (hf : u.valid.flag st = true) (hw : st = .count → s.workersLegal = true) : u.advance.SequencerOk := by
  obtain ⟨w, rest, hs⟩ := hat
  obtain ⟨hseq, hlast, hcomp, hnw⟩ := hu
  have hok : s.seqOk = true := h.1
  have hlegal : u.workersLegal = s.workersLegal := by simp [State.workersLegal, hnw]
  refine State.advance_sequencerOk ?_ ?_ ?_
  · simpa [State.seqOk, hseq, hlast, hcomp] using hok
  · intro w' st' rest' hs'
    obtain ⟨-, rfl, -⟩ : w = w' ∧ st = st' ∧ rest = rest' := by simpa [hseq, hs] using hs'
    exact hf
  · intro w' st' rest' hs' hrun
    obtain ⟨rfl, rfl, -⟩ : w = w' ∧ st = st' ∧ rest = rest' := by simpa [hseq, hs] using hs'
    rw [hlegal]
    by_cases hst : st = .count
    · exact hw hst
    · exact h.workersLegal hs hst hrun

/-! ## The engine -/

theorem State.performs_seq {s : State} {i : Instr} {st : Stage} (h : s.performs i st = true) :
    ∃ w rest, s.seq = .busy w (st :: rest) := by
  obtain ⟨w, rest, hs, -⟩ := (s.performs_iff i st).1 h
  exact ⟨w, rest, hs⟩

/-- The engine step of a command keeps the sequencer state legal. -/
theorem State.SequencerOk.exec {i : Instr} {s t : State} (h : s.SequencerOk) (ht : exec i s = .next t) :
    t.SequencerOk := by
  rcases exec_next ht with ⟨hp, hst⟩ | ⟨hp, hst⟩ | ⟨hp, hst⟩ | ⟨hp, hst⟩ | ⟨hp, hst⟩ | ⟨_, _, rfl⟩ | ⟨_, _, rfl⟩
  · rcases countStage_next hst with ⟨e, rfl⟩ | ⟨hw, _, rfl⟩
    · exact State.sequencerOk_of_idle rfl
    · exact h.stageEnd (State.performs_seq hp) ⟨rfl, rfl, rfl, rfl⟩ rfl fun _ => hw
  · rcases buildStage_next hst with ⟨e, rfl⟩ | ⟨_, tr, _, rfl⟩
    · exact State.sequencerOk_of_idle rfl
    · exact h.stageEnd (State.performs_seq hp) ⟨rfl, rfl, rfl, rfl⟩ rfl nofun
  · rcases gencodeStage_next hst with ⟨e, rfl⟩ | ⟨_, tab, _, rfl⟩
    · exact State.sequencerOk_of_idle rfl
    · exact h.stageEnd (State.performs_seq hp) ⟨rfl, rfl, rfl, rfl⟩ rfl nofun
  · rcases encodeStage_next hst with ⟨e, rfl⟩ | rfl | ⟨_, _, _, _, rfl⟩
    · exact State.sequencerOk_of_idle rfl
    · exact State.sequencerOk_of_idle rfl
    · exact h.stageEnd (State.performs_seq hp) ⟨rfl, rfl, rfl, rfl⟩ rfl nofun
  · rcases packStage_next hst with ⟨e, rfl⟩ | ⟨_, _, _, rfl⟩
    · exact State.sequencerOk_of_idle rfl
    · exact h.stageEnd (State.performs_seq hp) ⟨rfl, rfl, rfl, rfl⟩ rfl nofun
  · exact State.sequencerOk_of_idle rfl
  · exact State.sequencerOk_of_idle rfl

/-- The engine step of a command keeps the meaning of the flags. -/
theorem State.ResultsOk.exec {i : Instr} {s t : State} (h : s.ResultsOk) (hb : s.BuffersOk) (ht : exec i s = .next t) :
    t.ResultsOk := by
  rcases exec_next ht with ⟨_, hst⟩ | ⟨_, hst⟩ | ⟨_, hst⟩ | ⟨_, hst⟩ | ⟨_, hst⟩ | ⟨_, _, rfl⟩ | ⟨_, _, rfl⟩
  · exact h.count hst
  · exact h.build hst
  · exact h.gencode hst
  · exact h.encode hst
  · exact h.pack hb hst
  · exact h.finishOk
  · exact State.resultsOk_of_allClear rfl rfl

/-! ## What each agent writes to the buffers -/

/-- No engine step writes IBUF or the parameters, and OBUF is written by a PACK whose checks pass only, inside its size. -/
theorem exec_buffers {i : Instr} {s t : State} (h : exec i s = .next t) :
    t.cfg = s.cfg ∧ t.ibuf = s.ibuf ∧
    (t.obuf = s.obuf ∨
      (s.performs i .pack = true ∧ s.valid.enc = true ∧ s.workersLegal = true ∧ s.packLength ≤ s.cfg.obufBytes ∧
        t.obuf = s.obuf.writeBytes 0 (packBytes s.packLength s.bbuf))) := by
  rcases exec_next h with ⟨_, hst⟩ | ⟨_, hst⟩ | ⟨_, hst⟩ | ⟨_, hst⟩ | ⟨hp, hst⟩ | ⟨_, _, rfl⟩ | ⟨_, _, rfl⟩
  · rcases countStage_next hst with ⟨e, rfl⟩ | ⟨_, _, rfl⟩ <;> simp [State.begun]
  · rcases buildStage_next hst with ⟨e, rfl⟩ | ⟨_, _, _, rfl⟩ <;> simp [State.begun]
  · rcases gencodeStage_next hst with ⟨e, rfl⟩ | ⟨_, _, _, rfl⟩ <;> simp [State.begun]
  · rcases encodeStage_next hst with ⟨e, rfl⟩ | rfl | ⟨_, _, _, _, rfl⟩ <;> simp [State.begun]
  · rcases packStage_next hst with ⟨e, rfl⟩ | ⟨hv, hw, ho, rfl⟩
    · simp [State.begun]
    · exact ⟨by simp [State.begun], by simp [State.begun], .inr ⟨hp, hv, hw, ho, by simp⟩⟩
  · simp
  · simp

theorem State.BuffersOk.exec {i : Instr} {s t : State} (h : s.BuffersOk) (ht : exec i s = .next t) : t.BuffersOk := by
  obtain ⟨hcfg, hi, hiw, ho, how⟩ := h
  obtain ⟨ec, ei, eo | ⟨_, _, _, hlen, eo⟩⟩ := exec_buffers ht
  · simp [State.BuffersOk, ec, ei, eo, hcfg, hi, hiw, ho, how]
  · rw [State.BuffersOk, ec, ei, eo]
    exact ⟨hcfg, hi, hiw, Memory.writeBytes_wf _ _ _ ho, Memory.writeBytes_within _ _ _ _ how (by simpa using hlen)⟩

theorem State.Inv.exec {i : Instr} {s t : State} (h : s.Inv) (ht : exec i s = .next t) : t.Inv := by
  obtain ⟨hb, hs, hr⟩ := s.inv_iff.1 h
  exact t.inv_iff.2 ⟨hb.exec ht, hs.exec ht, hr.exec hb ht⟩

theorem State.Inv.finishError {s : State} (h : s.Inv) (e : ErrCode) (st : Stage) : (s.finishError e st).Inv := by
  obtain ⟨hb, _, hr⟩ := s.inv_iff.1 h
  exact (State.inv_iff _).2 ⟨hb, State.sequencerOk_of_idle rfl, hr.finishError e st⟩

/-! ## The host and the environment -/

theorem State.Inv.transact {s : State} (h : s.Inv) (x : Txn) : (transact x s).1.Inv := by
  obtain ⟨hb, hs, hr⟩ := s.inv_iff.1 h
  have idle : s.busy = false → s.seq = .idle := by cases hq : s.seq <;> simp [State.busy, hq]
  rw [State.inv_iff]
  rcases transact_cases x s with e | ⟨_, e⟩ | ⟨_, w, e⟩ | ⟨hi, v, e⟩ | ⟨hi, v, e⟩ | ⟨v, e⟩ | ⟨v, e⟩ |
    ⟨hi, n, addr, a, v, hres, e⟩ <;> rw [e]
  · exact ⟨hb, hs, hr⟩
  · exact ⟨hb, hs, hr⟩
  · exact ⟨hb, s.accept_sequencerOk w, hr⟩
  · exact ⟨hb, State.sequencerOk_of_idle (idle hi), State.resultsOk_of_allClear rfl hr.1⟩
  · exact ⟨hb, State.sequencerOk_of_idle (idle hi), hr⟩
  · exact ⟨hb, hs, hr⟩
  · exact ⟨hb, hs, hr⟩
  · refine ⟨?_, State.sequencerOk_of_idle (idle hi), State.resultsOk_of_allClear rfl hr.1⟩
    obtain ⟨hcfg, hwf, hin, ho, how⟩ := hb
    have ha : a + n.bytes ≤ s.cfg.ibufBytes := resolve_ibuf_within hres
    exact ⟨hcfg, Memory.writeBytes_wf _ _ _ hwf, Memory.writeBytes_within _ _ _ _ hin (by simpa using ha), ho, how⟩

theorem State.Inv.hostStep {s : State} (h : s.Inv) : (hostStep s).Inv := by
  rcases hostStep_cases s with e | ⟨x, prog, e⟩ <;> rw [e]
  · exact h
  · exact h.transact x

/-- A reset draws bytes inside OBUF only (70_reset_and_hazards.md R301, log 8). -/
theorem State.Inv.resetStep {s : State} (h : s.Inv) : s.resetStep.Inv := by
  obtain ⟨⟨hcfg, hi, hiw, ho, how⟩, _, _⟩ := s.inv_iff.1 h
  refine (State.inv_iff _).2
    ⟨⟨hcfg, hi, hiw, ?_, ?_⟩, State.sequencerOk_of_idle rfl, State.resultsOk_of_allClear rfl rfl⟩
  · simp only [State.resetStep_fields, State.obufAfterReset]
    split
    · exact Memory.writeBytes_wf _ _ _ ho
    · exact ho
  · simp only [State.resetStep_fields, State.obufAfterReset]
    split
    · exact Memory.writeBytes_within _ _ _ _ how (by simp [State.drawnBytes])
    · exact how

/-- Settles O52: each agent keeps the invariant, the engine by the three parts of it. -/
theorem everyStepKeepsTheInvariant : Obligations.EveryStepKeepsTheInvariant := by
  intro s t h ht
  have hpop : s.popSched.Inv := h
  rcases step_next ht with ⟨_, rfl⟩ | ⟨_, rfl⟩ | ⟨_, _, rfl⟩ | ⟨_, w, q, i, _, _, hx⟩ | ⟨_, w, e, _, _, rfl⟩
  · exact hpop.hostStep
  · exact hpop.resetStep
  · exact hpop
  · exact hpop.exec hx
  · exact hpop.finishError .illegalCommand .zero

end Sys2Proof.Machine
end

section
/-!
Rules of the whole machine: who writes OBUF and FREQ (O45, O46), and what a reset leaves (O49).
-/

namespace Sys2Proof.Machine

/-! ## What a host turn leaves -/

/-- No transaction writes OBUF or FREQ (10_state.md R42, R48). -/
theorem transact_obuf_freq (t : Txn) (s : State) :
    (transact t s).1.obuf = s.obuf ∧ (transact t s).1.freq = s.freq := by
  rcases transact_cases t s with
    h | ⟨_, h⟩ | ⟨_, _, h⟩ | ⟨_, _, h⟩ | ⟨_, _, h⟩ | ⟨_, h⟩ | ⟨_, h⟩ | ⟨_, _, _, _, _, _, h⟩ <;> simp [h]

theorem hostStep_obuf_freq (s : State) : (hostStep s).obuf = s.obuf ∧ (hostStep s).freq = s.freq := by
  rcases hostStep_cases s with h | ⟨t, prog, h⟩ <;> rw [h]
  · exact ⟨rfl, rfl⟩
  · exact transact_obuf_freq t s

/-! ## OBUF -/

theorem State.workersLegal_iff (s : State) : s.workersLegal = true ↔ 0 < s.nw.toInt := by
  simp [State.workersLegal]

theorem State.atPack_iff (s : State) : s.atPack = true ↔ ∃ w rest, s.seq = .busy w (.pack :: rest) := by
  unfold State.atPack
  split
  next heq => simp [heq]
  all_goals simp_all

/-- Settles O45: of the agents only the engine at PACK, its checks passed, and a reset at PACK write OBUF. -/
theorem onlyPackAndResetWriteObuf : Obligations.OnlyPackAndResetWriteObuf := by
  intro s t ht hne
  rcases step_next ht with ⟨_, rfl⟩ | ⟨ha, rfl⟩ | ⟨_, _, rfl⟩ | ⟨ha, w, q, i, _, _, hx⟩ | ⟨_, w, e, _, _, rfl⟩
  · exact absurd (hostStep_obuf_freq s.popSched).1 hne
  · by_cases hp : s.atPack = true
    · exact ⟨s.atPack_iff.1 hp, .inr ha⟩
    · have hkept : s.popSched.resetStep.obuf = s.obuf := if_neg hp
      exact absurd hkept hne
  · exact absurd rfl hne
  · obtain ⟨_, _, ho | ⟨hp, hv, hw, _⟩⟩ := exec_buffers hx
    · exact absurd ho hne
    · exact ⟨State.performs_seq hp, .inl ⟨ha, hv, s.workersLegal_iff.1 hw⟩⟩
  · exact absurd rfl hne

/-! ## FREQ -/

/-- The engine steps that write FREQ are COUNT's and CLEAR's (10_state.md R42). -/
theorem exec_freq {i : Instr} {s t : State} (h : exec i s = .next t) :
    t.freq = s.freq ∨ s.performs i .count = true ∨ (i = .clear ∧ s.atOnly .zero = true) := by
  rcases exec_next h with ⟨hp, _⟩ | ⟨_, hst⟩ | ⟨_, hst⟩ | ⟨_, hst⟩ | ⟨_, hst⟩ | ⟨_, _, rfl⟩ | ⟨hi, hz, _⟩
  · exact .inr (.inl hp)
  · rcases buildStage_next hst with ⟨e, rfl⟩ | ⟨_, _, _, rfl⟩ <;> simp [State.begun]
  · rcases gencodeStage_next hst with ⟨e, rfl⟩ | ⟨_, _, _, rfl⟩ <;> simp [State.begun]
  · rcases encodeStage_next hst with ⟨e, rfl⟩ | rfl | ⟨_, _, _, _, rfl⟩ <;> simp [State.begun]
  · rcases packStage_next hst with ⟨e, rfl⟩ | ⟨_, _, _, rfl⟩ <;> simp [State.begun]
  · exact .inl rfl
  · exact .inr (.inr ⟨hi, hz⟩)

/-- A legal word is the word of the command it decodes to (30_encoding.md R102). -/
theorem eq_encode_of_decode {w : Word} {i : Instr} (h : decode w = .ok i) : w = encode i := by
  unfold decode at h
  split at h
  next => cases h
  next hr =>
    have hop : (opField w).toNat = (encode i).toNat := by
      unfold decodeOp at h
      split at h
      case h_9 => cases h
      all_goals cases h; assumption
    simp only [rsvField, ne_eq, Decidable.not_not] at hr
    have hrsv : (w.extractLsb' 8 24).toNat = 0 := by rw [hr]; rfl
    simp only [opField, BitVec.extractLsb'_toNat, Nat.shiftRight_eq_div_pow] at hop hrsv
    apply BitVec.eq_of_toNat_eq
    have := w.isLt
    omega

/-- Settles O46: of the agents only the engine at COUNT or CLEAR and a reset write FREQ. -/
theorem onlyCountClearAndResetWriteFreq : Obligations.OnlyCountClearAndResetWriteFreq := by
  intro s t ht hne
  rcases step_next ht with ⟨_, rfl⟩ | ⟨ha, _⟩ | ⟨_, _, rfl⟩ | ⟨ha, w, q, i, hs, hd, hx⟩ | ⟨_, w, e, _, _, rfl⟩
  · exact absurd (hostStep_obuf_freq s.popSched).2 hne
  · exact .inr (.inr ha)
  · exact absurd rfl hne
  · rcases exec_freq hx with hf | hp | ⟨rfl, hz⟩
    · exact absurd hf hne
    · exact .inl ⟨ha, State.performs_seq hp⟩
    · obtain ⟨w', hw'⟩ := (State.atOnly_iff _ _).1 hz
      obtain ⟨-, rfl⟩ : w = w' ∧ q = [.zero] := by simpa [hs] using hw'
      exact .inr (.inl ⟨ha, by rw [hs, eq_encode_of_decode hd]⟩)
  · exact absurd rfl hne

/-! ## Reset -/

theorem step_of_reset {s : State} (ha : s.nextAgent = .reset) : step s = .next s.popSched.resetStep := by
  simp [step, ha]

/-- Settles O49: the state a reset answers is that of power-up but for the fields that are not the block's. -/
theorem resetPutsEveryRegisterAtItsValue : Obligations.ResetPutsEveryRegisterAtItsValue := by
  intro s ha
  refine ⟨_, step_of_reset ha, rfl, rfl, rfl, rfl, rfl, rfl, rfl, rfl, rfl, rfl, rfl, rfl, rfl, ?irq, ?cycles, ?symbols,
    ?nodes, rfl, rfl, fun _ => rfl⟩
  case irq => simp [State.irq, State.resetStep, State.powerUp]
  case cycles => intro st; cases st <;> rfl
  case symbols => intro c; simp [State.resetStep, State.powerUp]
  case nodes => intro n; simp [State.resetStep, State.powerUp]

end Sys2Proof.Machine
end

section
/-!
The Frequency Table (41_frequency_counter.md): what an entry counts, the sum of all entries (R158), and the symbols present.
-/

namespace Sys2Proof.Machine

/-! ## One entry of the table -/

@[simp] theorem bump_getElem (f : Vector Word 256) (b : Byte) (c : Symbol) :
    (bump f b)[c] = if c = symbolOfByte b then f[c] + 1 else f[c] := by
  simp only [bump, Fin.getElem_fin, Vector.getElem_set, Fin.ext_iff, eq_comm (a := c.val)]
  split
  next h => simp [h]
  next => rfl

theorem foldl_bump_getElem (bytes : List Byte) (f : Vector Word 256) (c : Symbol) :
    (bytes.foldl bump f)[c] = f[c] + BitVec.ofNat 32 (bytes.countP fun b => decide (symbolOfByte b = c)) := by
  induction bytes generalizing f with
  | nil => simp
  | cons b bytes ih =>
    rw [List.foldl_cons, ih, bump_getElem, List.countP_cons]
    by_cases h : symbolOfByte b = c
    · rw [if_pos h.symm, if_pos (decide_eq_true h), BitVec.ofNat_add]
      ac_rfl
    · simp [h, Ne.symm h]

/-- An entry of the table is the number of times its symbol occurs (41_frequency_counter.md R152). -/
theorem tally_getElem (bytes : List Byte) (c : Symbol) :
    (tally bytes)[c] = BitVec.ofNat 32 (bytes.countP fun b => decide (symbolOfByte b = c)) := by
  rw [tally, foldl_bump_getElem]
  simp

/-- A symbol has an entry above 0 iff it occurs, as long as the count fits its register. -/
theorem tally_getElem_ne_zero {bytes : List Byte} (hlen : bytes.length < 2 ^ 32) (c : Symbol) :
    (tally bytes)[c] ≠ 0 ↔ ∃ b ∈ bytes, symbolOfByte b = c := by
  have hle : (bytes.countP fun b => decide (symbolOfByte b = c)) ≤ bytes.length := List.countP_le_length
  rw [tally_getElem, ne_eq, ← BitVec.toNat_inj, BitVec.toNat_ofNat, Nat.mod_eq_of_lt (by omega)]
  simp [List.countP_eq_zero]

/-! ## The sum of the entries -/

theorem sum_bump (f : Vector Word 256) (b : Byte) : ∑ c : Symbol, (bump f b)[c] = (∑ c : Symbol, f[c]) + 1 := by
  have h : ∀ c : Symbol, (bump f b)[c] = f[c] + if c = symbolOfByte b then 1 else 0 := fun c => by
    rw [bump_getElem]
    split <;> simp
  rw [Finset.sum_congr rfl fun c _ => h c, Finset.sum_add_distrib, Finset.sum_ite_eq', if_pos (Finset.mem_univ _)]

/-- The entries sum to the number of bytes counted (41_frequency_counter.md R158), as 32-bit words. -/
theorem sum_tally (bytes : List Byte) : ∑ c : Symbol, (tally bytes)[c] = BitVec.ofNat 32 bytes.length := by
  have h : ∀ f : Vector Word 256,
      ∑ c : Symbol, (bytes.foldl bump f)[c] = (∑ c : Symbol, f[c]) + BitVec.ofNat 32 bytes.length := by
    induction bytes with
    | nil => simp
    | cons b bytes ih =>
      intro f
      rw [List.foldl_cons, ih, sum_bump, List.length_cons, BitVec.ofNat_add, add_right_comm, add_assoc]
      rfl
  rw [tally, h]
  simp

/-! ## The symbols present -/

@[simp] theorem mem_presentSymbols {f : Vector Word 256} {c : Symbol} : c ∈ presentSymbols f ↔ f[c] ≠ 0 := by
  simp [presentSymbols]

theorem presentSymbols_nodup (f : Vector Word 256) : (presentSymbols f).Nodup :=
  (List.nodup_finRange 256).filter _

theorem presentSymbols_length_le (f : Vector Word 256) : (presentSymbols f).length ≤ 256 := by
  simpa [presentSymbols] using List.length_filter_le (fun c : Symbol => decide (f[c] ≠ 0)) (List.finRange 256)

/-- NSYM is the number of symbols present (41_frequency_counter.md R153). -/
theorem numSymbols_eq_length (f : Vector Word 256) : numSymbols f = (presentSymbols f).length := by
  have h : f.toList = (List.finRange 256).map fun c => f[c] := List.ext_getElem (by simp) (by simp)
  rw [numSymbols, h, List.countP_map, List.countP_eq_length_filter]
  rfl

/-- A sum over all symbols is one over those present when the absent ones add nothing. -/
theorem sum_presentSymbols {M : Type} [AddCommMonoid M] (f : Vector Word 256) (g : Symbol → M)
    (hg : ∀ c, f[c] = 0 → g c = 0) : ((presentSymbols f).map g).sum = ∑ c : Symbol, g c := by
  have habsent : (((List.finRange 256).filter fun c => ¬ f[c] ≠ 0).map g).sum = 0 := by
    refine List.sum_eq_zero fun x hx => ?_
    obtain ⟨c, hc, rfl⟩ := List.mem_map.1 hx
    exact hg c (by simpa using hc)
  rw [Fin.sum_univ_def, ← List.sum_map_filter_add_sum_map_filter_not (fun c : Symbol => f[c] ≠ 0) g (List.finRange 256),
    habsent, add_zero]
  rfl

/-! ## The input -/

@[simp] theorem State.input_length (s : State) : s.input.length = s.len.toNat := by simp [State.input]

theorem State.mem_input {s : State} {b : Byte} : b ∈ s.input ↔ ∃ k, k < s.len.toNat ∧ s.ibuf.read k = b := by
  simp [State.input, Memory.readBytes]

end Sys2Proof.Machine
end

section
/-!
The tree BUILD makes (42_tree_builder.md) as a term: `CodeTree` is the shape, `CodeTree.Held` ties it to the arena, and
`Forest` is what every merge keeps. From these O30.
-/

namespace Sys2Proof.Machine

/-! ## Trees -/

/-- A coding tree: a leaf is its symbol, an internal node its id with the left and the right subtree. -/
inductive CodeTree where
  | leaf (c : Symbol)
  | inner (n : NodeId) (left right : CodeTree)

namespace CodeTree

/-- The node id of the root. -/
def root : CodeTree → NodeId
  | leaf c => leafId c
  | inner n _ _ => n

/-- The symbols of the leaves, from left to right. -/
def leaves : CodeTree → List Symbol
  | leaf c => [c]
  | inner _ l r => l.leaves ++ r.leaves

/-- The ids of all nodes. -/
def ids : CodeTree → List NodeId
  | leaf c => [leafId c]
  | inner n l r => n :: (l.ids ++ r.ids)

/-- The sum of the frequencies of the leaves, as the 32-bit word BUILD computes. -/
def weight (f : Vector Word 256) : CodeTree → Word
  | leaf c => f[c]
  | inner _ l r => l.weight f + r.weight f

/-- The element of PQ for the tree. -/
def entry (f : Vector Word 256) (T : CodeTree) : Entry := { cnt := T.weight f, id := T.root }

/-- The arena holds the tree: each node with its kind, its children and its count (10_state.md R43, R44). -/
def Held (f : Vector Word 256) (cnt : Vector Word 511) (info : Vector NodeInfo 511) : CodeTree → Prop
  | leaf c => info[leafId c] = .leaf ∧ cnt[leafId c] = f[c]
  | inner n l r => info[n] = .inner l.root r.root ∧ cnt[n] = l.weight f + r.weight f ∧ l.Held f cnt info ∧ r.Held f cnt info

@[simp] theorem root_leaf (c : Symbol) : (leaf c).root = leafId c := rfl

@[simp] theorem root_inner (n : NodeId) (l r : CodeTree) : (inner n l r).root = n := rfl

theorem leaves_ne_nil (T : CodeTree) : T.leaves ≠ [] := by
  induction T with
  | leaf c => simp [leaves]
  | inner n l r ihl ihr => simp [leaves, ihl]

theorem root_mem_ids (T : CodeTree) : T.root ∈ T.ids := by cases T <;> simp [ids]

/-- A tree of one leaf is that leaf. -/
theorem eq_leaf_of_length {T : CodeTree} (h : T.leaves.length = 1) : ∃ c, T = leaf c := by
  cases T with
  | leaf c => exact ⟨c, rfl⟩
  | inner n l r =>
    have hl := List.length_pos_of_ne_nil l.leaves_ne_nil
    have hr := List.length_pos_of_ne_nil r.leaves_ne_nil
    simp only [leaves, List.length_append] at h
    omega

theorem weight_eq_sum (f : Vector Word 256) (T : CodeTree) : T.weight f = (T.leaves.map fun c => f[c]).sum := by
  induction T with
  | leaf c => simp [weight, leaves]
  | inner n l r ihl ihr => simp [weight, leaves, ihl, ihr]

variable {f : Vector Word 256} {cnt : Vector Word 511} {info : Vector NodeInfo 511}

theorem Held.root_cnt {T : CodeTree} (h : T.Held f cnt info) : cnt[T.root] = T.weight f := by
  cases T with
  | leaf c => exact h.2
  | inner n l r => exact h.2.1

/-- Writing a node that is none of the tree's leaves the tree as it is. -/
theorem Held.set {T : CodeTree} (h : T.Held f cnt info) {n : NodeId} (hn : n ∉ T.ids) (c : Word) (i : NodeInfo) :
    T.Held f (cnt.set n.val c) (info.set n.val i) := by
  induction T with
  | leaf d =>
    have hne : n.val ≠ (leafId d).val := fun e => hn (by simp [ids, Fin.ext e])
    simpa [Held, Vector.getElem_set, hne] using h
  | inner m l r ihl ihr =>
    obtain ⟨hm, hl, hr⟩ : n ≠ m ∧ n ∉ l.ids ∧ n ∉ r.ids := by simpa [ids] using hn
    obtain ⟨hi, hc, hhl, hhr⟩ := h
    have hne : n.val ≠ m.val := fun e => hm (Fin.ext e)
    exact ⟨by simpa [Vector.getElem_set, hne] using hi, by simpa [Vector.getElem_set, hne] using hc,
      ihl hhl hl, ihr hhr hr⟩

end CodeTree

open CodeTree (leaf inner)

/-! ## PQ -/

/-- Inserting the element of a tree in PQ is adding the tree to those PQ holds. -/
theorem insertEntry_entry (f : Vector Word 256) (T : CodeTree) (ts : List CodeTree) :
    ∃ ts' : List CodeTree,
      insertEntry (T.entry f) (ts.map (CodeTree.entry f)) = ts'.map (CodeTree.entry f) ∧ ts'.Perm (T :: ts) := by
  induction ts with
  | nil => exact ⟨[T], rfl, .refl _⟩
  | cons U us ih =>
    simp only [List.map_cons, insertEntry]
    split
    · exact ⟨T :: U :: us, rfl, .refl _⟩
    · obtain ⟨us', he, hp⟩ := ih
      exact ⟨U :: us', by simp [he], (hp.cons U).trans (.swap T U us)⟩

/-- PQ before the first merge holds the leaf of each symbol present. -/
theorem leafQueue_entry (f : Vector Word 256) :
    ∃ ts : List CodeTree, leafQueue f = ts.map (CodeTree.entry f) ∧ ts.Perm ((presentSymbols f).map leaf) := by
  have h : ∀ (cs : List Symbol) (ts : List CodeTree), ∃ ts' : List CodeTree,
      cs.foldl (fun q c => insertEntry { cnt := f[c], id := leafId c } q) (ts.map (CodeTree.entry f)) =
        ts'.map (CodeTree.entry f) ∧ ts'.Perm (cs.map leaf ++ ts) := by
    intro cs
    induction cs with
    | nil => exact fun ts => ⟨ts, rfl, .refl _⟩
    | cons c cs ih =>
      intro ts
      obtain ⟨ts₁, he₁, hp₁⟩ := insertEntry_entry f (leaf c) ts
      obtain ⟨ts₂, he₂, hp₂⟩ := ih ts₁
      refine ⟨ts₂, ?_, hp₂.trans ((hp₁.append_left _).trans List.perm_middle)⟩
      rw [← he₂, ← he₁]
      rfl
  obtain ⟨ts, he, hp⟩ := h (presentSymbols f) []
  exact ⟨ts, he, by simpa using hp⟩

/-! ## The arena before the first merge -/

/-- The arena holds the leaf of each symbol present. -/
theorem leafArena_held {f : Vector Word 256} {c : Symbol} (hc : c ∈ presentSymbols f) :
    (leaf c).Held f (leafArena f).cnt (leafArena f).info := by
  have h : ∀ (cs : List Symbol) (t : Tree), (c ∈ cs ∨ (leaf c).Held f t.cnt t.info) →
      (leaf c).Held f (cs.foldl (fun t d => t.put (leafId d) f[d] .leaf) t).cnt
        (cs.foldl (fun t d => t.put (leafId d) f[d] .leaf) t).info := by
    intro cs
    induction cs with
    | nil => intro t ht; simpa using ht
    | cons d cs ih =>
      intro t ht
      refine ih _ ?_
      by_cases hdc : c = d
      · subst hdc
        exact .inr (by simp [CodeTree.Held, Tree.put])
      · rcases ht with ht | ht
        · exact .inl (by simpa [hdc] using ht)
        · refine .inr (ht.set ?_ _ _)
          simpa [CodeTree.ids, leafId, Fin.ext_iff, eq_comm] using hdc
  exact h _ _ (.inl hc)

/-! ## The merges -/

/-- Before the `k`-th merge the trees `ts` are in PQ: the arena holds them, their ids are those made so far, their leaves are
the symbols present, and the node made last is the root of one (42_tree_builder.md R170, R173). -/
structure Forest (f : Vector Word 256) (k : Nat) (ts : List CodeTree) (t : Tree) : Prop where
  held : ∀ T ∈ ts, T.Held f t.cnt t.info
  below : ∀ T ∈ ts, ∀ n ∈ T.ids, n.val < 256 + k
  leaves : (ts.flatMap CodeTree.leaves).Perm (presentSymbols f)
  size : ts.length + k = (presentSymbols f).length
  newest : 0 < k → ∃ T ∈ ts, T.root.val + 1 = 256 + k

theorem Forest.perm {f : Vector Word 256} {k : Nat} {ts ts' : List CodeTree} {t : Tree} (h : Forest f k ts t)
    (hp : ts'.Perm ts) : Forest f k ts' t where
  held T hT := h.held T (hp.mem_iff.1 hT)
  below T hT := h.below T (hp.mem_iff.1 hT)
  leaves := (hp.flatMap_right _).trans h.leaves
  size := by rw [hp.length_eq, h.size]
  newest hk := by
    obtain ⟨T, hT, hr⟩ := h.newest hk
    exact ⟨T, hp.mem_iff.2 hT, hr⟩

/-- The ids of the merges are 256 on, for the at most 255 merges there are (42_tree_builder.md R173, R175). -/
theorem innerId_val {k : Nat} (h : k < 255) : (innerId k).val = 256 + k := by
  simp only [innerId, Fin.val_ofNat]
  omega

/-- A merge makes one tree of two (42_tree_builder.md R174). -/
theorem Forest.merge {f : Vector Word 256} {k : Nat} {A B : CodeTree} {ts : List CodeTree} {t : Tree}
    (h : Forest f k (A :: B :: ts) t) :
    Forest f (k + 1) (inner (innerId k) A B :: ts)
      (t.put (innerId k) (A.weight f + B.weight f) (.inner A.root B.root)) := by
  have hsize := h.size
  have hle := presentSymbols_length_le f
  simp only [List.length_cons] at hsize
  have hid : (innerId k).val = 256 + k := innerId_val (by omega)
  have hfresh : ∀ T ∈ A :: B :: ts, innerId k ∉ T.ids := fun T hT hmem => by
    have := h.below T hT _ hmem
    omega
  have hkept : ∀ T ∈ A :: B :: ts, T.Held f
      (t.put (innerId k) (A.weight f + B.weight f) (.inner A.root B.root)).cnt
      (t.put (innerId k) (A.weight f + B.weight f) (.inner A.root B.root)).info :=
    fun T hT => (h.held T hT).set (hfresh T hT) _ _
  have hbelow : ∀ T ∈ A :: B :: ts, ∀ n ∈ T.ids, n.val < 256 + (k + 1) := fun T hT n hn => by
    have := h.below T hT n hn
    omega
  refine ⟨?_, ?_, ?_, ?_, fun _ => ⟨_, List.mem_cons_self, by simp only [CodeTree.root_inner]; omega⟩⟩
  · intro T hT
    rcases List.mem_cons.1 hT with rfl | hT
    · exact ⟨by simp [Tree.put], by simp [Tree.put], hkept A (by simp), hkept B (by simp)⟩
    · exact hkept T (by simp [hT])
  · intro T hT n hn
    rcases List.mem_cons.1 hT with rfl | hT
    · simp only [CodeTree.ids, List.mem_cons, List.mem_append] at hn
      rcases hn with rfl | hn | hn
      · omega
      · exact hbelow A (by simp) n hn
      · exact hbelow B (by simp) n hn
    · exact hbelow T (by simp [hT]) n hn
  · simpa [CodeTree.leaves] using h.leaves
  · simp only [List.length_cons]
    omega

/-- The merge loop ends with one tree in PQ, the root of which is ROOT (42_tree_builder.md R170, R175). -/
theorem mergeLoop_forest {f : Vector Word 256} (fuel : Nat) : ∀ (k : Nat) (ts : List CodeTree) (t : Tree),
    Forest f k ts t → ts ≠ [] → ts.length ≤ fuel + 1 →
    ∃ (T : CodeTree) (k' : Nat) (t' : Tree), Forest f k' [T] t' ∧
      mergeLoop fuel k (ts.map (CodeTree.entry f)) t = some { t' with root := T.root } := by
  induction fuel with
  | zero =>
    intro k ts t h hne hlen
    obtain ⟨T, rfl⟩ := List.length_eq_one_iff.1 (Nat.le_antisymm hlen (List.length_pos_of_ne_nil hne))
    exact ⟨T, k, t, h, rfl⟩
  | succ fuel ih =>
    intro k ts t h hne hlen
    match ts, hne with
    | [T], _ => exact ⟨T, k, t, h, rfl⟩
    | A :: B :: ts, _ =>
      obtain ⟨ts', he, hp⟩ := insertEntry_entry f (inner (innerId k) A B) ts
      obtain ⟨T, k', t', hT, hrun⟩ := ih (k + 1) ts' _ (h.merge.perm hp)
        (fun e => by simp [e] at hp) (by simp only [hp.length_eq, List.length_cons] at hlen ⊢; omega)
      refine ⟨T, k', t', hT, ?_⟩
      rw [← hrun, ← he]
      rfl

/-! ## The tree BUILD makes -/

/-- `T` is the tree in the arena `t`: `t` holds it from ROOT, its leaves are the symbols present, and a root that is made by a
merge is the last one made (42_tree_builder.md R176). -/
structure CodeTree.BuiltIn (f : Vector Word 256) (t : Tree) (T : CodeTree) : Prop where
  held : T.Held f t.cnt t.info
  root : t.root = T.root
  leaves : T.leaves.Perm (presentSymbols f)
  last : 2 ≤ (presentSymbols f).length → T.root.val = 256 + (presentSymbols f).length - 2

/-- BUILD makes a tree of every table that has a symbol (42_tree_builder.md R170). -/
theorem exists_buildTree {f : Vector Word 256} (h : presentSymbols f ≠ []) :
    ∃ (t : Tree) (T : CodeTree), buildTree f = some t ∧ T.BuiltIn f t := by
  obtain ⟨ts, he, hp⟩ := leafQueue_entry f
  have hlen : ts.length = (presentSymbols f).length := by simpa using hp.length_eq
  have hforest : Forest f 0 ts (leafArena f) := by
    refine Forest.perm ⟨?_, ?_, ?_, by simp, nofun⟩ hp
    · intro T hT
      obtain ⟨c, hc, rfl⟩ := List.mem_map.1 hT
      exact leafArena_held hc
    · intro T hT n hn
      obtain ⟨c, _, rfl⟩ := List.mem_map.1 hT
      obtain rfl : n = leafId c := by simpa [CodeTree.ids] using hn
      exact c.isLt
    · simp [List.flatMap_map, CodeTree.leaves]
  have hne : ts ≠ [] := fun e => h (List.length_eq_zero_iff.1 (by simp [← hlen, e]))
  obtain ⟨T, k, t, hT, hrun⟩ := mergeLoop_forest ts.length 0 ts (leafArena f) hforest hne (by omega)
  have hsize := hT.size
  simp only [List.length_singleton] at hsize
  refine ⟨{ t with root := T.root }, T, by rw [buildTree, he, List.length_map, hrun], hT.held T (by simp), rfl,
    by simpa using hT.leaves, ?_⟩
  intro h2
  obtain ⟨T', hT', hr⟩ := hT.newest (by omega)
  obtain rfl : T' = T := by simpa using hT'
  omega

theorem buildTree_eq_some {f : Vector Word 256} {t : Tree} (h : buildTree f = some t) : ∃ T : CodeTree, T.BuiltIn f t := by
  by_cases hne : presentSymbols f = []
  · simp [buildTree, leafQueue, hne, mergeLoop] at h
  · obtain ⟨t', T, ht', hT⟩ := exists_buildTree hne
    obtain rfl : t' = t := by simpa [h] using ht'.symm
    exact ⟨T, hT⟩

theorem CodeTree.BuiltIn.leaves_length_le {f : Vector Word 256} {t : Tree} {T : CodeTree} (h : T.BuiltIn f t) :
    T.leaves.length ≤ 256 := by
  rw [h.leaves.length_eq]
  exact presentSymbols_length_le f

/-- The count of the root is the sum of the table. -/
theorem CodeTree.BuiltIn.root_cnt {f : Vector Word 256} {t : Tree} {T : CodeTree} (h : T.BuiltIn f t) :
    t.cnt[t.root] = ∑ c : Symbol, f[c] := by
  have hroot : t.cnt[t.root] = t.cnt[T.root] := by simp only [h.root]
  rw [hroot, h.held.root_cnt, T.weight_eq_sum, (h.leaves.map _).sum_eq, sum_presentSymbols f _ fun _ hc => hc]

/-! ## The states of the invariant -/

/-- With TREE_VALID = 1 the frequency table is that of the input and the arena holds its tree (10_state.md R25). -/
theorem State.Inv.builtIn {s : State} (h : s.Inv) (hv : s.valid.tree = true) :
    s.FreqMeans ∧ ∃ T : CodeTree, T.BuiltIn s.freq s.tree := by
  obtain ⟨_, _, ⟨_, hc, hf, ht, _⟩⟩ := s.inv_iff.1 h
  exact ⟨hf ((s.valid.chain_iff.1 hc).1 hv), buildTree_eq_some (ht hv)⟩

theorem State.FreqMeans.nsym_toNat {s : State} (h : s.FreqMeans) : s.nsym.toNat = (presentSymbols s.freq).length := by
  obtain ⟨_, _, hn⟩ := h
  have := presentSymbols_length_le s.freq
  rw [hn, numSymbols_eq_length, BitVec.toNat_ofNat, Nat.mod_eq_of_lt (by omega)]

/-- Settles O30: the count of ROOT is the sum of the leaves, which is the number of bytes counted. -/
theorem rootHoldsTheInputLength : Obligations.RootHoldsTheInputLength := by
  intro s h hv
  obtain ⟨hf, T, hT⟩ := h.builtIn hv
  have hroot : s.root = T.root := hT.root
  rw [hf.nsym_toNat]
  refine ⟨?count, ?sole, ?last⟩
  case count =>
    have hcnt : s.nodeCnt[s.root] = ∑ c : Symbol, s.freq[c] := hT.root_cnt
    obtain ⟨_, hfreq, _⟩ := hf
    rw [hcnt, hfreq, sum_tally, s.input_length, BitVec.ofNat_toNat, BitVec.setWidth_eq]
  case sole =>
    intro h1
    obtain ⟨c, rfl⟩ := CodeTree.eq_leaf_of_length (hT.leaves.length_eq.trans h1)
    exact ⟨c, mem_presentSymbols.1 (hT.leaves.mem_iff.1 (by simp [CodeTree.leaves])), hroot⟩
  case last =>
    intro h2
    rw [hroot]
    exact hT.last h2

end Sys2Proof.Machine
end

section
/-!
The codes GENCODE makes of the tree (43_code_table.md): the paths to the leaves. From them O34 and O35.
-/

namespace Sys2Proof.Machine

/-! ## Bit strings -/

theorem msbFirst_concat (p : List Bool) (b : Bool) : msbFirst (p ++ [b]) = 2 * msbFirst p + b.toNat := by
  simp [msbFirst]

/-- Bit `j` of the value of a bit string is its bit `j` from the end (45_bit_packer.md R232). -/
theorem msbFirst_testBit (p : List Bool) (j : Nat) : (msbFirst p).testBit j = p.reverse.getD j false := by
  induction p using List.reverseRecOn generalizing j with
  | nil => simp [msbFirst]
  | append_singleton p b ih =>
    rw [msbFirst_concat, List.reverse_append, List.reverse_singleton, List.singleton_append]
    cases j with
    | zero => cases b <;> simp [Nat.testBit_zero]
    | succ j =>
      have hhalf : (2 * msbFirst p + b.toNat) / 2 = msbFirst p := by
        have := b.toNat_lt
        omega
      rw [Nat.testBit_succ, hhalf, ih, List.getD_cons_succ]

/-- A bit string that fits CTAB_CVAL is the code of its value and its length (10_state.md R46). -/
theorem bitsOf_msbFirst {p : List Bool} (h : p.length ≤ 255) : bitsOf p.length (BitVec.ofNat 255 (msbFirst p)) = p := by
  refine List.ext_getElem (by simp [bitsOf]) fun i hi hi' => ?_
  have hrev : p.length - 1 - (p.length - 1 - i) = i := by omega
  simp only [bitsOf, List.getElem_map, List.getElem_range, BitVec.getLsbD_ofNat, msbFirst_testBit]
  rw [decide_eq_true (by omega), Bool.true_and, List.getD_eq_getElem _ _ (by simp; omega), List.getElem_reverse]
  simp only [hrev]

/-! ## The paths of a tree -/

namespace CodeTree

/-- The longest path of a tree. -/
def height : CodeTree → Nat
  | leaf _ => 0
  | inner _ l r => max l.height r.height + 1

/-- Each leaf's symbol with the path to it, `p` before it: "0" for left, "1" for right (43_code_table.md R191). -/
def paths : CodeTree → List Bool → List (Symbol × List Bool)
  | leaf c, p => [(c, p)]
  | inner _ l r, p => l.paths (p ++ [false]) ++ r.paths (p ++ [true])

/-- Each symbol with its code: its path, or "0" when the tree is one leaf (43_code_table.md R191, R192). -/
def codes : CodeTree → List (Symbol × List Bool)
  | leaf c => [(c, [false])]
  | inner n l r => (inner n l r).paths []

theorem height_lt_leaves (T : CodeTree) : T.height < T.leaves.length := by
  induction T with
  | leaf c => simp [height, leaves]
  | inner n l r ihl ihr =>
    simp only [height, leaves, List.length_append]
    omega

theorem paths_symbols (T : CodeTree) (p : List Bool) : (T.paths p).map Prod.fst = T.leaves := by
  induction T generalizing p with
  | leaf c => rfl
  | inner n l r ihl ihr => simp [paths, leaves, ihl, ihr]

theorem codes_symbols (T : CodeTree) : T.codes.map Prod.fst = T.leaves := by
  cases T with
  | leaf c => rfl
  | inner n l r => exact paths_symbols _ _

/-- A path goes on from where it starts, by at most the height of the tree. -/
theorem extends_of_mem_paths {T : CodeTree} {p : List Bool} {x : Symbol × List Bool} (hx : x ∈ T.paths p) :
    p <+: x.2 ∧ x.2.length ≤ p.length + T.height := by
  induction T generalizing p with
  | leaf c =>
    obtain rfl : x = (c, p) := by simpa [paths] using hx
    exact ⟨List.prefix_rfl, by simp⟩
  | inner n l r ihl ihr =>
    simp only [paths, List.mem_append] at hx
    simp only [height]
    rcases hx with hx | hx
    · obtain ⟨hp, hl⟩ := ihl hx
      simp only [List.length_append, List.length_singleton] at hl
      exact ⟨(List.prefix_append _ _).trans hp, by omega⟩
    · obtain ⟨hp, hl⟩ := ihr hx
      simp only [List.length_append, List.length_singleton] at hl
      exact ⟨(List.prefix_append _ _).trans hp, by omega⟩

/-- Of two bit strings neither continues the other. -/
def Apart (p q : List Bool) : Prop := ¬ p <+: q ∧ ¬ q <+: p

/-- Two paths that part at a node do not meet again. -/
theorem apart_of_branch {p q q' : List Bool} (hq : p ++ [false] <+: q) (hq' : p ++ [true] <+: q') : Apart q q' := by
  have hno : ∀ s : List Bool, p ++ [false] <+: s → ¬ p ++ [true] <+: s := fun s h h' => by
    have := (List.prefix_of_prefix_length_le h h' (by simp)).eq_of_length (by simp)
    simp at this
  exact ⟨fun h => hno q' (hq.trans h) hq', fun h => hno q hq (hq'.trans h)⟩

/-- No path of a tree continues another (43_code_table.md R195, law 1). -/
theorem paths_apart (T : CodeTree) (p : List Bool) : (T.paths p).Pairwise fun x y => Apart x.2 y.2 := by
  induction T generalizing p with
  | leaf c => simp [paths]
  | inner n l r ihl ihr =>
    exact List.pairwise_append.2 ⟨ihl _, ihr _, fun x hx y hy =>
      apart_of_branch (extends_of_mem_paths hx).1 (extends_of_mem_paths hy).1⟩

theorem codes_apart (T : CodeTree) : T.codes.Pairwise fun x y => Apart x.2 y.2 := by
  cases T with
  | leaf c => simp [codes]
  | inner n l r => exact paths_apart _ _

/-- A code has 1 to 255 bits (43_code_table.md R195, law 2; 00_scope.md R7). -/
theorem codes_length {T : CodeTree} (hT : T.leaves.length ≤ 256) {x : Symbol × List Bool} (hx : x ∈ T.codes) :
    1 ≤ x.2.length ∧ x.2.length ≤ 255 := by
  have hheight := T.height_lt_leaves
  cases T with
  | leaf c =>
    obtain rfl : x = (c, [false]) := by simpa [codes] using hx
    simp
  | inner n l r =>
    refine ⟨?_, by have := (extends_of_mem_paths hx).2; simp only [List.length_nil] at this; omega⟩
    simp only [codes, paths, List.mem_append] at hx
    rcases hx with hx | hx <;> simpa using (extends_of_mem_paths hx).1.length_le

/-- The weights 2^(-length) of the paths of a tree sum to that of its start (43_code_table.md R195, law 3), times 2^255. -/
theorem sum_paths (T : CodeTree) (p : List Bool) (h : p.length + T.height ≤ 255) :
    ((T.paths p).map fun x => 2 ^ (255 - x.2.length)).sum = 2 ^ (255 - p.length) := by
  induction T generalizing p with
  | leaf c => simp [paths]
  | inner n l r ihl ihr =>
    simp only [height] at h
    have hexp : 255 - p.length = (255 - (p.length + 1)) + 1 := by omega
    rw [paths, List.map_append, List.sum_append, ihl _ (by simp; omega), ihr _ (by simp; omega), hexp, Nat.pow_succ]
    simp only [List.length_append, List.length_singleton]
    omega

/-- The weights of the codes sum to 1, or to 1/2 for a sole symbol (43_code_table.md R195, laws 3 and 4), times 2^255. -/
theorem sum_codes {T : CodeTree} (hT : T.leaves.length ≤ 256) :
    (T.codes.map fun x => 2 ^ (255 - x.2.length)).sum = if T.leaves.length = 1 then 2 ^ 254 else 2 ^ 255 := by
  have hheight := T.height_lt_leaves
  cases T with
  | leaf c => simp [codes, leaves]
  | inner n l r =>
    have hne : (inner n l r).leaves.length ≠ 1 := fun h1 => by
      obtain ⟨c, hc⟩ := eq_leaf_of_length h1
      cases hc
    rw [if_neg hne, codes, sum_paths _ _ (by simp only [List.length_nil]; omega)]
    rfl

end CodeTree

/-! ## The code table GENCODE makes -/

/-- The table with one code written. -/
def CodeTable.assign (t : CodeTable) (x : Symbol × List Bool) : CodeTable :=
  { len := t.len.set x.1.val (BitVec.ofNat 8 x.2.length), val := t.val.set x.1.val (BitVec.ofNat 255 (msbFirst x.2)) }

theorem CodeTable.put_leafId (t : CodeTable) (c : Symbol) (p : List Bool) :
    t.put (leafId c) p.length (msbFirst p) = .ok (t.assign (c, p)) := by
  simp [CodeTable.put, symbolOfNode, leafId, CodeTable.assign]

/-- Walking a tree writes the path of each leaf, the length and the value of a path passed down with it (43_code_table.md
R190). -/
theorem walk_eq {f : Vector Word 256} {cnt : Vector Word 511} {info : Vector NodeInfo 511} {T : CodeTree}
    (h : T.Held f cnt info) (fuel : Nat) (hfuel : T.height < fuel) (p : List Bool) (t : CodeTable) :
    walk info fuel T.root p.length (msbFirst p) t = .ok ((T.paths p).foldl CodeTable.assign t) := by
  induction T generalizing fuel p t with
  | leaf c =>
    obtain ⟨fuel, rfl⟩ : ∃ m, fuel = m + 1 := ⟨fuel - 1, by simp only [CodeTree.height] at hfuel; omega⟩
    obtain ⟨hi, _⟩ := h
    simp only [walk, CodeTree.root_leaf, hi, CodeTable.put_leafId]
    rfl
  | inner n l r ihl ihr =>
    simp only [CodeTree.height] at hfuel
    obtain ⟨fuel, rfl⟩ : ∃ m, fuel = m + 1 := ⟨fuel - 1, by omega⟩
    obtain ⟨hi, _, hl, hr⟩ := h
    have hleft := ihl hl fuel (by omega) (p ++ [false]) t
    have hright := ihr hr fuel (by omega) (p ++ [true]) ((l.paths (p ++ [false])).foldl CodeTable.assign t)
    simp only [List.length_append, List.length_singleton, msbFirst_concat, Bool.toNat_false, Bool.toNat_true,
      Nat.add_zero] at hleft hright
    simp only [walk, CodeTree.root_inner, hi, hleft, hright, CodeTree.paths, List.foldl_append]

/-- GENCODE writes the codes of the tree at ROOT in an empty table (43_code_table.md R190 to R193). -/
theorem genCode_eq {f : Vector Word 256} {t : Tree} {T : CodeTree} (h : T.BuiltIn f t) :
    genCode t.info t.root = .ok (T.codes.foldl CodeTable.assign CodeTable.empty) := by
  have hheight := T.height_lt_leaves
  have hlen := h.leaves_length_le
  have hheld := h.held
  rw [h.root]
  cases T with
  | leaf c =>
    obtain ⟨hi, _⟩ := hheld
    simp only [genCode, CodeTree.root_leaf, hi]
    exact CodeTable.put_leafId CodeTable.empty c [false]
  | inner n l r =>
    have hwalk := walk_eq hheld 256 (by omega) [] CodeTable.empty
    obtain ⟨hi, _⟩ := hheld
    simp only [genCode, CodeTree.root_inner, hi]
    exact hwalk

section Assign

variable {xs : List (Symbol × List Bool)} {t : CodeTable} {c : Symbol} {p : List Bool}

theorem CodeTable.foldl_assign_of_notMem (h : c ∉ xs.map Prod.fst) :
    (xs.foldl CodeTable.assign t).len[c] = t.len[c] ∧ (xs.foldl CodeTable.assign t).val[c] = t.val[c] := by
  induction xs generalizing t with
  | nil => exact ⟨rfl, rfl⟩
  | cons x xs ih =>
    obtain ⟨hx, hxs⟩ : c ≠ x.1 ∧ c ∉ xs.map Prod.fst := by simpa using h
    have hne : x.1.val ≠ c.val := fun e => hx (Fin.ext e.symm)
    obtain ⟨hl, hv⟩ := ih (t := t.assign x) hxs
    rw [List.foldl_cons, hl, hv]
    simp [CodeTable.assign, hne]

theorem CodeTable.foldl_assign_of_mem (hn : (xs.map Prod.fst).Nodup) (h : (c, p) ∈ xs) :
    (xs.foldl CodeTable.assign t).len[c] = BitVec.ofNat 8 p.length ∧
    (xs.foldl CodeTable.assign t).val[c] = BitVec.ofNat 255 (msbFirst p) := by
  induction xs generalizing t with
  | nil => simp at h
  | cons x xs ih =>
    obtain ⟨hx, hxs⟩ := List.nodup_cons.1 hn
    rcases List.mem_cons.1 h with rfl | h
    · obtain ⟨hl, hv⟩ := CodeTable.foldl_assign_of_notMem (t := t.assign (c, p)) hx
      rw [List.foldl_cons, hl, hv]
      simp [CodeTable.assign]
    · exact ih hxs h

end Assign

/-! ## The states of the invariant -/

/-- The state holds the codes of the tree `T`: each leaf's symbol has its code, no other symbol has one. -/
structure State.HoldsCodes (s : State) (T : CodeTree) : Prop where
  leaves : T.leaves.Perm (presentSymbols s.freq)
  length : ∀ x ∈ T.codes, s.ctabLen[x.1].toNat = x.2.length
  code : ∀ x ∈ T.codes, s.code x.1 = x.2
  absent : ∀ c : Symbol, s.freq[c] = 0 → s.ctabLen[c] = 0

theorem State.HoldsCodes.leaves_length_le {s : State} {T : CodeTree} (h : s.HoldsCodes T) : T.leaves.length ≤ 256 := by
  rw [h.leaves.length_eq]
  exact presentSymbols_length_le s.freq

/-- A table made of the tree of FREQ holds its codes. -/
theorem State.holdsCodes_of_table {s : State} {T : CodeTree} (hT : T.BuiltIn s.freq s.tree)
    (h : s.codeTable = T.codes.foldl CodeTable.assign CodeTable.empty) : s.HoldsCodes T := by
  have hlen := hT.leaves_length_le
  have hnodup : (T.codes.map Prod.fst).Nodup := by
    rw [T.codes_symbols]
    exact hT.leaves.nodup_iff.2 (presentSymbols_nodup _)
  have hmem : ∀ x ∈ T.codes, s.ctabLen[x.1].toNat = x.2.length ∧ s.code x.1 = x.2 := by
    intro x hx
    obtain ⟨_, h255⟩ := CodeTree.codes_length hlen hx
    obtain ⟨hl, hv⟩ := CodeTable.foldl_assign_of_mem (t := CodeTable.empty) hnodup (c := x.1) (p := x.2) hx
    rw [← h] at hl hv
    have hlen' : s.ctabLen[x.1].toNat = x.2.length := by
      rw [show s.ctabLen[x.1] = BitVec.ofNat 8 x.2.length from hl, BitVec.toNat_ofNat, Nat.mod_eq_of_lt (by omega)]
    refine ⟨hlen', ?_⟩
    rw [State.code, State.codeLen, hlen', show s.ctabVal[x.1] = BitVec.ofNat 255 (msbFirst x.2) from hv,
      bitsOf_msbFirst h255]
  refine ⟨hT.leaves, fun x hx => (hmem x hx).1, fun x hx => (hmem x hx).2, fun c hc => ?_⟩
  have hno : c ∉ T.codes.map Prod.fst := by
    rw [T.codes_symbols, hT.leaves.mem_iff, mem_presentSymbols]
    exact not_not.2 hc
  have hl := (CodeTable.foldl_assign_of_notMem (t := CodeTable.empty) hno).1
  rw [← h] at hl
  exact hl.trans (by simp [CodeTable.empty])

/-- With CTAB_VALID = 1 the state holds the codes of a tree of the input's table (10_state.md R25). -/
theorem State.Inv.holdsCodes {s : State} (h : s.Inv) (hv : s.valid.ctab = true) :
    s.FreqMeans ∧ ∃ T : CodeTree, s.HoldsCodes T := by
  obtain ⟨_, _, ⟨_, hc, _, _, hg, _⟩⟩ := s.inv_iff.1 h
  obtain ⟨_, htree, _⟩ := s.valid.chain_iff.1 hc
  obtain ⟨hf, T, hT⟩ := h.builtIn (htree hv)
  obtain ⟨hgen, _⟩ := hg hv
  have htable : genCode s.nodeInfo s.root = _ := genCode_eq hT
  rw [htable, decide_eq_true_eq] at hgen
  exact ⟨hf, T, State.holdsCodes_of_table hT hgen.symm⟩

/-- A present symbol has a code. -/
theorem State.HoldsCodes.exists_code {s : State} {T : CodeTree} (h : s.HoldsCodes T) {c : Symbol} (hc : s.freq[c] ≠ 0) :
    ∃ p, (c, p) ∈ T.codes := by
  have hmem : c ∈ T.codes.map Prod.fst := by
    rw [T.codes_symbols, h.leaves.mem_iff]
    exact mem_presentSymbols.2 hc
  obtain ⟨⟨_, p⟩, hp, rfl⟩ := List.mem_map.1 hmem
  exact ⟨p, hp⟩

/-- A symbol has a code of length at least 1 iff it is present. -/
theorem State.HoldsCodes.one_le_length {s : State} {T : CodeTree} (h : s.HoldsCodes T) (c : Symbol) :
    1 ≤ s.ctabLen[c].toNat ↔ s.freq[c] ≠ 0 := by
  constructor
  · intro hl hc
    simp [h.absent c hc] at hl
  · intro hc
    obtain ⟨p, hp⟩ := h.exists_code hc
    rw [h.length _ hp]
    exact (CodeTree.codes_length h.leaves_length_le hp).1

/-- A symbol is present iff it occurs in the input. -/
theorem State.FreqMeans.freq_ne_zero {s : State} (h : s.FreqMeans) (c : Symbol) :
    s.freq[c] ≠ 0 ↔ ∃ k, k < s.len.toNat ∧ (s.ibuf.read k).toNat = c.val := by
  obtain ⟨_, hfreq, _⟩ := h
  rw [hfreq, tally_getElem_ne_zero (by simpa using s.len.isLt)]
  simp only [State.mem_input, symbolOfByte, Fin.ext_iff]
  constructor
  · rintro ⟨_, ⟨k, hk, rfl⟩, hc⟩
    exact ⟨k, hk, hc⟩
  · rintro ⟨k, hk, hc⟩
    exact ⟨_, ⟨k, hk, rfl⟩, hc⟩

/-- Settles O34: the codes are the paths of a tree, of which no one continues another. -/
theorem codesArePrefixFree : Obligations.CodesArePrefixFree := by
  intro s h hv
  obtain ⟨hf, T, hT⟩ := h.holdsCodes hv
  refine ⟨fun c => (hT.one_le_length c).trans (hf.freq_ne_zero c), fun c d hne hc hd => ?_⟩
  obtain ⟨p, hp⟩ := hT.exists_code ((hT.one_le_length c).1 hc)
  obtain ⟨q, hq⟩ := hT.exists_code ((hT.one_le_length d).1 hd)
  rw [hT.code _ hp, hT.code _ hq]
  have hsymm : Std.Symm fun x y : Symbol × List Bool => CodeTree.Apart x.2 y.2 := ⟨fun _ _ ha => ⟨ha.2, ha.1⟩⟩
  have hcd : ((c, p) : Symbol × List Bool) ≠ (d, q) := fun e => hne (Prod.ext_iff.1 e).1
  exact (T.codes_apart.forall hp hq hcd).1

/-- Settles O35: the sum over the symbols is the one over the codes of the tree. -/
theorem codesAreComplete : Obligations.CodesAreComplete := by
  intro s h hv
  obtain ⟨hf, T, hT⟩ := h.holdsCodes hv
  have hweight : ∀ x ∈ T.codes,
      (if s.ctabLen[x.1] = 0 then 0 else 2 ^ (255 - s.ctabLen[x.1].toNat)) = 2 ^ (255 - x.2.length) := by
    intro x hx
    have hl := hT.length x hx
    have h1 := (CodeTree.codes_length hT.leaves_length_le hx).1
    rw [if_neg (fun e => by simp [e] at hl; omega), hl]
  rw [← Fin.sum_univ_def, ← sum_presentSymbols s.freq _ fun c hc => if_pos (hT.absent c hc),
    ← (hT.leaves.map _).sum_eq, ← T.codes_symbols, List.map_map, hf.nsym_toNat, ← hT.leaves.length_eq,
    ← CodeTree.sum_codes hT.leaves_length_le]
  exact congrArg List.sum (List.map_congr_left hweight)

end Sys2Proof.Machine
end

section
/-!
The host port: the offsets of the registers and windows (O4), and what a read or a write of each target is answered (O9, O10,
O13, O14, O15).
-/

namespace Sys2Proof.Machine

/-! ## Offsets (10_state.md R41) -/

theorem Csr.ofOffset_offset (c : Csr) : Csr.ofOffset c.offset = some c := by
  cases c
  case freq c =>
    rw [show (Csr.freq c).offset = 0x400 + 4 * c.val from rfl, Csr.ofOffset, if_neg (by omega), if_neg (by omega),
      dif_pos (by omega)]
    simp
  case ctabLen c =>
    rw [show (Csr.ctabLen c).offset = 0x800 + 4 * c.val from rfl, Csr.ofOffset, if_neg (by omega), if_neg (by omega),
      dif_neg (by omega), dif_pos (by omega)]
    simp
  case ctabCode c j =>
    rw [show (Csr.ctabCode c j).offset = 0x1000 + 32 * c.val + 4 * j.val from rfl, Csr.ofOffset, if_neg (by omega),
      if_neg (by omega), dif_neg (by omega), dif_neg (by omega), dif_pos (by omega)]
    simp only [Option.some.injEq, Csr.ctabCode.injEq, Fin.ext_iff]
    omega
  case nodeCnt n =>
    rw [show (Csr.nodeCnt n).offset = 0x3000 + 4 * n.val from rfl, Csr.ofOffset, if_neg (by omega), if_neg (by omega),
      dif_neg (by omega), dif_neg (by omega), dif_neg (by omega), dif_pos (by omega)]
    simp
  case nodeInfo n =>
    rw [show (Csr.nodeInfo n).offset = 0x3800 + 4 * n.val from rfl, Csr.ofOffset, if_neg (by omega), if_neg (by omega),
      dif_neg (by omega), dif_neg (by omega), dif_neg (by omega), dif_neg (by omega), dif_pos (by omega)]
    simp
  all_goals rfl

theorem Csr.offset_of_ofOffset {off : Nat} {c : Csr} (h : Csr.ofOffset off = some c) : c.offset = off := by
  unfold Csr.ofOffset at h
  split_ifs at h
  case pos =>
    unfold Csr.ofRegisterOffset at h
    split at h <;> cases h <;> rfl
  all_goals
    cases h
    simp only [Csr.offset]
    omega

/-- Every offset is that of a word in the CSR region. -/
theorem Csr.offset_bounds (c : Csr) : c.offset % 4 = 0 ∧ c.offset + 4 ≤ 0x4000 := by
  cases c
  case freq | ctabLen | ctabCode | nodeCnt | nodeInfo => simp only [Csr.offset]; omega
  all_goals decide

/-- Settles O4: the two lookups are inverse to each other. -/
theorem csrOffsetsNameEachRegisterOnce : Obligations.CsrOffsetsNameEachRegisterOnce :=
  ⟨Csr.ofOffset_offset, fun _ _ => Csr.offset_of_ofOffset, Csr.offset_bounds⟩

/-! ## What an access reaches (20_memory.md R71, R72) -/

/-- The largest legal parameters (00_scope.md R6). -/
theorem limits_of_wellFormed {cfg : Config} (h : cfg.wellFormed = true) :
    cfg.ibufBytes ≤ 2 ^ 24 ∧ cfg.obufBytes ≤ 2 ^ 29 ∧ cfg.nlanes ≤ 256 := by
  simp only [Config.wellFormed, Bool.and_eq_true, decide_eq_true_eq] at h
  omega

theorem Size.bytes_cases (n : Size) : n.bytes = 1 ∨ n.bytes = 2 ∨ n.bytes = 4 := by cases n <;> simp [Size.bytes]

/-- A word access at the offset of a register or window entry reaches it. -/
theorem resolve_csrAddr (cfg : Config) (c : Csr) : resolve cfg .word (csrAddr c) = .ok (.csr c) := by
  obtain ⟨h4, hle⟩ := c.offset_bounds
  have haddr : (csrAddr c).toNat = c.offset := by
    rw [csrAddr, BitVec.toNat_ofNat]
    omega
  simp [resolve, haddr, regionOf, Size.bytes, hle, h4, c.ofOffset_offset]

/-- An aligned access inside IBUF reaches it. -/
theorem resolve_ibufAddr {cfg : Config} (hcfg : cfg.wellFormed = true) {n : Size} {a : Nat} (halign : a % n.bytes = 0)
    (hin : a + n.bytes ≤ cfg.ibufBytes) : resolve cfg n (ibufAddr a) = .ok (.ibuf a) := by
  obtain ⟨hsize, _⟩ := limits_of_wellFormed hcfg
  have haddr : (ibufAddr a).toNat = ibufBase + a := by
    rw [ibufAddr, BitVec.toNat_ofNat, ibufBase]
    omega
  have hregion : regionOf cfg (ibufBase + a) n.bytes = some .ibuf := by
    rw [regionOf, if_neg (by rw [ibufBase]; omega), if_pos (by omega)]
  have halign' : (ibufBase + a) % n.bytes = 0 := by
    rcases n.bytes_cases with hn | hn | hn <;> rw [hn] at halign ⊢ <;> rw [ibufBase] <;> omega
  simp [resolve, haddr, hregion, halign']

/-- An aligned access inside OBUF reaches it. -/
theorem resolve_obufAddr {cfg : Config} (hcfg : cfg.wellFormed = true) {n : Size} {a : Nat} (halign : a % n.bytes = 0)
    (hin : a + n.bytes ≤ cfg.obufBytes) : resolve cfg n (obufAddr a) = .ok (.obuf a) := by
  obtain ⟨hisize, hosize, _⟩ := limits_of_wellFormed hcfg
  have haddr : (obufAddr a).toNat = obufBase + a := by
    rw [obufAddr, BitVec.toNat_ofNat, obufBase]
    omega
  have hregion : regionOf cfg (obufBase + a) n.bytes = some .obuf := by
    rw [regionOf, if_neg (by rw [obufBase]; omega), if_neg (by rw [obufBase, ibufBase]; omega), if_pos (by omega)]
  have halign' : (obufBase + a) % n.bytes = 0 := by
    rcases n.bytes_cases with hn | hn | hn <;> rw [hn] at halign ⊢ <;> rw [obufBase] <;> omega
  simp [resolve, haddr, hregion, halign']

/-! ## What an access is answered -/

/-- A read that is not refused while BUSY is answered with the value of its target. -/
theorem transact_read {s : State} {n : Size} {addr : Word} {target : Target} (hr : resolve s.cfg n addr = .ok target)
    (hg : (target.readGated && s.busy) = false) :
    transact (.read n addr) s =
      ((s.readTarget n target).1, { resp := .okay, rdata := (s.readTarget n target).2 }) := by
  simp [transact, hr, hg]

/-- A write that is not refused while BUSY is performed. -/
theorem transact_write {s : State} {n : Size} {addr v : Word} {target : Target} (hr : resolve s.cfg n addr = .ok target)
    (hg : (target.writeGated && s.busy) = false) :
    transact (.write n addr v) s = (s.writeTarget n v target, { resp := .okay, rdata := 0 }) := by
  simp [transact, hr, hg]

/-- A word read of a register or window entry is answered with its value, of a gated one while idle (20_memory.md R80). -/
theorem transact_read_csr {s : State} {c : Csr} (hg : c.readGated = false ∨ s.busy = false) :
    (transact (.read .word (csrAddr c)) s).2 = { resp := .okay, rdata := (s.readCsr c).2 } := by
  rw [transact_read (resolve_csrAddr s.cfg c) (by rcases hg with hg | hg <;> simp [Target.readGated, hg])]
  rfl

/-- A word write of a register is performed, of a gated one while idle (20_memory.md R80). -/
theorem transact_write_csr {s : State} {c : Csr} (v : Word) (hg : c.writeGated = false ∨ s.busy = false) :
    transact (.write .word (csrAddr c) v) s = (s.writeCsr v c, { resp := .okay, rdata := 0 }) := by
  rw [transact_write (resolve_csrAddr s.cfg c) (by rcases hg with hg | hg <;> simp [Target.writeGated, hg])]
  rfl

/-! ## The registers the host writes -/

/-- Settles O9: each of the four addresses is that of its register, and the write of the register is the field update. -/
theorem hostRegisterWrites : Obligations.HostRegisterWrites := by
  intro s v
  refine ⟨fun hb => transact_write_csr (c := .len) v (.inr hb), fun hb => transact_write_csr (c := .nw) v (.inr hb),
    transact_write_csr (c := .irqEn) v (.inl rfl), _, transact_write_csr (c := .irqStat) v (.inl rfl), fun k hk => ?_⟩
  simp [hk]

end Sys2Proof.Machine
end

section
/-!
What a read of STATUS and of the other registers returns (O13, O14).
-/

namespace Sys2Proof.Machine

/-! ## Bits and fields of a word by division -/

theorem getLsbD_eq_of_div_mod {w : Word} {k : Nat} {b : Bool} (h : w.toNat / 2 ^ k % 2 = b.toNat) : w.getLsbD k = b := by
  rw [← BitVec.testBit_toNat, Nat.testBit_eq_decide_div_mod_eq, h]
  cases b <;> rfl

theorem getLsbD_eq_false_of_div_mod {w : Word} {k : Nat} (h : w.toNat / 2 ^ k % 2 = 0) : w.getLsbD k = false :=
  getLsbD_eq_of_div_mod h

theorem toNat_extractLsb' (w : Word) (start len : Nat) :
    (w.extractLsb' start len).toNat = w.toNat / 2 ^ start % 2 ^ len := by
  rw [BitVec.extractLsb'_toNat, Nat.shiftRight_eq_div_pow]

/-! ## STATUS (10_state.md R24, R25, R50) -/

theorem ErrCode.code_le (e : ErrCode) : e.code ≤ 6 := by cases e <;> decide

theorem Stage.code_le (st : Stage) : st.code ≤ 5 := by cases st <;> decide

theorem Completion.errCode_le (c : Completion) : c.errCode ≤ 6 := by
  cases c with
  | none | done => exact Nat.zero_le _
  | error e st => exact e.code_le

theorem State.statusStage_le (s : State) : s.statusStage ≤ 5 := by
  unfold State.statusStage
  split
  next => exact Stage.code_le _
  next => exact Nat.zero_le _
  next =>
    cases s.completion with
    | none | done => exact Nat.zero_le _
    | error e st => exact st.code_le

/-- STATUS field by field, as the model names the fields: none of them overlaps the next. -/
theorem State.statusWord_fields (s : State) :
    s.statusWord.getLsbD 0 = s.busy ∧ s.statusWord.getLsbD 1 = s.completion.isDone ∧
    s.statusWord.getLsbD 2 = s.completion.isError ∧ s.statusWord.getLsbD 3 = false ∧
    (s.statusWord.extractLsb' 4 4).toNat = s.completion.errCode ∧
    (s.statusWord.extractLsb' 8 3).toNat = s.statusStage ∧
    (∀ k, 11 ≤ k → k < 16 → s.statusWord.getLsbD k = false) ∧
    s.statusWord.getLsbD 16 = s.valid.freq ∧ s.statusWord.getLsbD 17 = s.valid.tree ∧
    s.statusWord.getLsbD 18 = s.valid.ctab ∧ s.statusWord.getLsbD 19 = s.valid.enc ∧
    s.statusWord.getLsbD 20 = s.valid.out ∧ (∀ k, 21 ≤ k → k < 32 → s.statusWord.getLsbD k = false) := by
  have hcode := s.completion.errCode_le
  have hstage := s.statusStage_le
  have hbusy := s.busy.toNat_le
  have hdone := s.completion.isDone.toNat_le
  have herr := s.completion.isError.toNat_le
  have hfreq := s.valid.freq.toNat_le
  have htree := s.valid.tree.toNat_le
  have hctab := s.valid.ctab.toNat_le
  have henc := s.valid.enc.toNat_le
  have hout := s.valid.out.toNat_le
  have hw : s.statusWord.toNat = s.busy.toNat + 2 * s.completion.isDone.toNat + 4 * s.completion.isError.toNat +
      16 * s.completion.errCode + 256 * s.statusStage + 65536 * s.valid.bits := by
    rw [State.statusWord, BitVec.toNat_ofNat, Valid.bits]
    omega
  rw [Valid.bits] at hw
  refine ⟨getLsbD_eq_of_div_mod (by omega), getLsbD_eq_of_div_mod (by omega), getLsbD_eq_of_div_mod (by omega),
    getLsbD_eq_false_of_div_mod (by omega), by rw [toNat_extractLsb']; omega, by rw [toNat_extractLsb']; omega, ?middle,
    getLsbD_eq_of_div_mod (by omega), getLsbD_eq_of_div_mod (by omega), getLsbD_eq_of_div_mod (by omega),
    getLsbD_eq_of_div_mod (by omega), getLsbD_eq_of_div_mod (by omega), ?high⟩
  case middle =>
    intro k hk hk'
    apply getLsbD_eq_false_of_div_mod
    interval_cases k <;> omega
  case high =>
    intro k hk hk'
    apply getLsbD_eq_false_of_div_mod
    interval_cases k <;> omega

theorem State.busy_iff (s : State) : s.busy = true ↔ ∃ w q, s.seq = .busy w q := by
  cases hs : s.seq <;> simp [State.busy, hs]

theorem Completion.isDone_iff (c : Completion) : c.isDone = true ↔ c = .done := by cases c <;> simp [Completion.isDone]

theorem Completion.isError_iff (c : Completion) : c.isError = true ↔ ∃ e st, c = .error e st := by
  cases c <;> simp [Completion.isError]

/-- Settles O13: the fields of STATUS, their codes turned into the numbers of R270 and of the stages. -/
theorem statusWordFields : Obligations.StatusWordFields := by
  intro s stageNumber
  obtain ⟨h0, h1, h2, h3, hcode, hstage, hmid, h16, h17, h18, h19, h20, hhigh⟩ := s.statusWord_fields
  have hnumber : ∀ st : Stage, (stageNumber st).toNat = st.code := fun st => by cases st <;> rfl
  refine ⟨by rw [h0, s.busy_iff], by rw [h1, Completion.isDone_iff], by rw [h2, Completion.isError_iff], h3, ?code, ?running,
    ?idle, hmid, h16, h17, h18, h19, h20, hhigh⟩
  case code =>
    apply BitVec.eq_of_toNat_eq
    rw [hcode]
    cases s.completion with
    | none | done => rfl
    | error e st => cases e <;> rfl
  case running =>
    intro w st rest hs
    apply BitVec.eq_of_toNat_eq
    rw [hstage, hnumber, State.statusStage, hs]
  case idle =>
    intro hs
    apply BitVec.eq_of_toNat_eq
    rw [hstage, State.statusStage, hs]
    cases s.completion with
    | none | done => rfl
    | error e st => exact (hnumber st).symm

/-! ## The other registers (10_state.md R22 to R41) -/

theorem read_csr_toNat {s : State} {c : Csr} {v : Nat} (hg : c.readGated = false ∨ s.busy = false)
    (hv : (s.readCsr c).2.toNat = v) :
    (transact (.read .word (csrAddr c)) s).2.resp = .okay ∧
    (transact (.read .word (csrAddr c)) s).2.rdata.toNat = v := by
  rw [transact_read_csr hg]
  exact ⟨rfl, hv⟩

/-- A cycle counter as read while idle. -/
theorem State.readCycles_idle {s : State} (hb : s.busy = false) (st : Stage) : s.readCycles st = (s, s.cyc.get st) := by
  simp [State.readCycles, hb]

/-- Settles O14: each address is that of its register, read by `readCsr`. -/
theorem registerReadValues : Obligations.RegisterReadValues := by
  intro s hcfg read gives
  obtain ⟨hi, ho, hl⟩ := limits_of_wellFormed hcfg
  refine ⟨⟨read_csr_toNat (c := .id) (.inl rfl) rfl, read_csr_toNat (c := .cmd) (.inl rfl) rfl,
    read_csr_toNat (c := .status) (.inl rfl) rfl, read_csr_toNat (c := .len) (.inl rfl) rfl,
    read_csr_toNat (c := .nw) (.inl rfl) rfl, read_csr_toNat (c := .lastCmd) (.inl rfl) rfl,
    read_csr_toNat (c := .irqEn) (.inl rfl) (BitVec.toNat_setWidth_of_le (by decide)),
    read_csr_toNat (c := .irqStat) (.inl rfl) (BitVec.toNat_setWidth_of_le (by decide)),
    read_csr_toNat (c := .paramIbuf) (.inl rfl) (Nat.mod_eq_of_lt (by omega)),
    read_csr_toNat (c := .paramObuf) (.inl rfl) (Nat.mod_eq_of_lt (by omega)),
    read_csr_toNat (c := .paramLanes) (.inl rfl) (Nat.mod_eq_of_lt (by omega))⟩, fun hb => ?_⟩
  have hcyc : ∀ st, (s.readCycles st).2.toNat = (s.cyc.get st).toNat := fun st => by rw [State.readCycles_idle hb]
  have hroot : s.root.val < 2 ^ 32 := by omega
  exact ⟨read_csr_toNat (c := .nsym) (.inr hb) (BitVec.toNat_setWidth_of_le (by decide)),
    read_csr_toNat (c := .root) (.inr hb) (Nat.mod_eq_of_lt hroot), read_csr_toNat (c := .rawBits) (.inr hb) rfl,
    read_csr_toNat (c := .encBits) (.inr hb) rfl, read_csr_toNat (c := .outLen) (.inr hb) rfl,
    read_csr_toNat (c := .maxLen) (.inr hb) (BitVec.toNat_setWidth_of_le (by decide)),
    read_csr_toNat (c := .cycCount) (.inr hb) (hcyc .count), read_csr_toNat (c := .cycBuild) (.inr hb) (hcyc .build),
    read_csr_toNat (c := .cycGencode) (.inr hb) (hcyc .gencode), read_csr_toNat (c := .cycEncode) (.inr hb) (hcyc .encode),
    read_csr_toNat (c := .cycPack) (.inr hb) (hcyc .pack)⟩

end Sys2Proof.Machine
end

section
/-!
What a read of each window and of the buffers returns, and what a write of IBUF stores (O10, O15).
-/

namespace Sys2Proof.Machine

/-! ## Little-endian values (20_memory.md R73) -/

theorem littleEndian_lt (bytes : List Byte) : littleEndian bytes < 256 ^ bytes.length := by
  induction bytes with
  | nil => simp [littleEndian]
  | cons b bytes ih =>
    have := b.isLt
    rw [littleEndian, List.length_cons, Nat.pow_succ]
    omega

/-- Byte `k` of a little-endian value is the `k`-th of its bytes. -/
theorem littleEndian_byte (bytes : List Byte) (k : Nat) :
    littleEndian bytes / 2 ^ (8 * k) % 2 ^ 8 = (bytes.getD k 0).toNat := by
  induction bytes generalizing k with
  | nil => simp [littleEndian]
  | cons b bytes ih =>
    have hb := b.isLt
    cases k with
    | zero =>
      rw [littleEndian, List.getD_cons_zero]
      omega
    | succ k =>
      have hshift : (b.toNat + 256 * littleEndian bytes) / 2 ^ 8 = littleEndian bytes := by omega
      rw [littleEndian, List.getD_cons_succ, ← ih k, Nat.mul_succ, Nat.add_comm (8 * k), Nat.pow_add,
        ← Nat.div_div_eq_div_mul, hshift]

/-- Byte `k` of the bytes of a value is its bits 8k to 8k + 7. -/
theorem toLittleEndian_getD {n k : Nat} (hk : k < n) (v : Word) :
    (toLittleEndian n v.toNat).getD k 0 = v.extractLsb' (8 * k) 8 := by
  have h : ∀ (n k x : Nat), k < n → (toLittleEndian n x).getD k 0 = BitVec.ofNat 8 (x / 2 ^ (8 * k)) := by
    intro n
    induction n with
    | zero => intro k x hk; omega
    | succ n ih =>
      intro k x hk
      cases k with
      | zero => simp [toLittleEndian]
      | succ k =>
        rw [toLittleEndian, List.getD_cons_succ, ih k _ (by omega), Nat.div_div_eq_div_mul, Nat.mul_succ,
          Nat.add_comm (8 * k), Nat.pow_add]
  apply BitVec.eq_of_toNat_eq
  rw [h n k _ hk, toNat_extractLsb', BitVec.toNat_ofNat]

/-- The value of a buffer read, byte by byte. -/
theorem bufferRead_bytes (m : Memory) (n : Size) (a : Nat) :
    (BitVec.ofNat 32 (littleEndian (m.readBytes a n.bytes))).toNat < 2 ^ (8 * n.bytes) ∧
    ∀ k, k < n.bytes →
      (BitVec.ofNat 32 (littleEndian (m.readBytes a n.bytes))).extractLsb' (8 * k) 8 = m.read (a + k) := by
  have hlt := littleEndian_lt (m.readBytes a n.bytes)
  rw [Memory.readBytes_length, show 256 = 2 ^ 8 from rfl, ← Nat.pow_mul] at hlt
  have hle : 2 ^ (8 * n.bytes) ≤ 2 ^ 32 :=
    Nat.pow_le_pow_right (by decide) (by rcases n.bytes_cases with h | h | h <;> omega)
  have hval : (BitVec.ofNat 32 (littleEndian (m.readBytes a n.bytes))).toNat = littleEndian (m.readBytes a n.bytes) :=
    Nat.mod_eq_of_lt (by omega)
  refine ⟨by rwa [hval], fun k hk => ?_⟩
  apply BitVec.eq_of_toNat_eq
  rw [toNat_extractLsb', hval, littleEndian_byte]
  simp [Memory.readBytes, hk]

theorem transact_read_ibuf {s : State} (hb : s.busy = false) (hcfg : s.cfg.wellFormed = true) {n : Size} {a : Nat}
    (halign : a % n.bytes = 0) (hin : a + n.bytes ≤ s.cfg.ibufBytes) :
    (transact (.read n (ibufAddr a)) s).2 =
      { resp := .okay, rdata := BitVec.ofNat 32 (littleEndian (s.ibuf.readBytes a n.bytes)) } := by
  rw [transact_read (resolve_ibufAddr hcfg halign hin) (by simp [hb])]
  rfl

theorem transact_read_obuf {s : State} (hb : s.busy = false) (hcfg : s.cfg.wellFormed = true) {n : Size} {a : Nat}
    (halign : a % n.bytes = 0) (hin : a + n.bytes ≤ s.cfg.obufBytes) :
    (transact (.read n (obufAddr a)) s).2 =
      { resp := .okay, rdata := BitVec.ofNat 32 (littleEndian (s.obuf.readBytes a n.bytes)) } := by
  rw [transact_read (resolve_obufAddr hcfg halign hin) (by simp [hb])]
  rfl

/-! ## The windows (10_state.md R42 to R46) -/

/-- Word `j` of a code value in the CTAB_CODE window has its bits 32j to 32j + 31. -/
theorem codeWindow_getLsbD (v : BitVec 255) (j : Fin 8) {k : Nat} (hk : k < 32) :
    (codeWindow v j).getLsbD k = v.getLsbD (32 * j.val + k) := by
  have hin : 32 * j.val + k < 256 := by omega
  simp [codeWindow, hk, hin]

/-- The word of an internal node, its fields side by side. -/
theorem NodeInfo.word_inner_toNat (l r : NodeId) :
    (NodeInfo.inner l r).word.toNat = 2 ^ 31 + 2 ^ 30 + 2 ^ 16 * r.val + l.val := by
  rw [NodeInfo.word, BitVec.toNat_ofNat]
  omega

/-- NODE_INFO as read has its reserved bits 0 (10_state.md R44). -/
theorem NodeInfo.word_reserved (i : NodeInfo) : i.word.extractLsb' 25 5 = 0#5 ∧ i.word.extractLsb' 9 7 = 0#7 := by
  cases i with
  | absent | leaf => decide
  | inner l r =>
    have hw := NodeInfo.word_inner_toNat l r
    constructor <;> apply BitVec.eq_of_toNat_eq <;> rw [toNat_extractLsb', hw, BitVec.toNat_ofNat] <;> omega

/-- NODE_INFO of an internal node as read (10_state.md R44). -/
theorem NodeInfo.word_inner_fields (l r : NodeId) :
    (NodeInfo.inner l r).word.getLsbD 31 = true ∧ (NodeInfo.inner l r).word.getLsbD 30 = true ∧
    ((NodeInfo.inner l r).word.extractLsb' 16 9).toNat = r.val ∧
    ((NodeInfo.inner l r).word.extractLsb' 0 9).toNat = l.val := by
  have hw := NodeInfo.word_inner_toNat l r
  refine ⟨getLsbD_eq_of_div_mod ?_, getLsbD_eq_of_div_mod ?_, ?_, ?_⟩
  · rw [hw, Bool.toNat_true]; omega
  · rw [hw, Bool.toNat_true]; omega
  · rw [toNat_extractLsb', hw]; omega
  · rw [toNat_extractLsb', hw]; omega

/-- Settles O15: each window address is that of its entry, and a buffer read is its bytes. -/
theorem windowReadValues : Obligations.WindowReadValues := by
  intro s hb read
  have hread : ∀ c : Csr, read c.offset = { resp := .okay, rdata := (s.readCsr c).2 } := fun c =>
    transact_read_csr (.inr hb)
  refine ⟨fun c => hread (.freq c), fun c => ?lengths, fun c j => ?codes, fun n => hread (.nodeCnt n), fun n => ?info,
    fun n a hcfg halign hin => ?ibuf, fun n a hcfg halign hin => ?obuf⟩
  case lengths => exact read_csr_toNat (c := .ctabLen c) (.inr hb) (BitVec.toNat_setWidth_of_le (by decide))
  case codes =>
    have h := hread (.ctabCode c j)
    simp only [Csr.offset, State.readCsr] at h
    rw [h]
    exact ⟨rfl, fun k hk => codeWindow_getLsbD _ j hk⟩
  case info =>
    have h := hread (.nodeInfo n)
    simp only [Csr.offset, State.readCsr] at h
    obtain ⟨hres, hres'⟩ := s.nodeInfo[n].word_reserved
    rw [h]
    refine ⟨rfl, hres, hres', ?_⟩
    cases s.nodeInfo[n] with
    | absent => rfl
    | leaf => decide
    | inner l r => exact NodeInfo.word_inner_fields l r
  case ibuf =>
    intro reply
    have h : reply = _ := transact_read_ibuf hb hcfg halign hin
    obtain ⟨hlt, hbytes⟩ := bufferRead_bytes s.ibuf n a
    rw [h]
    exact ⟨rfl, hlt, hbytes⟩
  case obuf =>
    intro reply
    have h : reply = _ := transact_read_obuf hb hcfg halign hin
    obtain ⟨hlt, hbytes⟩ := bufferRead_bytes s.obuf n a
    rw [h]
    exact ⟨rfl, hlt, hbytes⟩

/-! ## Writes of IBUF (10_state.md R47) -/

theorem transact_write_ibuf {s : State} (hb : s.busy = false) (hcfg : s.cfg.wellFormed = true) {n : Size} {a : Nat}
    (halign : a % n.bytes = 0) (hin : a + n.bytes ≤ s.cfg.ibufBytes) (v : Word) :
    transact (.write n (ibufAddr a) v) s = (s.writeTarget n v (.ibuf a), { resp := .okay, rdata := 0 }) :=
  transact_write (resolve_ibufAddr hcfg halign hin) (by simp [hb])

theorem State.writeTarget_ibuf (s : State) (n : Size) (v : Word) (a : Nat) :
    (s.writeTarget n v (.ibuf a)).ibuf = s.ibuf.writeBytes a (toLittleEndian n.bytes v.toNat) := rfl

/-- Settles O10: the write stores the bytes of the value, of which a read makes it again. -/
theorem ibufWriteStoresLittleEndian : Obligations.IbufWriteStoresLittleEndian := by
  intro s n a v hb hcfg hwf halign hin addr t
  have hwrite : transact (.write n addr v) s = _ := transact_write_ibuf hb hcfg halign hin v
  have ht : t = _ := congrArg Prod.fst hwrite
  clear_value t
  subst ht
  have hread := Memory.read_writeBytes (toLittleEndian n.bytes v.toNat) s.ibuf a (h := hwf)
  have hbytes := Memory.readBytes_writeBytes s.ibuf a (toLittleEndian n.bytes v.toNat) hwf
  rw [toLittleEndian_length] at hread hbytes
  refine ⟨congrArg (fun x => x.2.resp) hwrite, fun k hk => ?stored, fun b hout => ?kept,
    fun st => by cases st <;> rfl, rfl, ?back⟩
  case stored =>
    rw [State.writeTarget_ibuf, hread, if_pos (by omega), Nat.add_sub_cancel_left, toLittleEndian_getD hk]
  case kept =>
    rw [State.writeTarget_ibuf, hread, if_neg (by omega)]
  case back =>
    refine (transact_read_ibuf (s := s.writeTarget n v (.ibuf a)) hb hcfg halign hin).trans ?_
    rw [State.writeTarget_ibuf, hbytes, littleEndian_toLittleEndian, show 256 = 2 ^ 8 from rfl, ← Nat.pow_mul]

end Sys2Proof.Machine
end

section
/-!
A memory in canonical form is what its reads are (O54; log 5).
-/

namespace Sys2Proof.Machine

/-- What the first cell of a canonical memory lists is not blank, and every lower address is. -/
theorem Memory.read_of_wf_cons {c : Host.Cell} {m : Memory} (h : Memory.wf (c :: m) = true) :
    Memory.read (c :: m) c.1 ≠ Memory.blank ∧ (∀ a, a < c.1 → Memory.read (c :: m) a = Memory.blank) ∧
    m.read c.1 = Memory.blank := by
  obtain ⟨hv, hlt, _⟩ := (Memory.wf_cons c m).1 h
  refine ⟨by simpa using hv, fun a ha => Memory.read_below _ a ?_, Memory.read_below m c.1 hlt⟩
  intro d hd
  rcases List.mem_cons.1 hd with rfl | hd
  · exact ha
  · exact ha.trans (hlt d hd)

/-- Settles O54: the first listed addresses agree, since each is the lowest that is not blank, and so do the cells there and
the rest. -/
theorem canonicalMemoriesReadingAlikeAreEqual : Obligations.CanonicalMemoriesReadingAlikeAreEqual := by
  intro m₁
  induction m₁ with
  | nil =>
    intro m₂ _ h₂ hread
    cases m₂ with
    | nil => rfl
    | cons d m₂ => exact absurd (hread d.1).symm (Memory.read_of_wf_cons h₂).1
  | cons c m₁ ih =>
    intro m₂ h₁ h₂ hread
    obtain ⟨hc, hbelow₁, hrest₁⟩ := Memory.read_of_wf_cons h₁
    cases m₂ with
    | nil => exact absurd (hread c.1) hc
    | cons d m₂ =>
      obtain ⟨hd, hbelow₂, hrest₂⟩ := Memory.read_of_wf_cons h₂
      have haddr : c.1 = d.1 := by
        rcases Nat.lt_trichotomy c.1 d.1 with hlt | heq | hgt
        · exact absurd ((hread c.1).trans (hbelow₂ c.1 hlt)) hc
        · exact heq
        · exact absurd ((hread d.1).symm.trans (hbelow₁ d.1 hgt)) hd
      have hval : c.2 = d.2 := by simpa [haddr] using hread c.1
      obtain ⟨_, _, hwf₁⟩ := (Memory.wf_cons c m₁).1 h₁
      obtain ⟨_, _, hwf₂⟩ := (Memory.wf_cons d m₂).1 h₂
      have hrest : ∀ a, Memory.read m₁ a = Memory.read m₂ a := fun a => by
        by_cases ha : a = c.1
        · rw [ha, hrest₁, haddr, hrest₂]
        · simpa [ha, haddr ▸ ha] using hread a
      rw [Prod.ext haddr hval, ih m₂ hwf₁ hwf₂ hrest]

end Sys2Proof.Machine
end

section
/-!
The host port: the checks of a transaction in their order (O5), the transactions refused while BUSY (O6), reads without side
effects (O8), and ignored writes (O11).
-/

namespace Sys2Proof.Machine

/-! ## The checks before the busy check (20_memory.md R71, R72) -/

theorem regionOf_eq_csr_iff {cfg : Config} {a n : Nat} : regionOf cfg a n = some .csr ↔ a + n ≤ 0x4000 := by
  unfold regionOf
  split_ifs with hcsr <;> simp [hcsr]

theorem regionOf_eq_none_iff {cfg : Config} {a n : Nat} :
    regionOf cfg a n = none ↔ ¬ (a + n ≤ 0x4000 ∨ (ibufBase ≤ a ∧ a + n ≤ ibufBase + cfg.ibufBytes) ∨
      (obufBase ≤ a ∧ a + n ≤ obufBase + cfg.obufBytes)) := by
  unfold regionOf
  split_ifs with hcsr hibuf hobuf <;> simp [*]

section Checks

variable {cfg : Config} {n : Size} {addr : Word}

theorem resolve_of_no_region (hr : regionOf cfg addr.toNat n.bytes = none) : resolve cfg n addr = .error .decerr := by
  simp [resolve, hr]

theorem resolve_of_misaligned (hr : regionOf cfg addr.toNat n.bytes ≠ none) (ha : addr.toNat % n.bytes ≠ 0) :
    resolve cfg n addr = .error .slverr := by
  obtain ⟨r, hr⟩ := Option.ne_none_iff_exists'.1 hr
  simp [resolve, hr, ha]

theorem resolve_of_narrow_csr (hr : addr.toNat + n.bytes ≤ 0x4000) (ha : addr.toNat % n.bytes = 0) (hn : n ≠ .word) :
    resolve cfg n addr = .error .slverr := by
  simp [resolve, regionOf_eq_csr_iff.2 hr, ha, hn]

theorem resolve_of_unlisted_csr (hr : addr.toNat + Size.word.bytes ≤ 0x4000) (ha : addr.toNat % Size.word.bytes = 0)
    (hc : ∀ c : Csr, c.offset ≠ addr.toNat) : resolve cfg .word addr = .error .decerr := by
  have hoff : Csr.ofOffset addr.toNat = none :=
    Option.eq_none_iff_forall_ne_some.2 fun c h => hc c (Csr.offset_of_ofOffset h)
  simp [resolve, regionOf_eq_csr_iff.2 hr, ha, hoff]

/-- An aligned access inside a region other than that of the CSRs reaches its buffer. -/
theorem exists_resolve_of_buffer (hr : regionOf cfg addr.toNat n.bytes ≠ none) (hcsr : ¬ addr.toNat + n.bytes ≤ 0x4000)
    (ha : addr.toNat % n.bytes = 0) : ∃ target, resolve cfg n addr = .ok target := by
  obtain ⟨r, hr⟩ := Option.ne_none_iff_exists'.1 hr
  cases r with
  | csr => exact absurd (regionOf_eq_csr_iff.1 hr) hcsr
  | ibuf => exact ⟨.ibuf (addr.toNat - ibufBase), by simp [resolve, hr, ha]⟩
  | obuf => exact ⟨.obuf (addr.toNat - obufBase), by simp [resolve, hr, ha]⟩

theorem eq_csrAddr_of_offset {c : Csr} (h : c.offset = addr.toNat) : addr = csrAddr c := by
  simp [csrAddr, h]

/-- Only a word access at its own offset reaches a register or window entry. -/
theorem eq_csrAddr_of_resolve {c : Csr} (h : resolve cfg n addr = .ok (.csr c)) : n = .word ∧ addr = csrAddr c := by
  unfold resolve at h
  split at h
  · cases h
  · rename_i r _
    split at h
    · cases h
    · cases r with
      | ibuf | obuf => cases h
      | csr =>
        simp only at h
        split at h
        · cases h
        next hn =>
          split at h
          next hoff =>
            cases h
            exact ⟨not_not.1 hn, eq_csrAddr_of_offset (Csr.offset_of_ofOffset hoff)⟩
          next => cases h

end Checks

/-! ## Refused transactions -/

section Refused

variable {s : State} {n : Size} {addr v : Word} {t : Txn}

theorem transact_of_resolve_error {r : Resp} (ht : t = .read n addr ∨ t = .write n addr v)
    (hr : resolve s.cfg n addr = .error r) : transact t s = (s, { resp := r, rdata := 0 }) := by
  rcases ht with rfl | rfl <;> simp [transact, hr]

theorem transact_read_refused {target : Target} (hr : resolve s.cfg n addr = .ok target) (hg : target.readGated = true)
    (hb : s.busy = true) : transact (.read n addr) s = (s, { resp := .slverr, rdata := 0 }) := by
  simp [transact, hr, hg, hb]

theorem transact_write_refused {target : Target} (hr : resolve s.cfg n addr = .ok target) (hg : target.writeGated = true)
    (hb : s.busy = true) : transact (.write n addr v) s = (s, { resp := .slverr, rdata := 0 }) := by
  simp [transact, hr, hg, hb]

/-- A transaction that reaches a target is OKAY, or refused while BUSY. -/
theorem transact_resp_of_resolve {target : Target} (ht : t = .read n addr ∨ t = .write n addr v)
    (hr : resolve s.cfg n addr = .ok target) :
    (transact t s).2.resp = .okay ∨ ((transact t s).2.resp = .slverr ∧ s.busy = true) := by
  rcases ht with rfl | rfl
  · cases hg : target.readGated && s.busy
    · simp [transact_read hr hg]
    · obtain ⟨hgate, hb⟩ := Bool.and_eq_true_iff.1 hg
      simp [transact_read_refused hr hgate hb, hb]
  · cases hg : target.writeGated && s.busy
    · simp [transact_write hr hg]
    · obtain ⟨hgate, hb⟩ := Bool.and_eq_true_iff.1 hg
      simp [transact_write_refused hr hgate hb, hb]

end Refused

/-- Settles O5: each check by its case of `resolve`, and past them all only the busy check is left. -/
theorem transactionChecksInOrder : Obligations.TransactionChecksInOrder := by
  intro s n addr v t ht a inCsr inIbuf inObuf response
  have hnone : regionOf s.cfg a n.bytes = none ↔ ¬ (inCsr ∨ inIbuf ∨ inObuf) := regionOf_eq_none_iff
  have hrefused : ∀ r, resolve s.cfg n addr = .error r → response = r := fun _ hr =>
    congrArg (fun x => x.2.resp) (transact_of_resolve_error ht hr)
  have hreached : (∃ target, resolve s.cfg n addr = .ok target) → response = .okay ∨ (response = .slverr ∧ s.busy = true) :=
    fun ⟨_, hr⟩ => transact_resp_of_resolve ht hr
  refine ⟨fun h₁ h₂ h₃ => hrefused _ (resolve_of_no_region (hnone.2 (not_or.2 ⟨h₁, not_or.2 ⟨h₂, h₃⟩⟩))),
    fun hin ha => hrefused _ (resolve_of_misaligned (fun h => hnone.1 h hin) ha),
    fun hin ha hn => hrefused _ (resolve_of_narrow_csr hin ha hn), ?unlisted, fun ha hin => hreached ?_⟩
  case unlisted =>
    rintro hin ha rfl hc
    exact hrefused _ (resolve_of_unlisted_csr hin ha hc)
  have hbuffer : inIbuf ∨ inObuf → ∃ target, resolve s.cfg n addr = .ok target := fun hin => by
    have hcsr : ¬ addr.toNat + n.bytes ≤ 0x4000 := by
      rcases hin with ⟨hlow, _⟩ | ⟨hlow, _⟩ <;> omega
    exact exists_resolve_of_buffer (fun h => hnone.1 h (.inr hin)) hcsr ha
  rcases hin with hin | hin | ⟨_, rfl, c, hc⟩
  · exact hbuffer (.inl hin)
  · exact hbuffer (.inr hin)
  · exact ⟨.csr c, eq_csrAddr_of_offset hc ▸ resolve_csrAddr s.cfg c⟩

/-! ## Reads (20_memory.md R78, 10_state.md R40) -/

/-- The cycle counters, whose read while BUSY is a draw (10_state.md R40). -/
def cycleCounters : List Csr := [.cycCount, .cycBuild, .cycGencode, .cycEncode, .cycPack]

theorem map_csrAddr_cycleCounters : cycleCounters.map csrAddr = [0x044#32, 0x048#32, 0x04C#32, 0x050#32, 0x054#32] := rfl

/-- A read of anything but a cycle counter leaves the state. -/
theorem State.readTarget_of_notMem {s : State} {n : Size} {target : Target} (hc : target ∉ cycleCounters.map Target.csr) :
    (s.readTarget n target).1 = s := by
  cases target with
  | ibuf a | obuf a => rfl
  | csr c =>
    cases c
    case cycCount | cycBuild | cycGencode | cycEncode | cycPack => simp [cycleCounters] at hc
    all_goals rfl

theorem State.readCycles_busy {s : State} (hb : s.busy = true) (st : Stage) :
    s.readCycles st = ({ s with draws := s.draws + 1 }, Config.freeRead s.draws) := by
  simp [State.readCycles, hb]

theorem State.readCsr_cycleCounter {s : State} (hb : s.busy = true) {c : Csr} (hc : c ∈ cycleCounters) :
    (s.readCsr c).1 = { s with draws := s.draws + 1 } := by
  simp only [cycleCounters, List.mem_cons, List.not_mem_nil, or_false] at hc
  rcases hc with rfl | rfl | rfl | rfl | rfl <;> exact congrArg Prod.fst (State.readCycles_busy hb _)

theorem readGated_of_mem_cycleCounters : ∀ c ∈ cycleCounters, c.readGated = false := by decide

/-- What a read leaves: the state, unless it draws the value of a cycle counter while BUSY. -/
theorem transact_read_state (s : State) (n : Size) (addr : Word) :
    (transact (.read n addr) s).1 = s ∨
    (s.busy = true ∧ addr ∈ cycleCounters.map csrAddr ∧
      (transact (.read n addr) s).1 = { s with draws := s.draws + 1 }) := by
  cases hr : resolve s.cfg n addr with
  | error r => exact .inl (congrArg Prod.fst (transact_of_resolve_error (v := 0) (.inl rfl) hr))
  | ok target =>
    cases hg : target.readGated && s.busy with
    | true =>
      obtain ⟨hgate, hb⟩ := Bool.and_eq_true_iff.1 hg
      exact .inl (congrArg Prod.fst (transact_read_refused hr hgate hb))
    | false =>
      rw [transact_read hr hg]
      by_cases hc : target ∈ cycleCounters.map Target.csr
      · obtain ⟨c, hmem, rfl⟩ := List.mem_map.1 hc
        obtain ⟨_, rfl⟩ := eq_csrAddr_of_resolve hr
        exact (s.readCsr_state c).imp_right fun ⟨hb, h⟩ => ⟨hb, List.mem_map_of_mem hmem, h⟩
      · exact .inl (State.readTarget_of_notMem hc)

/-- Settles O8: a read that does not draw leaves the state it found, so that the same read gives the same reply. -/
theorem readsHaveNoSideEffects : Obligations.ReadsHaveNoSideEffects := by
  intro s n addr
  rw [← map_csrAddr_cycleCounters]
  refine ⟨?frame, fun hquiet => ?quiet, fun hb haddr => ?draw⟩
  case frame =>
    rcases transact_read_state s n addr with h | ⟨_, _, h⟩ <;> rw [h]
  case quiet =>
    have hkept : (transact (.read n addr) s).1 = s := by
      rcases transact_read_state s n addr with h | ⟨hb, haddr, _⟩
      · exact h
      · rcases hquiet with hidle | hother
        · simp [hb] at hidle
        · exact absurd haddr hother
    rw [hkept]
    exact ⟨rfl, rfl⟩
  case draw =>
    obtain ⟨c, hc, rfl⟩ := List.mem_map.1 haddr
    rw [transact_read (resolve_csrAddr s.cfg c) (by simp [Target.readGated, readGated_of_mem_cycleCounters c hc])]
    exact ⟨rfl, congrArg State.draws (State.readCsr_cycleCounter hb hc)⟩

/-! ## Writes of what the host cannot write (20_memory.md R81) -/

/-- The write of a register or window entry the host cannot write is not refused while BUSY, and has no effect. -/
theorem State.writeCsr_readOnly {c : Csr} (hc : c ∉ [.cmd, .len, .nw, .irqEn, .irqStat]) (s : State) (v : Word) :
    c.writeGated = false ∧ s.writeCsr v c = s := by
  cases c
  case cmd | len | nw | irqEn | irqStat => simp at hc
  all_goals exact ⟨rfl, rfl⟩

theorem transact_write_readOnly {s : State} {n : Size} {addr v : Word} {target : Target}
    (hr : resolve s.cfg n addr = .ok target)
    (h : (∃ c, target = .csr c ∧ c ∉ [.cmd, .len, .nw, .irqEn, .irqStat]) ∨ ∃ a, target = .obuf a) :
    transact (.write n addr v) s = (s, { resp := .okay, rdata := 0 }) := by
  rcases h with ⟨c, rfl, hc⟩ | ⟨a, rfl⟩
  · obtain ⟨hg, hkept⟩ := State.writeCsr_readOnly hc s v
    rw [transact_write hr (by simp [Target.writeGated, hg]), State.writeTarget, hkept]
  · exact transact_write hr rfl

/-- Settles O11: the addresses reach an entry that the host cannot write, or OBUF. -/
theorem readOnlyWritesAreIgnored : Obligations.ReadOnlyWritesAreIgnored :=
  ⟨fun s _ c hc => transact_write_readOnly (resolve_csrAddr s.cfg c) (.inl ⟨c, rfl, hc⟩),
    fun _ _ _ a hcfg halign hin => transact_write_readOnly (resolve_obufAddr hcfg halign hin) (.inr ⟨a, rfl⟩)⟩

/-! ## Busy gating (20_memory.md R80) -/

/-- The reads refused while BUSY are those of the result registers, the five windows, IBUF and OBUF (20_memory.md R80). -/
theorem Target.readGated_iff (target : Target) : target.readGated = true ↔
    target ∈ [.csr .nsym, .csr .root, .csr .rawBits, .csr .encBits, .csr .outLen, .csr .maxLen] ∨
    (∃ c, target = .csr (.freq c)) ∨ (∃ c, target = .csr (.ctabLen c)) ∨ (∃ c j, target = .csr (.ctabCode c j)) ∨
    (∃ i, target = .csr (.nodeCnt i)) ∨ (∃ i, target = .csr (.nodeInfo i)) ∨ (∃ a, target = .ibuf a) ∨
    (∃ a, target = .obuf a) := by
  cases target with
  | ibuf a => simp [Target.readGated]
  | obuf a => simp [Target.readGated]
  | csr c => cases c <;> simp [Target.readGated, Csr.readGated]

/-- The writes refused while BUSY are those of CMD, LEN, NW and IBUF (20_memory.md R80). -/
theorem Target.writeGated_iff (target : Target) :
    target.writeGated = true ↔ target ∈ [.csr .cmd, .csr .len, .csr .nw] ∨ ∃ a, target = .ibuf a := by
  cases target with
  | ibuf a => simp [Target.writeGated]
  | obuf a => simp [Target.writeGated]
  | csr c => cases c <;> simp [Target.writeGated, Csr.writeGated]

/-- Of what a read returns, STATUS and a cycle counter alone depend on SEQ. -/
theorem State.readTarget_idle {s : State} {n : Size} {target : Target} (hc : target ∉ cycleCounters.map Target.csr)
    (hs : target ≠ .csr .status) :
    (({ s with seq := .idle } : State).readTarget n target).2 = (s.readTarget n target).2 := by
  cases target with
  | ibuf a | obuf a => rfl
  | csr c =>
    cases c
    case status => exact absurd rfl hs
    case cycCount | cycBuild | cycGencode | cycEncode | cycPack => simp [cycleCounters] at hc
    all_goals rfl

/-- A write that is not refused while BUSY neither reads nor writes SEQ. -/
theorem State.writeTarget_idle {s : State} {n : Size} {v : Word} {target : Target} (hg : target.writeGated = false) :
    { ({ s with seq := .idle } : State).writeTarget n v target with seq := s.seq } = s.writeTarget n v target := by
  cases target with
  | ibuf a => cases hg
  | obuf a => rfl
  | csr c =>
    cases c
    case cmd | len | nw => cases hg
    all_goals rfl

/-- Settles O6: the listed targets are the gated ones, and what is not gated is performed as with SEQ idle. -/
theorem busyGatingRefusesExactlyTheListed : Obligations.BusyGatingRefusesExactlyTheListed := by
  intro s n addr v target hb hr readListed writeListed counter
  have hread : ¬ readListed → (target.readGated && s.busy) = false := fun h => by
    simpa [hb] using mt target.readGated_iff.1 h
  have hwrite : ¬ writeListed → target.writeGated = false := fun h => by
    simpa using mt target.writeGated_iff.1 h
  have hperformed : target.writeGated = false →
      transact (.write n addr v) s = (s.writeTarget n v target, { resp := .okay, rdata := 0 }) := fun hg =>
    transact_write hr (by simp [hg])
  refine ⟨fun h => transact_read_refused hr (target.readGated_iff.2 h) hb, fun h => transact_read hr (hread h),
    fun h hc hs => ?readAsIdle, ?status, fun h => transact_write_refused hr (target.writeGated_iff.2 h) hb,
    fun h => hperformed (hwrite h), fun h => ?writeAsIdle, transact_write_readOnly hr⟩
  case readAsIdle =>
    have hidle : transact (.read n addr) { s with seq := .idle } = _ :=
      transact_read (s := { s with seq := .idle }) hr (by simp [State.busy])
    rw [transact_read hr (hread h), hidle, State.readTarget_idle hc hs, State.readTarget_of_notMem hc]
  case status =>
    rintro rfl
    exact transact_read hr rfl
  case writeAsIdle =>
    have hidle : transact (.write n addr v) { s with seq := .idle } = _ :=
      transact_write (s := { s with seq := .idle }) hr (by simp [hwrite h])
    rw [hperformed (hwrite h), hidle, State.writeTarget_idle (hwrite h)]

end Sys2Proof.Machine
end

section
/-!
The command word (O1, O2): the decoder by the two fields of the word, the words it accepts, and what an illegal one prints as.
-/

namespace Sys2Proof.Machine

/-! ## The fields of a word (30_encoding.md R100) -/

theorem word_eq_iff_fields (w w' : Word) : w = w' ↔ rsvField w = rsvField w' ∧ opField w = opField w' := by
  refine ⟨fun h => h ▸ ⟨rfl, rfl⟩, fun ⟨hr, ho⟩ => BitVec.eq_of_toNat_eq ?_⟩
  have hr' : w.toNat / 2 ^ 8 % 2 ^ 24 = w'.toNat / 2 ^ 8 % 2 ^ 24 := by
    simpa only [rsvField, toNat_extractLsb'] using congrArg BitVec.toNat hr
  have ho' : w.toNat / 2 ^ 0 % 2 ^ 8 = w'.toNat / 2 ^ 0 % 2 ^ 8 := by
    simpa only [opField, toNat_extractLsb'] using congrArg BitVec.toNat ho
  omega

theorem rsvField_encode (i : Instr) : rsvField (encode i) = 0 := by cases i <;> rfl

/-! ## The decoder (30_encoding.md R101, R102) -/

theorem decodeOp_opField_encode (i : Instr) : decodeOp (opField (encode i)) = .ok i := by cases i <;> rfl

/-- An opcode in the map is that of the command it is read as. -/
theorem opField_encode_of_decodeOp {op : Byte} {i : Instr} (h : decodeOp op = .ok i) : op = opField (encode i) := by
  unfold decodeOp at h
  split at h
  case h_9 => cases h
  all_goals
    rename_i hop
    cases h
    exact BitVec.eq_of_toNat_eq hop

theorem decodeOp_eq_ok_iff {op : Byte} {i : Instr} : decodeOp op = .ok i ↔ op = opField (encode i) :=
  ⟨opField_encode_of_decodeOp, fun h => h ▸ decodeOp_opField_encode i⟩

theorem exists_decodeOp_iff {op : Byte} : (∃ i, decodeOp op = .ok i) ↔ op.toNat ≤ 0x07 := by
  constructor
  · rintro ⟨i, h⟩
    rw [opField_encode_of_decodeOp h]
    cases i <;> decide
  · intro h
    interval_cases hop : op.toNat <;> simp [decodeOp, hop]

theorem decode_eq_ok_iff_fields {w : Word} {i : Instr} :
    decode w = .ok i ↔ rsvField w = 0 ∧ decodeOp (opField w) = .ok i := by
  by_cases hr : rsvField w = 0#24 <;> simp [decode, hr]

/-- Decoding is the inverse of encoding. -/
theorem decode_eq_ok_iff {w : Word} {i : Instr} : decode w = .ok i ↔ w = encode i := by
  rw [decode_eq_ok_iff_fields, decodeOp_eq_ok_iff, word_eq_iff_fields, rsvField_encode]

@[simp] theorem decode_encode (i : Instr) : decode (encode i) = .ok i := decode_eq_ok_iff.2 rfl

theorem exists_decode_iff {w : Word} : (∃ i, decode w = .ok i) ↔ rsvField w = 0 ∧ (opField w).toNat ≤ 0x07 := by
  simp only [decode_eq_ok_iff_fields, exists_and_left, exists_decodeOp_iff]

theorem exists_decode_error {w : Word} (h : ∀ i : Instr, w ≠ encode i) : ∃ e, decode w = .error e := by
  cases hd : decode w with
  | ok i => exact absurd (decode_eq_ok_iff.1 hd) (h i)
  | error e => exact ⟨e, rfl⟩

/-! ## Disassembly (30_encoding.md R109) -/

theorem disassemble_encode (i : Instr) : disassemble (encode i) = mnemonic i := by simp [disassemble]

theorem disassemble_illegal {w : Word} (h : ∀ i : Instr, w ≠ encode i) :
    disassemble w = ".illegal 0x" ++ hexWord w := by
  obtain ⟨e, he⟩ := exists_decode_error h
  simp [disassemble, he]

theorem digitChar_eq_hexDigit : ∀ d < 16, some (Nat.digitChar d) = "0123456789abcdef".toList[d]? := by decide

theorem hexWord_length (w : Word) : (hexWord w).toList.length = 8 := by simp [hexWord]

/-- Digit `k` of a printed word, the most significant first. -/
theorem hexWord_getElem? (w : Word) {k : Nat} (hk : k < 8) :
    (hexWord w).toList[k]? = "0123456789abcdef".toList[w.toNat / 16 ^ (7 - k) % 16]? := by
  rw [← digitChar_eq_hexDigit _ (Nat.mod_lt _ (by decide))]
  simp [hexWord, hk]

/-- Settles O2: a word is its two fields, and an illegal one prints as its digits. -/
theorem legalWordsAreExactlyTheEncodedOnes : Obligations.LegalWordsAreExactlyTheEncodedOnes := by
  refine ⟨fun w => exists_decode_iff, fun w i => decode_eq_ok_iff, disassemble_encode, fun w h =>
    ⟨(hexWord w).toList, hexWord_length w, ?_, fun k => hexWord_getElem? w⟩⟩
  rw [disassemble_illegal h, String.toList_append]

/-! ## The opcode map (30_encoding.md R101) -/

/-- Each stage has a command of its own, and "OP - 1 is the stage code". -/
theorem exists_stage_command {st : Stage} (h : st ≠ .zero) :
    ∃ i : Instr, stages i = [st] ∧ (encode i).toNat - 1 = st.code := by
  cases st with
  | zero => exact absurd rfl h
  | count => exact ⟨.count, rfl, rfl⟩
  | build => exact ⟨.build, rfl, rfl⟩
  | gencode => exact ⟨.gencode, rfl, rfl⟩
  | encode => exact ⟨.encode, rfl, rfl⟩
  | pack => exact ⟨.pack, rfl, rfl⟩

/-- Settles O1: a row for each command, the stage codes, and the command of each stage. -/
theorem opcodeMapWords : Obligations.OpcodeMapWords :=
  ⟨⟨decode_encode .nop, rfl, rfl, rfl⟩, ⟨decode_encode .clear, rfl, rfl, rfl⟩, ⟨decode_encode .count, rfl, rfl, rfl⟩,
    ⟨decode_encode .build, rfl, rfl, rfl⟩, ⟨decode_encode .gencode, rfl, rfl, rfl⟩, ⟨decode_encode .encode, rfl, rfl, rfl⟩,
    ⟨decode_encode .pack, rfl, rfl, rfl⟩, ⟨decode_encode .run, rfl, rfl, rfl⟩, ⟨rfl, rfl, rfl, rfl, rfl, rfl⟩,
    fun _ => exists_stage_command⟩

end Sys2Proof.Machine
end

section
/-!
The completion of an illegal word (O19), and a host at `wait` (O17).
-/

namespace Sys2Proof.Machine

/-! ## An illegal word -/

/-- An engine turn with an illegal word in SEQ is that word's engine step (40_command_sequencer.md R123). -/
theorem step_of_decode_error {s : State} {w : Word} {q : List Stage} {e : DecodeError} (ha : s.nextAgent = .engine)
    (hs : s.seq = .busy w q) (hd : decode w = .error e) : step s = illegalStep s.popSched := by
  simp [step, ha, State.fetch, hs, hd]

theorem illegalStep_of_atOnly {s : State} (h : s.atOnly .zero = true) :
    illegalStep s = .next (s.finishError .illegalCommand .zero) := by simp [illegalStep, h]

/-- Settles O19: the decoder answers an error, and the step is the completion with ILLEGAL_COMMAND. -/
theorem illegalWordCompletesWithError : Obligations.IllegalWordCompletesWithError := by
  intro s w hw ha hs
  obtain ⟨e, he⟩ := exists_decode_error hw
  have hzero : s.popSched.atOnly .zero = true := (State.atOnly_iff _ _).2 ⟨w, hs⟩
  rw [step_of_decode_error ha hs he, illegalStep_of_atOnly hzero]
  rfl

/-! ## A host at `wait` -/

/-- STATUS can be read in every state, and its read changes nothing (10_state.md R24, 20_memory.md R78). -/
theorem transact_read_status (s : State) :
    transact (.read .word (csrAddr .status)) s = (s, { resp := .okay, rdata := s.statusWord }) :=
  transact_read (resolve_csrAddr s.cfg .status) rfl

/-- The bit that `wait` polls is BUSY (10_state.md R24). -/
theorem State.statusWord_and_one (s : State) : s.statusWord &&& 1 = 0 ↔ s.busy = false := by
  have hand : s.statusWord &&& 1 = BitVec.setWidth 32 (BitVec.ofBool (s.statusWord.getLsbD 0)) :=
    BitVec.and_one_eq_setWidth_ofBool_getLsbD
  obtain ⟨hbusy, _⟩ := s.statusWord_fields
  rw [hand, hbusy]
  cases s.busy <;> decide

/-- Settles O17: the poll of STATUS goes on when BUSY is 0, and stays when it is 1. -/
theorem waitStaysUntilBusyFalls : Obligations.WaitStaysUntilBusyFalls := by
  intro s rest hp
  cases hb : s.busy with
  | false =>
    have hv := s.statusWord_and_one.2 hb
    rw [hostStep_of_poll_eq hp (by rwa [transact_read_status]), transact_read_status]
    rfl
  | true =>
    have hv := mt s.statusWord_and_one.1 (by simp [hb])
    rw [hostStep_of_poll_ne hp (by rwa [transact_read_status]), transact_read_status]
    rfl

end Sys2Proof.Machine
end

section
/-!
What a stage reads and writes, said once for all five (40_command_sequencer.md R125): no body reads SEQ, STATUS, IRQ_STAT, NW,
NLANES or a cycle counter. From this the stages of RUN (O40), the valid flags (O20) and the independence of the results from
the workers and from time (O44).
-/

namespace Sys2Proof.Machine

/-! ## What no body reads -/

/-- The part of the state that no body of a stage reads or writes. -/
structure Ambient where
  seq : Seq
  completion : Completion
  valid : Valid
  irqStat : BitVec 2
  nw : Word
  nlanes : Nat
  cyc : Cycles
  draws : Nat

/-- The ambient part of a state. -/
def State.ambient (s : State) : Ambient :=
  { seq := s.seq, completion := s.completion, valid := s.valid, irqStat := s.irqStat, nw := s.nw,
    nlanes := s.cfg.nlanes, cyc := s.cyc, draws := s.draws }

/-- The state with another ambient part. -/
def State.withAmbient (s : State) (a : Ambient) : State :=
  { s with
    cfg := { s.cfg with nlanes := a.nlanes }
    seq := a.seq
    completion := a.completion
    valid := a.valid
    irqStat := a.irqStat
    nw := a.nw
    cyc := a.cyc
    draws := a.draws }

/-- What `State.begun` does to the ambient part. -/
def Ambient.begun (a : Ambient) (st : Stage) : Ambient :=
  { a with valid := a.valid.clearFrom st, cyc := a.cyc.set (duration a.draws) st, draws := a.draws + 1 }

/-- The state with the valid flag of a stage set (40_command_sequencer.md R124). -/
def State.flagged (s : State) (st : Stage) : State := { s with valid := s.valid.setFlag st }

theorem State.withAmbient_ambient (s : State) : s.withAmbient s.ambient = s := rfl

theorem State.begun_withAmbient (s : State) (a : Ambient) (st : Stage) :
    (s.withAmbient a).begun st = (s.begun st).withAmbient (a.begun st) := rfl

/-- The parts of a stage's step: a check that reads of the ambient part the valid flags and whether NW is legal only, and what
is written on failure and by the body, which read and write none of it. -/
structure IsStage (check : State → Except Fault (Option ErrCode)) (onFail : ErrCode → State → State)
    (body : State → Except Fault State) : Prop where
  check_withAmbient (s : State) (a : Ambient) : a.valid = s.valid →
    (s.withAmbient a).workersLegal = s.workersLegal → check (s.withAmbient a) = check s
  onFail_withAmbient (e : ErrCode) (s : State) (a : Ambient) :
    onFail e (s.withAmbient a) = (onFail e s).withAmbient a
  body_withAmbient (s : State) (a : Ambient) : body (s.withAmbient a) = (body s).map fun u => u.withAmbient a

theorem isStage_count : IsStage countCheck noFailWrites countBody where
  check_withAmbient s a _ hw := by
    have hl : (s.withAmbient a).lengthLegal = s.lengthLegal := rfl
    simp only [countCheck, hw, hl]
  onFail_withAmbient _ _ _ := rfl
  body_withAmbient _ _ := rfl

theorem isStage_build : IsStage buildCheck noFailWrites buildBody where
  check_withAmbient s a hv _ := by
    have hv' : (s.withAmbient a).valid = s.valid := hv
    have hn : (s.withAmbient a).nsym = s.nsym := rfl
    simp only [buildCheck, hv', hn]
  onFail_withAmbient _ _ _ := rfl
  body_withAmbient s a := by
    have hf : (s.withAmbient a).freq = s.freq := rfl
    simp only [buildBody, hf]
    cases buildTree s.freq <;> rfl

theorem isStage_gencode : IsStage gencodeCheck noFailWrites gencodeBody where
  check_withAmbient s a hv _ := by
    have hv' : (s.withAmbient a).valid = s.valid := hv
    simp only [gencodeCheck, hv']
  onFail_withAmbient _ _ _ := rfl
  body_withAmbient s a := by
    have hi : (s.withAmbient a).nodeInfo = s.nodeInfo := rfl
    have hr : (s.withAmbient a).root = s.root := rfl
    simp only [gencodeBody, hi, hr]
    cases genCode s.nodeInfo s.root <;> rfl

theorem isStage_encode : IsStage encodeCheck encodeFailWrites encodeBody where
  check_withAmbient s a hv hw := by
    have hv' : (s.withAmbient a).valid = s.valid := hv
    have hl : (s.withAmbient a).lengthLegal = s.lengthLegal := rfl
    have he : (s.withAmbient a).encLength = s.encLength := rfl
    have ho : (s.withAmbient a).cfg.obufBytes = s.cfg.obufBytes := rfl
    simp only [encodeCheck, hv', hw, hl, he, ho]
  onFail_withAmbient e _ _ := by cases e <;> rfl
  body_withAmbient _ _ := rfl

theorem isStage_pack : IsStage packCheck noFailWrites packBody where
  check_withAmbient s a hv hw := by
    have hv' : (s.withAmbient a).valid = s.valid := hv
    simp only [packCheck, hv', hw]
  onFail_withAmbient _ _ _ := rfl
  body_withAmbient s a := by
    have hb : (s.withAmbient a).bbuf = s.bbuf := rfl
    have hl : (s.withAmbient a).packLength = s.packLength := rfl
    have ho : (s.withAmbient a).cfg.obufBytes = s.cfg.obufBytes := rfl
    simp only [packBody, hb, hl, ho]
    split_ifs <;> rfl

/-- The engine step of a command at a stage is the step of that stage, whichever the command. -/
theorem exists_isStage {st : Stage} (hst : st ≠ .zero) :
    ∃ check onFail body, IsStage check onFail body ∧
      ∀ (i : Instr) (s : State), s.performs i st = true → exec i s = stageStep st check onFail body s := by
  cases st with
  | zero => exact absurd rfl hst
  | count => exact ⟨_, _, _, isStage_count, fun _ _ => exec_of_performs_count⟩
  | build => exact ⟨_, _, _, isStage_build, fun _ _ => exec_of_performs_build⟩
  | gencode => exact ⟨_, _, _, isStage_gencode, fun _ _ => exec_of_performs_gencode⟩
  | encode => exact ⟨_, _, _, isStage_encode, fun _ _ => exec_of_performs_encode⟩
  | pack => exact ⟨_, _, _, isStage_pack, fun _ _ => exec_of_performs_pack⟩

/-! ## A stage under two ambient parts -/

section IsStage

variable {check : State → Except Fault (Option ErrCode)} {onFail : ErrCode → State → State}
  {body : State → Except Fault State}

theorem IsStage.onFail_ambient (h : IsStage check onFail body) (e : ErrCode) (s : State) :
    (onFail e s).ambient = s.ambient := by
  have hw := h.onFail_withAmbient e s s.ambient
  rw [s.withAmbient_ambient] at hw
  rw [hw]
  rfl

theorem IsStage.body_ambient (h : IsStage check onFail body) {s u : State} (hu : body s = .ok u) :
    u.ambient = s.ambient := by
  have hw := h.body_withAmbient s s.ambient
  rw [s.withAmbient_ambient, hu] at hw
  rw [Except.ok.inj hw]
  rfl

/-- A stage that goes on either failed, or set its flag and ended; in both the ambient part is that of its start up to then. -/
theorem IsStage.next (h : IsStage check onFail body) {st : Stage} {s t : State}
    (ht : stageStep st check onFail body s = .next t) :
    (∃ (e : ErrCode) (u : State), u.ambient = s.ambient.begun st ∧ t = u.finishError e st) ∨
    (∃ u : State, u.ambient = s.ambient.begun st ∧ t = (u.flagged st).advance) := by
  rcases stageStep_next ht with ⟨e, _, rfl⟩ | ⟨u, _, hu, rfl⟩
  · exact .inl ⟨e, _, h.onFail_ambient e (s.begun st), rfl⟩
  · exact .inr ⟨u, h.body_ambient hu, rfl⟩

/-- A stage answers alike under two ambient parts with the same valid flags that agree whether NW is legal: the same fault, the
same error, or the same results. -/
theorem IsStage.withAmbient_cases (h : IsStage check onFail body) (st : Stage) {s : State} {a : Ambient}
    (hv : a.valid = s.valid) (hw : (s.withAmbient a).workersLegal = s.workersLegal) :
    (∃ f, stageStep st check onFail body s = .fault f ∧
      stageStep st check onFail body (s.withAmbient a) = .fault f) ∨
    (∃ (e : ErrCode) (u : State), u.ambient = s.ambient.begun st ∧
      stageStep st check onFail body s = .next (u.finishError e st) ∧
      stageStep st check onFail body (s.withAmbient a) = .next ((u.withAmbient (a.begun st)).finishError e st)) ∨
    (∃ u : State, u.ambient = s.ambient.begun st ∧ stageStep st check onFail body s = .next (u.flagged st).advance ∧
      stageStep st check onFail body (s.withAmbient a) =
        .next ((u.withAmbient (a.begun st)).flagged st).advance) := by
  have hcheck : check ((s.withAmbient a).startStage st) = check (s.startStage st) :=
    h.check_withAmbient (s.startStage st) { a with valid := a.valid.clearFrom st } (by rw [hv]; rfl) hw
  have hbody := h.body_withAmbient (s.begun st) (a.begun st)
  rw [← s.begun_withAmbient] at hbody
  cases hc : check (s.startStage st) with
  | error f => exact .inl ⟨f, by simp [stageStep, hc], by simp [stageStep, hcheck, hc]⟩
  | ok o =>
    cases o with
    | some e =>
      refine .inr (.inl ⟨e, _, h.onFail_ambient e (s.begun st), stageStep_of_check hc, ?_⟩)
      rw [stageStep_of_check (hcheck.trans hc), ← h.onFail_withAmbient]
      rfl
    | none =>
      cases hu : body (s.begun st) with
      | error f =>
        rw [hu] at hbody
        simp only [State.begun] at hu hbody
        exact .inl ⟨f, by simp [stageStep, hc, hu], by simp [stageStep, hcheck, hc, hbody, Except.map]⟩
      | ok u =>
        rw [hu] at hbody
        exact .inr (.inr ⟨u, h.body_ambient hu, stageStep_of_body hc hu, stageStep_of_body (hcheck.trans hc) hbody⟩)

end IsStage

/-! ## What SEQ decides -/

/-- A command of one stage is refused where SEQ is not at that stage alone (log 12). -/
theorem exec_of_not_atOnly {i : Instr} {s : State} {st : Stage} (hi : stages i = [st]) (h : s.atOnly st = false) :
    exec i s = .refused .engineNotEnabled := by
  cases i <;> cases hi <;>
    simp [exec, execNop, execClear, execCount, execBuild, execGencode, execEncode, execPack, h]

/-- What a command does where SEQ is `q`: its stage `st` is performed, it has no step, or it is NOP or CLEAR. -/
inductive SeqDecides (i : Instr) (q : Seq) : Prop where
  | performs (st : Stage) (hst : st ≠ .zero) (h : ∀ s : State, s.seq = q → s.performs i st = true)
  | refused (h : ∀ s : State, s.seq = q → exec i s = .refused .engineNotEnabled)
  | nop (h : ∀ s : State, s.seq = q → exec i s = .next s.finishOk)
  | clear (h : ∀ s : State, s.seq = q → exec i s = .next s.clearAll.finishOk)

/-- SEQ alone decides for a command of one stage. -/
theorem seqDecides_of_single {i : Instr} {st : Stage} (hi : stages i = [st]) (q : Seq) : SeqDecides i q := by
  by_cases hq : ∃ w, q = .busy w [st]
  · have hat : ∀ s : State, s.seq = q → s.atOnly st = true := fun s hs => (s.atOnly_iff st).2 (hs ▸ hq)
    by_cases hst : st = .zero
    · subst hst
      cases i <;> cases hi
      · exact .nop fun s hs => by simp [exec, execNop, hat s hs]
      · exact .clear fun s hs => by simp [exec, execClear, hat s hs]
    · exact .performs st hst fun s hs => State.performs_of_atOnly (hat s hs) (by simp [hi]) hst
  · refine .refused fun s hs => exec_of_not_atOnly hi (Bool.eq_false_iff.2 fun hat => hq ?_)
    rw [← hs]
    exact (s.atOnly_iff st).1 hat

/-- SEQ alone decides for RUN, by the head of its list. -/
theorem seqDecides_run (q : Seq) : SeqDecides .run q := by
  match q with
  | .idle | .busy _ [] | .busy _ (.zero :: _) => exact .refused fun s hs => by simp [exec, execRun, hs]
  | .busy w (.count :: rest) | .busy w (.build :: rest) | .busy w (.gencode :: rest) | .busy w (.encode :: rest)
  | .busy w (.pack :: rest) =>
    exact .performs _ (by decide) fun s hs => (s.performs_iff _ _).2 ⟨w, rest, hs, by decide, by decide, .inl rfl⟩

/-- SEQ alone decides what a command does. -/
theorem seqDecides (i : Instr) (q : Seq) : SeqDecides i q := by
  cases i
  case run => exact seqDecides_run q
  all_goals exact seqDecides_of_single rfl q

end Sys2Proof.Machine
end

section
/-!
What every stage leaves of the sequencer: its flags (O20), the next stage of a RUN (O40), and the same results whatever the
workers and the time (O44).
-/

namespace Sys2Proof.Machine

/-! ## The valid flags -/

/-- The start of a stage keeps the flags of the earlier stages (40_command_sequencer.md R127). -/
theorem Valid.flag_clearFrom (v : Valid) {st : Stage} (hst : st ≠ .zero) (st' : Stage) :
    (v.clearFrom st).flag st' = (decide (st'.code < st.code) && v.flag st') := by
  cases st
  case zero => exact absurd rfl hst
  all_goals cases st' <;> rfl

theorem Valid.flag_setFlag (v : Valid) {st : Stage} (hst : st ≠ .zero) (st' : Stage) :
    (v.setFlag st).flag st' = (decide (st' = st) || v.flag st') := by
  cases st
  case zero => exact absurd rfl hst
  all_goals cases st' <;> rfl

/-- The end of a stage keeps DONE and ERR or sets DONE. -/
theorem State.advance_isError {s : State} (h : s.completion = .none) : s.advance.completion.isError = false := by
  rcases s.advance_cases with ha | ⟨_, _, _, _, _, ha⟩ <;> simp [ha, h, Completion.isError]

/-- A stage that goes on leaves an error and the flags of its start, or no error and its own flag set too. -/
theorem exec_flags {i : Instr} {s t : State} {st : Stage} (hp : s.performs i st = true) (ht : exec i s = .next t)
    (hnone : s.completion = .none) :
    (t.completion.isError = true ∧ FlagsStarted st s t) ∨ (t.completion.isError = false ∧ FlagsCompleted st s t) := by
  obtain ⟨w, rest, _, _, hst, _⟩ := (s.performs_iff i st).1 hp
  obtain ⟨check, onFail, body, hstage, hexec⟩ := exists_isStage hst
  rw [hexec i s hp] at ht
  rcases hstage.next ht with ⟨e, u, hu, rfl⟩ | ⟨u, hu, rfl⟩
  · have hvalid : u.valid = s.valid.clearFrom st := congrArg Ambient.valid hu
    exact .inl ⟨rfl, fun st' => by simp [hvalid, Valid.flag_clearFrom _ hst]⟩
  · have hvalid : u.valid = s.valid.clearFrom st := congrArg Ambient.valid hu
    have hcomp : (u.flagged st).completion = .none := (congrArg Ambient.completion hu).trans hnone
    refine .inr ⟨State.advance_isError hcomp, fun st' => ?_⟩
    simp [State.flagged, Valid.flag_setFlag _ hst, hvalid, Valid.flag_clearFrom _ hst]

/-- Settles O20: the flags of a stage's start, with its own set where it did not fail. -/
theorem stageStartClearsFlagsFromItsOwn : Obligations.StageStartClearsFlagsFromItsOwn := by
  intro i s t st hp ht hnone
  have hne : ∀ st' : Stage, st'.code ≠ st.code → st' ≠ st := fun _ h he => h (congrArg Stage.code he)
  rcases exec_flags hp ht hnone with ⟨he, hflag⟩ | ⟨he, hflag⟩ <;> simp only [hflag, he]
  · refine ⟨fun st' h => ?_, fun st' h => ?_, by simp⟩
    · rw [decide_eq_false (by omega), Bool.false_and]
    · rw [decide_eq_true h, Bool.true_and]
  · refine ⟨fun st' h => ?_, fun st' h => ?_, by simp⟩
    · rw [decide_eq_false (hne st' (by omega)), decide_eq_false (by omega), Bool.false_and, Bool.false_or]
    · rw [decide_eq_false (hne st' (by omega)), decide_eq_true h, Bool.true_and, Bool.false_or]

/-! ## A stage of RUN -/

/-- Two states that differ in SEQ alone differ in it alone before the end of a stage. -/
theorem State.withAmbient_seq {s u : State} {st : Stage} (hu : u.ambient = s.ambient.begun st) (q : Seq) :
    u.withAmbient (Ambient.begun { s.ambient with seq := q } st) = { u with seq := q } := by
  have h : Ambient.begun { s.ambient with seq := q } st = { u.ambient with seq := q } := by
    rw [hu]
    rfl
  rw [h]
  rfl

/-- Every stage is one of RUN's. -/
theorem mem_stages_run {st : Stage} (hst : st ≠ .zero) : st ∈ stages .run := by
  cases st
  case zero => exact absurd rfl hst
  all_goals decide

/-- Settles O40: the two states differ in SEQ alone, which the stage does not read before its end. -/
theorem runStageIsTheStageCommand : Obligations.RunStageIsTheStageCommand := by
  intro s w w' i st next rest hs hst hi
  obtain ⟨check, onFail, body, hstage, hexec⟩ := exists_isStage hst
  have hrun : exec .run s = stageStep st check onFail body s :=
    hexec .run s ((s.performs_iff _ _).2 ⟨w, _, hs, mem_stages_run hst, hst, .inl rfl⟩)
  have hown : exec i { s with seq := .busy w' [st] } =
      stageStep st check onFail body (s.withAmbient { s.ambient with seq := .busy w' [st] }) :=
    hexec i _ ((State.performs_iff _ _ _).2 ⟨w', [], rfl, by simp [hi], hst, .inr rfl⟩)
  rw [hrun, hown]
  rcases hstage.withAmbient_cases st (s := s) (a := { s.ambient with seq := .busy w' [st] }) rfl rfl with
    ⟨f, h, h'⟩ | ⟨e, u, hu, h, h'⟩ | ⟨u, hu, h, h'⟩ <;> rw [h, h']
  · rw [State.withAmbient_seq hu]
    simp only [State.finishError_fields, reduceCtorEq, if_false]
    rfl
  · have hseq : (u.flagged st).seq = .busy w (st :: next :: rest) := (congrArg Ambient.seq hu).trans hs
    have hcomp : u.completion = s.completion := congrArg Ambient.completion hu
    have hirq : u.irqStat = s.irqStat := congrArg Ambient.irqStat hu
    rw [State.withAmbient_seq hu, State.advance_last _ w' st rfl, State.advance_more _ _ _ _ _ hseq, ← hcomp, ← hirq]
    simp only [State.finishOk_fields, if_true]
    rfl

/-! ## Workers and time -/

/-- Only what `State.untimed` leaves out differs when the rest of the ambient part is that of the state. -/
theorem State.untimed_withAmbient {s : State} {a : Ambient} (hseq : a.seq = s.seq) (hcomp : a.completion = s.completion)
    (hvalid : a.valid = s.valid) (hirq : a.irqStat = s.irqStat) : (s.withAmbient a).untimed = s.untimed := by
  simp [State.untimed, State.withAmbient, hseq, hcomp, hvalid, hirq]

theorem State.untimed_finishError (s : State) (e : ErrCode) (st : Stage) :
    (s.finishError e st).untimed = s.untimed.finishError e st := rfl

theorem State.untimed_flagged_advance (s : State) (st : Stage) :
    (s.flagged st).advance.untimed = (s.untimed.flagged st).advance := by
  obtain ⟨cfg, seq⟩ := s
  rcases seq with _ | ⟨w, _ | ⟨st, _ | ⟨st', rest⟩⟩⟩ <;> rfl

/-- A state that differs in NW, NLANES and time only is the first under another ambient part. -/
theorem State.eq_withAmbient_of_untimed {s t : State} (h : s.untimed = t.untimed) : t = s.withAmbient t.ambient := by
  calc
    t = t.untimed.withAmbient t.ambient := rfl
    _ = s.untimed.withAmbient t.ambient := by rw [h]
    _ = s.withAmbient t.ambient := rfl

/-- Settles O44: the second state is the first under another ambient part, which decides neither a check nor a result. -/
theorem resultsDoNotDependOnWorkersOrTime : Obligations.ResultsDoNotDependOnWorkersOrTime := by
  intro i s s₂ hsame hw hw₂
  obtain ⟨a, rfl⟩ : ∃ a, s₂ = s.withAmbient a := ⟨_, State.eq_withAmbient_of_untimed hsame⟩
  have hseq : a.seq = s.seq := (congrArg State.seq hsame).symm
  have hcomp : a.completion = s.completion := (congrArg State.completion hsame).symm
  have hvalid : a.valid = s.valid := (congrArg State.valid hsame).symm
  have hirq : a.irqStat = s.irqStat := (congrArg State.irqStat hsame).symm
  have hlegal : (s.withAmbient a).workersLegal = s.workersLegal := by
    rw [(State.workersLegal_iff _).2 hw, (State.workersLegal_iff _).2 hw₂]
  cases seqDecides i s.seq with
  | refused h => rw [h s rfl, h (s.withAmbient a) hseq]
  | nop h =>
    rw [h s rfl, h (s.withAmbient a) hseq]
    exact congrArg State.finishOk hsame
  | clear h =>
    rw [h s rfl, h (s.withAmbient a) hseq]
    exact congrArg (fun u : State => u.clearAll.finishOk) hsame
  | performs st hst h =>
    obtain ⟨check, onFail, body, hstage, hexec⟩ := exists_isStage hst
    have huntimed : ∀ u : State, u.ambient = s.ambient.begun st → (u.withAmbient (a.begun st)).untimed = u.untimed := by
      intro u hu
      exact State.untimed_withAmbient (hseq.trans (congrArg Ambient.seq hu).symm)
        (hcomp.trans (congrArg Ambient.completion hu).symm)
        ((congrArg (fun v : Valid => v.clearFrom st) hvalid).trans (congrArg Ambient.valid hu).symm)
        (hirq.trans (congrArg Ambient.irqStat hu).symm)
    rw [hexec i s (h s rfl), hexec i (s.withAmbient a) (h _ hseq)]
    rcases hstage.withAmbient_cases st hvalid hlegal with ⟨f, h, h'⟩ | ⟨e, u, hu, h, h'⟩ | ⟨u, hu, h, h'⟩ <;> rw [h, h']
    · simp only [State.untimed_finishError, huntimed u hu]
    · simp only [State.untimed_flagged_advance, huntimed u hu]

end Sys2Proof.Machine
end

section
/-!
The checks that fail (O24, O29, O33, O37, O39): in what order, and what a failing stage leaves
(40_command_sequencer.md R129, R132).
-/

namespace Sys2Proof.Machine

/-! ## A failing stage -/

/-- A drawn duration is at least 1 (10_state.md R40). -/
theorem one_le_duration (n : Nat) : 1 ≤ (duration n).toNat := by
  have := (Config.freeDuration n).isLt
  rw [duration, BitVec.toNat_ofNat, Nat.mod_eq_of_lt (by omega)]
  omega

theorem Cycles.get_set_self (c : Cycles) (v : Word) {st : Stage} (hst : st ≠ .zero) : (c.set v st).get st = v := by
  cases st
  case zero => exact absurd rfl hst
  all_goals rfl

theorem Cycles.get_set_of_ne (c : Cycles) (v : Word) {st st' : Stage} (h : st' ≠ st) :
    (c.set v st).get st' = c.get st' := by
  cases st <;> cases st' <;> simp [Cycles.set, Cycles.get] at h ⊢

/-- A stage starts by clearing flags, and its counter is written whether it fails or not. -/
theorem State.begun_flags_counter (s : State) {st : Stage} (hst : st ≠ .zero) :
    FlagsStarted st s (s.begun st) ∧ CounterWritten st s (s.begun st) := by
  refine ⟨Valid.flag_clearFrom s.valid hst, ?_, fun st' h => Cycles.get_set_of_ne _ _ h⟩
  have hget : (s.begun st).cyc.get st = duration s.draws := Cycles.get_set_self _ _ hst
  rw [hget]
  exact one_le_duration s.draws

/-- A stage whose check answers an error completes with it and writes no result (40_command_sequencer.md R129). -/
theorem stageStep_failsWith {st : Stage} (hst : st ≠ .zero) {check : State → Except Fault (Option ErrCode)}
    {onFail : ErrCode → State → State} {body : State → Except Fault State} {s : State} {e : ErrCode}
    (hc : check (s.startStage st) = .ok (some e)) (hf : onFail e (s.begun st) = s.begun st) :
    ∃ t, stageStep st check onFail body s = .next t ∧ FailsWith e st s t := by
  obtain ⟨hflags, hcounter⟩ := s.begun_flags_counter hst
  refine ⟨(s.begun st).finishError e st, ?_, ⟨rfl, rfl, rfl⟩, hflags, hcounter,
    ⟨rfl, rfl, rfl, rfl, rfl, rfl, rfl, rfl, rfl⟩, ⟨rfl, rfl⟩, ⟨rfl, rfl, rfl⟩, ⟨rfl, rfl, rfl⟩, ⟨rfl, rfl, rfl⟩,
    fun _ => rfl, rfl⟩
  rw [stageStep_of_check hc]
  exact congrArg (fun u : State => Host.Outcome.next (u.finishError e st)) hf

/-! ## The operands -/

/-- NW is illegal iff it is 0 or negative (40_command_sequencer.md R130). -/
theorem State.workersLegal_eq_false_iff (s : State) : s.workersLegal = false ↔ s.nw = 0 ∨ s.nw.getLsbD 31 = true := by
  have hmsb : s.nw.getLsbD 31 = s.nw.msb := rfl
  have hzero : (0 : Word).toNat = 0 := rfl
  have := s.nw.isLt
  rw [hmsb, State.workersLegal, decide_eq_false_iff_not, BitVec.msb_eq_decide, BitVec.toInt_eq_toNat_cond,
    ← BitVec.toNat_inj, hzero, decide_eq_true_eq]
  split <;> omega

theorem State.workersLegal_of_nw (s : State) (h0 : s.nw ≠ 0) (h31 : s.nw.getLsbD 31 = false) : s.workersLegal = true := by
  rw [← Bool.not_eq_false, s.workersLegal_eq_false_iff, h31]
  exact fun h => h.elim h0 nofun

/-! ## The first check that fails -/

theorem countCheck_of_workers {s : State} (hw : s.workersLegal = false) :
    countCheck s = .ok (some .invalidWorkerCount) := by simp [countCheck, hw]

theorem countCheck_of_length {s : State} (hw : s.workersLegal = true) (hl : s.lengthLegal = false) :
    countCheck s = .ok (some .length) := by simp [countCheck, hw, hl]

theorem buildCheck_of_sequence {s : State} (hv : s.valid.freq = false) : buildCheck s = .ok (some .sequence) := by
  simp [buildCheck, hv]

theorem buildCheck_of_empty {s : State} (hv : s.valid.freq = true) (hn : s.nsym = 0) :
    buildCheck s = .ok (some .emptyInput) := by simp [buildCheck, hv, hn]

theorem gencodeCheck_of_sequence {s : State} (hv : s.valid.tree = false) : gencodeCheck s = .ok (some .sequence) := by
  simp [gencodeCheck, hv]

theorem encodeCheck_of_sequence {s : State} (hv : s.valid.ctab = false) : encodeCheck s = .ok (some .sequence) := by
  simp [encodeCheck, hv]

theorem encodeCheck_of_workers {s : State} (hv : s.valid.ctab = true) (hw : s.workersLegal = false) :
    encodeCheck s = .ok (some .invalidWorkerCount) := by simp [encodeCheck, hv, hw]

theorem encodeCheck_of_overflow {s : State} (hv : s.valid.ctab = true) (hw : s.workersLegal = true)
    (hl : s.lengthLegal = true) (ho : s.cfg.obufBytes < s.encLength / 8) : encodeCheck s = .ok (some .overflow) := by
  simp [encodeCheck, hv, hw, hl, ho]

theorem packCheck_of_sequence {s : State} (hv : s.valid.enc = false) : packCheck s = .ok (some .sequence) := by
  simp [packCheck, hv]

theorem packCheck_of_workers {s : State} (hv : s.valid.enc = true) (hw : s.workersLegal = false) :
    packCheck s = .ok (some .invalidWorkerCount) := by simp [packCheck, hv, hw]

/-! ## COUNT, BUILD, GENCODE and PACK -/

/-- Settles O24: NW is checked before LEN. -/
theorem countFailsOnWorkerCountThenLength : Obligations.CountFailsOnWorkerCountThenLength := by
  intro i s hp
  rw [exec_of_performs_count hp]
  refine ⟨fun hnw => ?workers, fun h0 h31 hlen => ?length⟩
  case workers =>
    exact stageStep_failsWith (by decide) (countCheck_of_workers (s.workersLegal_eq_false_iff.2 hnw)) rfl
  case length =>
    have hl : s.lengthLegal = false := decide_eq_false (Nat.not_le.2 hlen)
    exact stageStep_failsWith (by decide) (countCheck_of_length (s.workersLegal_of_nw h0 h31) hl) rfl

/-- Settles O29: FREQ_VALID, which the start of BUILD does not clear, is checked before NSYM. -/
theorem buildFailsOnSequenceThenEmptyInput : Obligations.BuildFailsOnSequenceThenEmptyInput := by
  intro i s hp
  rw [exec_of_performs_build hp]
  refine ⟨fun hv => stageStep_failsWith (by decide) (buildCheck_of_sequence hv) rfl, fun hv hn => ?_⟩
  have hcheck : buildCheck (s.startStage .build) = .ok (some .emptyInput) := buildCheck_of_empty hv hn
  obtain ⟨t, ht, hfail⟩ := stageStep_failsWith (onFail := noFailWrites) (body := buildBody) (by decide) hcheck rfl
  have ⟨_, hflags, _⟩ := hfail
  exact ⟨t, ht, hfail, (hflags .count).trans hv⟩

/-- Settles O33: the one check of GENCODE is TREE_VALID, which its start does not clear. -/
theorem gencodeFailsOnSequence : Obligations.GencodeFailsOnSequence := by
  intro i s hp hv
  rw [exec_of_performs_gencode hp]
  exact stageStep_failsWith (by decide) (gencodeCheck_of_sequence hv) rfl

/-- Settles O39: ENC_VALID, which the start of PACK does not clear, is checked before NW. -/
theorem packFailsOnSequenceThenWorkers : Obligations.PackFailsOnSequenceThenWorkers := by
  intro i s hp
  rw [exec_of_performs_pack hp]
  exact ⟨fun hv => stageStep_failsWith (by decide) (packCheck_of_sequence hv) rfl, fun hv hnw =>
    stageStep_failsWith (by decide) (packCheck_of_workers hv (s.workersLegal_eq_false_iff.2 hnw)) rfl⟩

/-! ## ENCODE -/

/-- The length of the stream by the bytes of IBUF (44_bit_encoder.md R211). -/
theorem State.rawLength_eq (s : State) :
    s.rawLength = ((List.range s.len.toNat).map fun k => s.ctabLen[symbolOfByte (s.ibuf.read k)].toNat).sum := by
  simp [State.rawLength, State.input, Memory.readBytes, State.codeLen, Function.comp_def]

/-- No code is longer than 255 bits (00_scope.md R7). -/
theorem State.rawLength_le (s : State) : s.rawLength ≤ 255 * s.len.toNat := by
  have h : ∀ n ∈ s.input.map fun b => s.codeLen (symbolOfByte b), n ≤ 255 := by
    intro n hn
    obtain ⟨b, _, rfl⟩ := List.mem_map.1 hn
    exact Nat.le_of_lt_succ (BitVec.isLt _)
  have hsum := List.sum_le_card_nsmul _ _ h
  rw [List.length_map, s.input_length, smul_eq_mul] at hsum
  rw [State.rawLength]
  omega

/-- The padding of R212 by remainders. -/
theorem ceil8_eq (x : Nat) : ceil8 x = x + (8 - x % 8) % 8 := by
  rw [ceil8]
  omega

/-- Where the input fits IBUF the two lengths fit their registers (00_scope.md R6, R7). -/
theorem State.lengths_lt {s : State} (hcfg : s.cfg.wellFormed = true) (hl : s.len.toNat ≤ s.cfg.ibufBytes) :
    s.rawLength < 2 ^ 32 ∧ s.encLength < 2 ^ 32 := by
  obtain ⟨hi, _⟩ := limits_of_wellFormed hcfg
  have := s.rawLength_le
  rw [State.encLength, ceil8_eq]
  omega

/-- Settles O37: CTAB_VALID, then NW, then the length of the stream; OVERFLOW alone writes the two lengths. -/
theorem encodeFailsOnSequenceWorkersOverflow : Obligations.EncodeFailsOnSequenceWorkersOverflow := by
  intro i s hp
  rw [exec_of_performs_encode hp]
  refine ⟨fun hv => ?sequence, fun hv hnw => ?workers, ?overflow⟩
  case sequence => exact stageStep_failsWith (by decide) (encodeCheck_of_sequence hv) rfl
  case workers =>
    exact stageStep_failsWith (by decide) (encodeCheck_of_workers hv (s.workersLegal_eq_false_iff.2 hnw)) rfl
  case overflow =>
    intro raw pad hv h0 h31 hcfg hlen hover
    have hraw : raw = s.rawLength := s.rawLength_eq.symm
    have henc : raw + pad = s.encLength := by rw [State.encLength, ceil8_eq, ← hraw]
    rw [henc] at hover
    have hcheck : encodeCheck (s.startStage .encode) = .ok (some .overflow) :=
      encodeCheck_of_overflow hv (s.workersLegal_of_nw h0 h31) (decide_eq_true hlen) hover
    obtain ⟨hflags, hcounter⟩ := s.begun_flags_counter (st := .encode) (by decide)
    obtain ⟨hrawLt, hencLt⟩ := State.lengths_lt hcfg hlen
    rw [henc, hraw]
    exact ⟨(s.begun .encode).putLengths.finishError .overflow .encode, stageStep_of_check hcheck,
      Nat.mod_eq_of_lt hrawLt, Nat.mod_eq_of_lt hencLt, ⟨rfl, rfl, rfl⟩, hflags, hcounter,
      ⟨rfl, rfl, rfl, rfl, rfl, rfl, rfl, rfl, rfl⟩, ⟨rfl, rfl⟩, ⟨rfl, rfl, rfl⟩, ⟨rfl, rfl, rfl⟩, rfl,
      fun _ => rfl, rfl⟩

end Sys2Proof.Machine
end

section
/-!
Acceptance (O3, O12), the engine's turn (O18), what a running command leaves alone (O48), and that it goes on (O53) and ends in
its fifth engine step at the latest (O43).
-/

namespace Sys2Proof.Machine

/-! ## Acceptance -/

@[simp] theorem stagesOfWord_encode (i : Instr) : stagesOfWord (encode i) = stages i := by simp [stagesOfWord]

theorem stagesOfWord_of_error {w : Word} {e : DecodeError} (h : decode w = .error e) : stagesOfWord w = [.zero] := by
  simp [stagesOfWord, h]

/-- Settles O3: an illegal word has the pseudo-stage, a command's word the stages of the command. -/
theorem stageListOfEveryWord : Obligations.StageListOfEveryWord := by
  refine ⟨fun w hw => ?_, stagesOfWord_encode .nop, stagesOfWord_encode .clear, stagesOfWord_encode .count,
    stagesOfWord_encode .build, stagesOfWord_encode .gencode, stagesOfWord_encode .encode, stagesOfWord_encode .pack,
    stagesOfWord_encode .run⟩
  obtain ⟨e, he⟩ := exists_decode_error hw
  exact stagesOfWord_of_error he

/-- The stages of a word are at least one and at most five. -/
theorem stagesOfWord_length (w : Word) : 1 ≤ (stagesOfWord w).length ∧ (stagesOfWord w).length ≤ 5 := by
  rcases stagesOfWord_cases w with h | ⟨st, h⟩ <;> simp [h, stages]

/-- The first stage of an accepted word is the one STATUS shows (10_state.md R24, R50). -/
theorem State.accept_statusStage (s : State) (w : Word) :
    (stagesOfWord w).head?.map Stage.code = some (s.accept w).statusStage := by
  have hlen := (stagesOfWord_length w).1
  cases h : stagesOfWord w with
  | nil => simp [h] at hlen
  | cons st rest => simp [State.statusStage, h]

/-- Settles O12: the write of CMD is acceptance while SEQ is idle, and refused while it is not. -/
theorem cmdWriteAcceptsEveryWord : Obligations.CmdWriteAcceptsEveryWord := by
  intro s w
  refine ⟨fun hs => ?idle, fun hb => transact_write_refused (resolve_csrAddr s.cfg .cmd) rfl hb⟩
  have haccept : transact (.write .word 0x004#32 w) s = (s.accept w, { resp := .okay, rdata := 0 }) :=
    transact_write_csr (c := .cmd) w (.inr (by simp [State.busy, hs]))
  obtain ⟨hbusy, hdone, herr, _, hcode, hstage, _⟩ := (s.accept w).statusWord_fields
  refine ⟨haccept, ?_⟩
  rw [haccept]
  exact ⟨hbusy, hdone, herr, BitVec.eq_of_toNat_eq hcode, by rw [hstage]; exact s.accept_statusStage w⟩

/-! ## The engine's turn -/

/-- Settles O18: an engine turn is the step of the decoded command, and acceptance puts the command's word in SEQ. -/
theorem stepRunsTheDecodedCommand : Obligations.StepRunsTheDecodedCommand := by
  refine ⟨fun s w q i ha hs hd => step_of_decode ha hs hd, fun s i => ?_, fun i => by cases i <;> rfl⟩
  have hword : BitVec.ofNat 32 ((encode i).toNat % 2 ^ 32) = encode i := by
    rw [Nat.mod_eq_of_lt (encode i).isLt, BitVec.ofNat_toNat, BitVec.setWidth_eq]
  rw [State.withFetchWord, hword]
  exact step_of_decode rfl rfl (decode_encode i)

/-! ## What a step leaves alone -/

/-- No engine step writes the parameters, the inputs, or what is the host's (40_command_sequencer.md R126). -/
theorem exec_engineFrame {i : Instr} {s t : State} (h : exec i s = .next t) : EngineFrame s t := by
  rcases exec_next h with ⟨_, hst⟩ | ⟨_, hst⟩ | ⟨_, hst⟩ | ⟨_, hst⟩ | ⟨_, hst⟩ | ⟨_, _, rfl⟩ | ⟨_, _, rfl⟩
  · rcases countStage_next hst with ⟨e, rfl⟩ | ⟨_, _, rfl⟩ <;> simp [EngineFrame, State.begun]
  · rcases buildStage_next hst with ⟨e, rfl⟩ | ⟨_, _, _, rfl⟩ <;> simp [EngineFrame, State.begun]
  · rcases gencodeStage_next hst with ⟨e, rfl⟩ | ⟨_, _, _, rfl⟩ <;> simp [EngineFrame, State.begun]
  · rcases encodeStage_next hst with ⟨e, rfl⟩ | rfl | ⟨_, _, _, _, rfl⟩ <;> simp [EngineFrame, State.begun]
  · rcases packStage_next hst with ⟨e, rfl⟩ | ⟨_, _, _, rfl⟩ <;> simp [EngineFrame, State.begun]
  · simp [EngineFrame]
  · simp [EngineFrame]

/-- No transaction writes the parameters or the schedule. -/
theorem transact_cfg_sched (x : Txn) (s : State) :
    (transact x s).1.cfg = s.cfg ∧ (transact x s).1.sched = s.sched := by
  rcases transact_cases x s with
    h | ⟨_, h⟩ | ⟨_, _, h⟩ | ⟨_, _, h⟩ | ⟨_, _, h⟩ | ⟨_, h⟩ | ⟨_, h⟩ | ⟨_, _, _, _, _, _, h⟩ <;> simp [h]

/-- While BUSY no transaction writes SEQ, DONE, ERR or an input (20_memory.md R80). -/
theorem transact_busy {s : State} (hb : s.busy = true) (x : Txn) :
    (transact x s).1.seq = s.seq ∧ (transact x s).1.completion = s.completion ∧ (transact x s).1.len = s.len ∧
    (transact x s).1.nw = s.nw ∧ (transact x s).1.ibuf = s.ibuf := by
  rcases transact_cases x s with
    h | ⟨_, h⟩ | ⟨hi, _⟩ | ⟨hi, _⟩ | ⟨hi, _⟩ | ⟨_, h⟩ | ⟨_, h⟩ | ⟨hi, _⟩
  case inr.inr.inl | inr.inr.inr.inl | inr.inr.inr.inr.inl | inr.inr.inr.inr.inr.inr.inr => simp [hb] at hi
  all_goals simp [h]

theorem hostStep_cfg_sched (s : State) : (hostStep s).cfg = s.cfg ∧ (hostStep s).sched = s.sched := by
  rcases hostStep_cases s with h | ⟨x, prog, h⟩ <;> rw [h]
  · exact ⟨rfl, rfl⟩
  · exact transact_cfg_sched x s

theorem hostStep_busy {s : State} (hb : s.busy = true) :
    (hostStep s).seq = s.seq ∧ (hostStep s).completion = s.completion ∧ (hostStep s).len = s.len ∧
    (hostStep s).nw = s.nw ∧ (hostStep s).ibuf = s.ibuf := by
  rcases hostStep_cases s with h | ⟨x, prog, h⟩ <;> rw [h]
  · exact ⟨rfl, rfl, rfl, rfl, rfl⟩
  · exact transact_busy hb x

/-- Settles O48: of the agents a reset alone writes an input while a command runs, and none the parameters. -/
theorem inputsAreFixedWhileBusy : Obligations.InputsAreFixedWhileBusy := by
  intro s t ht
  rcases step_next ht with ⟨_, rfl⟩ | ⟨ha, rfl⟩ | ⟨_, _, rfl⟩ | ⟨_, w, q, i, _, _, hx⟩ | ⟨_, w, e, _, _, rfl⟩
  · refine ⟨(hostStep_cfg_sched s.popSched).1, fun hb _ => ?_⟩
    obtain ⟨_, _, hlen, hnw, hibuf⟩ := hostStep_busy (s := s.popSched) hb
    exact ⟨hlen, hnw, hibuf⟩
  · exact ⟨rfl, fun _ hne => absurd ha hne⟩
  · exact ⟨rfl, fun _ _ => ⟨rfl, rfl, rfl⟩⟩
  · obtain ⟨hcfg, hlen, hnw, _, _, hibuf, _⟩ := exec_engineFrame hx
    exact ⟨hcfg, fun _ _ => ⟨hlen, hnw, hibuf⟩⟩
  · exact ⟨rfl, fun _ _ => ⟨rfl, rfl, rfl⟩⟩

/-! ## No stage stops in a state of the invariant -/

theorem countCheck_ne_error (s : State) (f : Fault) : countCheck s ≠ .error f := by
  unfold countCheck
  split_ifs <;> exact nofun

theorem buildCheck_ne_error (s : State) (f : Fault) : buildCheck s ≠ .error f := by
  unfold buildCheck
  split_ifs <;> exact nofun

theorem gencodeCheck_ne_error (s : State) (f : Fault) : gencodeCheck s ≠ .error f := by
  unfold gencodeCheck
  split_ifs <;> exact nofun

/-- The check of ENCODE needs the input to be in IBUF where there is a code table for it (44_bit_encoder.md R216). -/
theorem encodeCheck_ne_error {s : State} (h : s.valid.ctab = true → s.lengthLegal = true) (f : Fault) :
    encodeCheck s ≠ .error f := by
  cases hv : s.valid.ctab with
  | false =>
    rw [encodeCheck_of_sequence hv]
    exact nofun
  | true =>
    simp only [encodeCheck, hv, h hv]
    split_ifs <;> simp_all

theorem packCheck_ne_error (s : State) (f : Fault) : packCheck s ≠ .error f := by
  unfold packCheck
  split_ifs <;> exact nofun

/-- A stage goes on when its check answers, and its body too where the check passes. -/
theorem exists_stageStep_next {st : Stage} {check : State → Except Fault (Option ErrCode)}
    {onFail : ErrCode → State → State} {body : State → Except Fault State} {s : State}
    (hc : ∀ f, check (s.startStage st) ≠ .error f)
    (hb : check (s.startStage st) = .ok none → ∃ u, body (s.begun st) = .ok u) :
    ∃ t, stageStep st check onFail body s = .next t := by
  cases h : check (s.startStage st) with
  | error f => exact absurd h (hc f)
  | ok o =>
    cases o with
    | some e => exact ⟨_, stageStep_of_check h⟩
    | none =>
      obtain ⟨u, hu⟩ := hb h
      exact ⟨_, stageStep_of_body h hu⟩

theorem exists_countStage_next (s : State) : ∃ t, countStage s = .next t :=
  exists_stageStep_next (countCheck_ne_error _) fun _ => ⟨_, rfl⟩

/-- With FREQ_VALID = 1 and NSYM not 0 FREQ has a symbol, so BUILD has a root (42_tree_builder.md R170). -/
theorem State.Inv.exists_buildStage_next {s : State} (h : s.Inv) : ∃ t, buildStage s = .next t := by
  obtain ⟨_, _, ⟨_, _, hf, _⟩⟩ := s.inv_iff.1 h
  refine exists_stageStep_next (buildCheck_ne_error _) fun hnone => ?_
  obtain ⟨hv, hn⟩ := buildCheck_eq_none.1 hnone
  have hfreq : s.FreqMeans := hf hv
  have hpresent : presentSymbols s.freq ≠ [] := fun he => hn (BitVec.eq_of_toNat_eq (by
    have := hfreq.nsym_toNat
    rw [he] at this
    exact this))
  obtain ⟨t, _, ht, _⟩ := exists_buildTree hpresent
  have hbegun : buildTree (s.begun .build).freq = some t := ht
  exact ⟨_, by rw [buildBody, hbegun]⟩

/-- With TREE_VALID = 1 GENCODE walks a tree of at most 256 leaves (43_code_table.md R190). -/
theorem State.Inv.exists_gencodeStage_next {s : State} (h : s.Inv) : ∃ t, gencodeStage s = .next t := by
  refine exists_stageStep_next (gencodeCheck_ne_error _) fun hnone => ?_
  have hv : s.valid.tree = true := gencodeCheck_eq_none.1 hnone
  obtain ⟨_, T, hT⟩ := h.builtIn hv
  have hgen : genCode (s.begun .gencode).nodeInfo (s.begun .gencode).root = _ := genCode_eq hT
  exact ⟨_, by rw [gencodeBody, hgen]⟩

/-- With CTAB_VALID = 1 the input is in IBUF, so ENCODE can measure it (44_bit_encoder.md R216). -/
theorem State.Inv.exists_encodeStage_next {s : State} (h : s.Inv) : ∃ t, encodeStage s = .next t := by
  have hlegal : s.valid.ctab = true → s.lengthLegal = true := fun hv => by
    obtain ⟨⟨hl, _⟩, _⟩ := h.holdsCodes hv
    exact hl
  exact exists_stageStep_next (encodeCheck_ne_error (s := s.startStage .encode) hlegal) fun _ => ⟨_, rfl⟩

@[simp] theorem bitsOf_length (n : Nat) (v : BitVec 255) : (bitsOf n v).length = n := by simp [bitsOf]

/-- The stream with its padding has ENC_BITS bits (44_bit_encoder.md R214). -/
theorem State.encodedStream_length (s : State) : s.encodedStream.length = s.encLength := by
  have hcoded : s.codedInput.length = s.rawLength := by
    simp [State.codedInput, State.rawLength, State.code, List.length_flatMap]
  have hle : s.rawLength ≤ s.encLength := by
    rw [State.encLength, ceil8_eq]
    omega
  rw [State.encodedStream, List.length_append, List.length_replicate, hcoded]
  omega

/-- With ENC_VALID = 1 BBUF holds ENC_BITS bits, which fit OBUF (45_bit_packer.md R230). -/
theorem State.Inv.exists_packStage_next {s : State} (h : s.Inv) : ∃ t, packStage s = .next t := by
  obtain ⟨_, _, ⟨_, _, _, _, _, hn, _⟩⟩ := s.inv_iff.1 h
  refine exists_stageStep_next (packCheck_ne_error _) fun hnone => ?_
  obtain ⟨hv, _⟩ := packCheck_eq_none.1 hnone
  obtain ⟨hbuf, _, hbits, hfit⟩ : s.EncMeans := hn hv
  have hle : s.packLength ≤ s.encLength / 8 := by
    rw [State.packLength, hbits, BitVec.toNat_ofNat]
    exact Nat.div_le_div_right (Nat.mod_le _ _)
  have hlong : ¬ (s.begun .pack).bbuf.length < 8 * (s.begun .pack).packLength := by
    have hlen : s.bbuf.length = s.encLength := hbuf ▸ s.encodedStream_length
    show ¬ s.bbuf.length < 8 * s.packLength
    omega
  have hroom : ¬ (s.begun .pack).packLength > (s.begun .pack).cfg.obufBytes := Nat.not_lt.2 (hle.trans hfit)
  exact ⟨_, by rw [packBody, if_neg hlong, if_neg hroom]⟩

/-- A command at one of its stages goes on in every state of the invariant (log 11). -/
theorem exists_exec_next {s : State} (h : s.Inv) {i : Instr} {st : Stage} (hp : s.performs i st = true) :
    ∃ t, exec i s = .next t := by
  obtain ⟨w, rest, _, _, hst, _⟩ := (s.performs_iff i st).1 hp
  cases st with
  | zero => exact absurd rfl hst
  | count => exact exec_of_performs_count hp ▸ exists_countStage_next s
  | build => exact exec_of_performs_build hp ▸ h.exists_buildStage_next
  | gencode => exact exec_of_performs_gencode hp ▸ h.exists_gencodeStage_next
  | encode => exact exec_of_performs_encode hp ▸ h.exists_encodeStage_next
  | pack => exact exec_of_performs_pack hp ▸ h.exists_packStage_next

/-! ## No step stops in a state of the invariant -/

/-- While BUSY the stages left are a non-empty end of the word's list, and DONE = ERR = 0 (40_command_sequencer.md R120). -/
theorem State.Inv.seq_busy {s : State} (h : s.Inv) {w : Word} {q : List Stage} (hs : s.seq = .busy w q) :
    s.completion = .none ∧ q ≠ [] ∧ q <:+ stagesOfWord w := by
  obtain ⟨_, ⟨hok, _⟩, _⟩ := s.inv_iff.1 h
  simp only [State.seqOk, hs, Bool.and_eq_true, decide_eq_true_eq, Bool.not_eq_true', List.isSuffixOf_iff_suffix,
    List.isEmpty_eq_false_iff] at hok
  obtain ⟨⟨⟨_, hcomp⟩, hne⟩, hsuffix⟩ := hok
  exact ⟨hcomp, hne, hsuffix⟩

theorem stages_cases (i : Instr) : i = .run ∨ ∃ st, stages i = [st] := by cases i <;> simp [stages]

/-- In a state of the invariant a command in SEQ is at one of its stages, or is NOP or CLEAR at the pseudo-stage (log 12). -/
theorem State.Inv.performs_or_zero {s : State} (h : s.Inv) {w : Word} {q : List Stage} (hs : s.seq = .busy w q)
    {i : Instr} (hd : decode w = .ok i) :
    (∃ st, s.performs i st = true) ∨ ((i = .nop ∨ i = .clear) ∧ s.atOnly .zero = true) := by
  obtain ⟨_, hne, hsuffix⟩ := h.seq_busy hs
  obtain ⟨st, rest, rfl⟩ := List.exists_cons_of_ne_nil hne
  have hstages : stagesOfWord w = stages i := by simp [stagesOfWord, hd]
  rw [hstages] at hsuffix
  have hmem : st ∈ stages i := hsuffix.subset List.mem_cons_self
  rcases stages_cases i with rfl | ⟨st₀, hi⟩
  · have hst : st ≠ .zero := by
      rintro rfl
      exact absurd hmem (by decide)
    exact .inl ⟨st, (s.performs_iff _ _).2 ⟨w, rest, hs, hmem, hst, .inl rfl⟩⟩
  · obtain ⟨rfl, rfl⟩ : st = st₀ ∧ rest = [] := by
      rw [hi] at hsuffix
      simpa [List.suffix_cons_iff] using hsuffix
    have hat : s.atOnly st = true := (s.atOnly_iff st).2 ⟨w, hs⟩
    by_cases hst : st = .zero
    · subst hst
      refine .inr ⟨?_, hat⟩
      cases i <;> simp [stages] at hi ⊢
    · exact .inl ⟨st, State.performs_of_atOnly hat hmem hst⟩

/-- An engine turn of a running command goes on in every state of the invariant. -/
theorem State.Inv.exists_step_of_engine {s : State} (h : s.Inv) (ha : s.nextAgent = .engine) {w : Word} {q : List Stage}
    (hs : s.seq = .busy w q) : ∃ t, step s = .next t := by
  have hpop : s.popSched.Inv := h
  cases hd : decode w with
  | error e =>
    obtain ⟨_, hne, hsuffix⟩ := h.seq_busy hs
    obtain rfl : q = [.zero] := by
      rw [stagesOfWord_of_error hd] at hsuffix
      simpa [List.suffix_cons_iff, hne] using hsuffix
    exact ⟨_, (step_of_decode_error ha hs hd).trans (illegalStep_of_atOnly ((State.atOnly_iff _ _).2 ⟨w, hs⟩))⟩
  | ok i =>
    rw [step_of_decode ha hs hd]
    rcases hpop.performs_or_zero hs hd with ⟨st, hp⟩ | ⟨rfl | rfl, hat⟩
    · exact exists_exec_next hpop hp
    · exact ⟨_, if_pos hat⟩
    · exact ⟨_, if_pos hat⟩

/-- Settles O53: the host and a reset always go on, and so does the engine, idle or with a command in SEQ. -/
theorem noStepOfTheInvariantStops : Obligations.NoStepOfTheInvariantStops := by
  intro s h
  cases ha : s.nextAgent with
  | host => exact ⟨_, step_of_host ha⟩
  | reset => exact ⟨_, step_of_reset ha⟩
  | engine =>
    cases hs : s.seq with
    | idle => exact ⟨_, step_of_engine_idle ha hs⟩
    | busy w q => exact h.exists_step_of_engine ha hs

/-! ## Five engine steps -/

/-- The engine step of a command completes it or takes the head off its stage list (40_command_sequencer.md R125). -/
theorem exec_seq {i : Instr} {s t : State} (hnone : s.completion = .none) (ht : exec i s = .next t) :
    (t.seq = .idle ∧ t.completion ≠ .none) ∨
    ∃ w st st' rest, s.seq = .busy w (st :: st' :: rest) ∧ t.seq = .busy w (st' :: rest) ∧ t.completion = .none := by
  cases seqDecides i s.seq with
  | refused h =>
    rw [h s rfl] at ht
    cases ht
  | nop h =>
    rw [h s rfl] at ht
    cases ht
    exact .inl ⟨rfl, nofun⟩
  | clear h =>
    rw [h s rfl] at ht
    cases ht
    exact .inl ⟨rfl, nofun⟩
  | performs st hst h =>
    obtain ⟨check, onFail, body, hstage, hexec⟩ := exists_isStage hst
    rw [hexec i s (h s rfl)] at ht
    rcases hstage.next ht with ⟨e, u, _, rfl⟩ | ⟨u, hu, rfl⟩
    · exact .inl ⟨rfl, nofun⟩
    · have hseq : (u.flagged st).seq = s.seq := congrArg Ambient.seq hu
      have hcomp : (u.flagged st).completion = .none := (congrArg Ambient.completion hu).trans hnone
      rcases (u.flagged st).advance_cases with ha | ⟨w, st₁, st₂, rest, hs, ha⟩ <;> rw [ha]
      · exact .inl ⟨rfl, nofun⟩
      · exact .inr ⟨w, st₁, st₂, rest, hseq ▸ hs, rfl, hcomp⟩

/-- An engine turn of a running command completes it or takes the head off its stage list, and uses up the turn. -/
theorem State.Inv.engine_step {s t : State} (h : s.Inv) (hb : s.busy = true) (ha : s.nextAgent = .engine)
    (ht : step s = .next t) :
    t.sched = s.sched.tail ∧ ((t.seq = .idle ∧ t.completion ≠ .none) ∨
      ∃ w st st' rest, s.seq = .busy w (st :: st' :: rest) ∧ t.seq = .busy w (st' :: rest) ∧ t.completion = .none) := by
  obtain ⟨w₀, q₀, hs₀⟩ := s.busy_iff.1 hb
  obtain ⟨hnone, _⟩ := h.seq_busy hs₀
  rcases step_next ht with ⟨ha', _⟩ | ⟨ha', _⟩ | ⟨_, hidle, _⟩ | ⟨_, w, q, i, _, _, hx⟩ | ⟨_, w, e, _, _, rfl⟩
  · simp [ha] at ha'
  · simp [ha] at ha'
  · simp [hs₀] at hidle
  · obtain ⟨_, _, _, _, _, _, _, hsched, _⟩ := exec_engineFrame hx
    exact ⟨hsched, exec_seq (s := s.popSched) hnone hx⟩
  · exact ⟨rfl, .inl ⟨rfl, nofun⟩⟩

/-- A host turn leaves a running command alone, and uses up the turn. -/
theorem host_step {s : State} (hb : s.busy = true) (ha : s.nextAgent = .host) :
    ∃ t, step s = .next t ∧ t.sched = s.sched.tail ∧ t.seq = s.seq ∧ t.completion = s.completion := by
  obtain ⟨hseq, hcomp, _⟩ := hostStep_busy (s := s.popSched) hb
  exact ⟨_, step_of_host ha, (hostStep_cfg_sched s.popSched).2, hseq, hcomp⟩

/-- A completion one step later. -/
theorem CompletesAfter.succ {s t u : State} {k : Nat} (hb : s.busy = true) (ht : step s = .next t)
    (h : CompletesAfter k t u) : CompletesAfter (k + 1) s u := by
  obtain ⟨hrun, hseq, hcomp, hbusy⟩ := h
  refine ⟨(stepN_succ_of_next k ht).trans hrun, hseq, hcomp, fun j v hj hv => ?_⟩
  cases j with
  | zero =>
    cases hv
    exact hb
  | succ j =>
    rw [stepN_succ_of_next j ht] at hv
    exact hbusy j v (by omega) hv

theorem completesAfter_zero {s : State} (hs : s.seq = .idle) (hc : s.completion ≠ .none) : CompletesAfter 0 s s :=
  ⟨rfl, hs, hc, fun _ _ hj => absurd hj (Nat.not_lt_zero _)⟩

/-- The turns after a step that used up its own. -/
theorem State.turns_step {s t : State} (hb : s.busy = true) (hsched : t.sched = s.sched.tail) (n : Nat) :
    s.turns (n + 1) = s.nextAgent :: t.turns n := by
  rw [State.turns_succ n hb, State.turns_congr (s := s.popSched) n hsched]

/-- The command in SEQ completes within `n` steps, of which at most `m` are the engine's. -/
def State.CompletesWithin (s : State) (n m : Nat) : Prop :=
  ∃ (k : Nat) (t : State), k ≤ n ∧ CompletesAfter k s t ∧ (s.turns k).count .engine ≤ m

/-- A completion one step later takes one turn more. -/
theorem State.CompletesWithin.succ {s t : State} {n m : Nat} (h : t.CompletesWithin n m) (hb : s.busy = true)
    (ht : step s = .next t) (hsched : t.sched = s.sched.tail) :
    s.CompletesWithin (n + 1) (m + [s.nextAgent].count .engine) := by
  obtain ⟨k, u, hk, hu, hle⟩ := h
  refine ⟨k + 1, u, Nat.succ_le_succ hk, hu.succ hb ht, ?_⟩
  rw [State.turns_step hb hsched, ← List.singleton_append, List.count_append]
  omega

/-- With `q` the stages left, a command completes in its `q.length`-th engine step at the latest: by induction on the turns,
each engine turn completing it or taking a stage off `q`. -/
theorem State.Inv.completesWithin {n : Nat} : ∀ {s : State} {w : Word} {q : List Stage}, s.Inv → s.seq = .busy w q →
    .reset ∉ s.turns n → q.length ≤ (s.turns n).count .engine → s.CompletesWithin n q.length := by
  induction n with
  | zero =>
    intro s w q h hs _ hcount
    obtain ⟨_, hne, _⟩ := h.seq_busy hs
    simp only [State.turns_zero, List.count_nil, Nat.le_zero, List.length_eq_zero_iff] at hcount
    exact absurd hcount hne
  | succ n ih =>
    intro s w q h hs hreset hcount
    have hb : s.busy = true := s.busy_iff.2 ⟨w, q, hs⟩
    cases ha : s.nextAgent with
    | reset =>
      rw [State.turns_succ n hb, ha] at hreset
      exact absurd List.mem_cons_self hreset
    | host =>
      obtain ⟨t, ht, hsched, hseq, _⟩ := host_step hb ha
      rw [State.turns_step hb hsched, ha] at hreset hcount
      have hrest := ih (everyStepKeepsTheInvariant s t h ht) (hseq.trans hs) (fun hm => hreset (.tail _ hm)) hcount
      have hsucc := hrest.succ hb ht hsched
      rwa [ha] at hsucc
    | engine =>
      obtain ⟨t, ht⟩ := h.exists_step_of_engine ha hs
      obtain ⟨hsched, ⟨hidle, hcomp⟩ | ⟨w', st, st', rest, hs', hseq, _⟩⟩ := h.engine_step hb ha ht
      · obtain ⟨_, hne, _⟩ := h.seq_busy hs
        refine ⟨1, t, Nat.succ_pos n, (completesAfter_zero hidle hcomp).succ hb ht, ?_⟩
        rw [State.turns_step hb hsched, ha, State.turns_zero]
        exact List.length_pos_of_ne_nil hne
      · obtain ⟨rfl, rfl⟩ : w = w' ∧ q = st :: st' :: rest := by simpa [hs] using hs'
        rw [State.turns_step hb hsched, ha] at hreset hcount
        rw [List.count_cons_self] at hcount
        have hrest := ih (everyStepKeepsTheInvariant s t h ht) hseq (fun hm => hreset (.tail _ hm))
          (Nat.le_of_succ_le_succ hcount)
        have hsucc := hrest.succ hb ht hsched
        rwa [ha] at hsucc

/-- Settles O43: the step of the host and of the engine, and at most five stages to perform. -/
theorem commandsCompleteWithinFiveEngineSteps : Obligations.CommandsCompleteWithinFiveEngineSteps := by
  intro s h hb
  obtain ⟨w, q, hs⟩ := s.busy_iff.1 hb
  refine ⟨fun ha => ?host, fun ha => ?engine, fun n hreset hcount => ?schedule⟩
  case host =>
    obtain ⟨t, ht, _, hseq, hcomp⟩ := host_step hb ha
    exact ⟨t, ht, hseq, hcomp⟩
  case engine =>
    obtain ⟨t, ht⟩ := h.exists_step_of_engine ha hs
    exact ⟨t, ht, (h.engine_step hb ha ht).2⟩
  case schedule =>
    obtain ⟨_, _, hsuffix⟩ := h.seq_busy hs
    have hlen : q.length ≤ 5 := hsuffix.length_le.trans (stagesOfWord_length w).2
    obtain ⟨k, t, hk, ht, hle⟩ := h.completesWithin hs hreset (hlen.trans hcount)
    exact ⟨k, t, hk, ht, hle.trans hlen⟩

end Sys2Proof.Machine
end

section
/-!
The parallel frequency counter (O55, O56, O57): the partition among the workers (41_frequency_counter.md R151, 45_bit_packer.md
R231), the word-wide lane (R156), and the merges of the local tables (R154, R155).
-/

namespace Sys2Proof.Machine

/-! ## The partition among the workers -/

/-- The slices between rising cut points, in order, are the sequence up to the last cut point. -/
theorem flatMap_slice_cuts {α : Type} (l : List α) {cut : Nat → Nat} (hzero : cut 0 = 0) (hmono : Monotone cut) (w : Nat) :
    ((List.range w).flatMap fun k => slice l (cut k, cut (k + 1))) = l.take (cut w) := by
  induction w with
  | zero => simp [hzero]
  | succ w ih =>
    have hle : cut w ≤ cut (w + 1) := hmono w.le_succ
    rw [List.range_succ, List.flatMap_append, ih, List.flatMap_singleton, slice, ← List.take_add, Nat.add_sub_cancel' hle]

/-- Where the chunks of `size` elements begin and end: the last of `w` ends with the sequence. -/
def cutPoint (n size w k : Nat) : Nat := if k < w then min (k * size) n else n

theorem cutPoint_mono (n size w : Nat) : Monotone (cutPoint n size w) := by
  refine monotone_nat_of_le_succ fun k => ?_
  have hmul : k * size ≤ (k + 1) * size := Nat.mul_le_mul_right size k.le_succ
  unfold cutPoint
  split_ifs <;> omega

/-- Chunks bounded by consecutive cut points cover their sequence in order. -/
theorem flatMap_slice_cutPoint {α : Type} (l : List α) (size : Nat) {w : Nat} (hw : 1 ≤ w) {bounds : Nat → Nat × Nat}
    (hbounds : ∀ k < w, bounds k = (cutPoint l.length size w k, cutPoint l.length size w (k + 1))) :
    ((List.range w).flatMap fun k => slice l (bounds k)) = l := by
  have hzero : cutPoint l.length size w 0 = 0 := by simp [cutPoint, Nat.lt_of_lt_of_le Nat.zero_lt_one hw]
  have hlast : cutPoint l.length size w w = l.length := by simp [cutPoint]
  calc ((List.range w).flatMap fun k => slice l (bounds k))
      = (List.range w).flatMap fun k => slice l (cutPoint l.length size w k, cutPoint l.length size w (k + 1)) :=
        List.flatMap_congr fun k hk => by rw [hbounds k (List.mem_range.1 hk)]
    _ = l := by rw [flatMap_slice_cuts l hzero (cutPoint_mono _ _ _), hlast, List.take_length]

/-- The input partition needs no minimum: `w` chunks of ⌊n/w⌋ elements fit (41_frequency_counter.md R151). -/
theorem chunkBounds_eq_cutPoint {n w k : Nat} (hk : k < w) :
    chunkBounds n w k = (cutPoint n (n / w) w k, cutPoint n (n / w) w (k + 1)) := by
  have hfit : ∀ j ≤ w, j * (n / w) ≤ n := fun j hj => (Nat.mul_le_mul_right _ hj).trans (Nat.mul_div_le n w)
  have hiff : k < w - 1 ↔ k + 1 < w := by omega
  simp only [chunkBounds, cutPoint, if_pos hk, hiff, Nat.min_eq_left (hfit k hk.le), Nat.min_eq_left (hfit (k + 1) hk)]

theorem packChunkBounds_eq_cutPoint {b w k : Nat} (hk : k < w) :
    packChunkBounds b w k = (cutPoint b (ceil8 (b / w)) w k, cutPoint b (ceil8 (b / w)) w (k + 1)) := by
  have hiff : k < w - 1 ↔ k + 1 < w := by omega
  simp only [packChunkBounds, cutPoint, if_pos hk, hiff]

/-- The packer's chunks of a stream of whole bytes never split a byte (45_bit_packer.md R231). -/
theorem packChunkBounds_mod {b : Nat} (hb : b % 8 = 0) (w k : Nat) :
    (packChunkBounds b w k).1 % 8 = 0 ∧ (packChunkBounds b w k).2 % 8 = 0 := by
  have hmin : ∀ j, min (j * ceil8 (b / w)) b % 8 = 0 := fun j => by
    have hsize : j * ceil8 (b / w) % 8 = 0 := by rw [ceil8, ← Nat.mul_assoc, Nat.mul_mod_left]
    omega
  refine ⟨hmin k, ?_⟩
  unfold packChunkBounds
  split
  · exact hmin (k + 1)
  · exact hb

/-- Settles O55: the bounds of both partitions are consecutive cut points. -/
theorem chunksCoverInOrder : Obligations.ChunksCoverInOrder :=
  ⟨fun l _ hw => flatMap_slice_cutPoint l _ hw fun _ => chunkBounds_eq_cutPoint,
    fun l w hw hb => ⟨flatMap_slice_cutPoint l _ hw fun _ => packChunkBounds_eq_cutPoint, packChunkBounds_mod hb w⟩⟩

/-! ## The word-wide lane -/

/-- The addresses a lane counts in word `index`, the other byte lanes masked (41_frequency_counter.md R156). -/
def laneAddresses (bounds : Nat × Nat) (index : Nat) : List Nat :=
  ((List.range 4).filter fun b => decide (bounds.1 ≤ 4 * index + b ∧ 4 * index + b < bounds.2)).map (4 * index + ·)

theorem mem_laneAddresses {start stop index a : Nat} :
    a ∈ laneAddresses (start, stop) index ↔ a / 4 = index ∧ start ≤ a ∧ a < stop := by
  simp only [laneAddresses, List.mem_map, List.mem_filter, List.mem_range, decide_eq_true_eq]
  constructor
  · rintro ⟨b, ⟨hb, hin⟩, rfl⟩
    omega
  · intro h
    exact ⟨a % 4, by omega, by omega⟩

theorem mem_laneWords {start stop index : Nat} :
    index ∈ laneWords (start, stop) ↔ 4 * index < stop ∧ start < 4 * index + 4 := by
  simp only [laneWords, List.mem_filter, List.mem_range, decide_eq_true_eq]
  omega

/-- The addresses a lane counts, word after word, are those of its chunk: each list is strictly rising, and they have the same
members. -/
theorem flatMap_laneAddresses (start stop : Nat) :
    (laneWords (start, stop)).flatMap (laneAddresses (start, stop)) = List.range' start (stop - start) := by
  refine List.Pairwise.eq_of_mem_iff (r := (· < ·)) (List.pairwise_flatMap.2 ⟨fun index _ => ?inWord, ?acrossWords⟩)
    List.pairwise_lt_range' fun a => ?members
  case inWord =>
    exact (List.pairwise_lt_range.filter _).map _ fun _ _ h => Nat.add_lt_add_left h _
  case acrossWords =>
    refine (List.pairwise_lt_range.filter _).imp fun {i j} hij a ha b hb => ?_
    obtain ⟨ha, _⟩ := mem_laneAddresses.1 ha
    obtain ⟨hb, _⟩ := mem_laneAddresses.1 hb
    omega
  case members =>
    simp only [List.mem_flatMap, mem_laneWords, mem_laneAddresses, List.mem_range'_1]
    constructor
    · rintro ⟨index, _, _, hin⟩
      omega
    · intro h
      exact ⟨a / 4, by omega, rfl, by omega⟩

/-- Byte lane `b` of an aligned word is the byte at its address (20_memory.md R73). -/
theorem memoryWord_byte (m : Memory) (index : Nat) {b : Nat} (hb : b < 4) :
    (memoryWord m index).extractLsb' (8 * b) 8 = m.read (4 * index + b) :=
  (bufferRead_bytes m .word (4 * index)).2 b hb

theorem Memory.readBytes_eq_map (m : Memory) (a n : Nat) : m.readBytes a n = (List.range' a n).map m.read := by
  rw [Memory.readBytes, List.range'_eq_map_range, List.map_map]
  rfl

/-- A lane takes from each of its words the bytes at the addresses it counts there. -/
theorem laneBytes_eq_flatMap (m : Memory) (bounds : Nat × Nat) :
    laneBytes m bounds = (laneWords bounds).flatMap fun index => (laneAddresses bounds index).map m.read := by
  refine List.flatMap_congr fun index _ => ?_
  rw [laneAddresses, List.map_map]
  exact List.map_congr_left fun b hb => memoryWord_byte m index (List.mem_range.1 (List.mem_of_mem_filter hb))

/-- Settles O56: the words of the lane give the addresses of the chunk in order. -/
theorem laneCountsEachByteOfItsChunk : Obligations.LaneCountsEachByteOfItsChunk := by
  intro m start stop _
  rw [laneBytes_eq_flatMap, ← List.map_flatMap, flatMap_laneAddresses, m.readBytes_eq_map]

/-! ## The merges -/

@[simp] theorem mergeTable_getElem (f g : Vector Word 256) (c : Symbol) : (mergeTable f g)[c] = f[c] + g[c] := by
  simp [mergeTable]

theorem table_ext {f g : Vector Word 256} (h : ∀ c : Symbol, f[c] = g[c]) : f = g :=
  Vector.ext fun i hi => h ⟨i, hi⟩

/-- The order of two merges does not matter (41_frequency_counter.md R155). -/
theorem mergeTable_right_comm (f g h : Vector Word 256) :
    mergeTable (mergeTable f g) h = mergeTable (mergeTable f h) g :=
  table_ext fun c => by simp only [mergeTable_getElem, add_right_comm]

/-- The table of two sequences is the merge of their tables. -/
theorem tally_append (xs ys : List Byte) : tally (xs ++ ys) = mergeTable (tally xs) (tally ys) :=
  table_ext fun c => by
    rw [mergeTable_getElem, tally_getElem, tally_getElem, tally_getElem, List.countP_append, BitVec.ofNat_add]

/-- Merging the tables of sequences one after the other gives the table of all of them. -/
theorem foldl_mergeTable_tally (bytes : Nat → List Byte) (ks : List Nat) :
    ks.foldl (fun f k => mergeTable f (tally (bytes k))) (Vector.replicate 256 0) = tally (ks.flatMap bytes) := by
  have h : ∀ xs, ks.foldl (fun f k => mergeTable f (tally (bytes k))) (tally xs) = tally (xs ++ ks.flatMap bytes) := by
    induction ks with
    | nil => simp
    | cons k ks ih =>
      intro xs
      rw [List.foldl_cons, ← tally_append, ih, List.flatMap_cons, List.append_assoc]
  exact h []

/-- The bytes of a part of a block are the slice of the block's bytes. -/
theorem slice_readBytes (m : Memory) {n start stop : Nat} (h : stop ≤ n) :
    slice (m.readBytes 0 n) (start, stop) = m.readBytes start (stop - start) := by
  refine List.ext_getElem (by simp [slice]; omega) fun k _ _ => ?_
  simp [slice, Memory.readBytes]

/-- A chunk of the input partition is a part of the input. -/
theorem chunkBounds_le {n w k : Nat} (hk : k < w) :
    (chunkBounds n w k).1 ≤ (chunkBounds n w k).2 ∧ (chunkBounds n w k).2 ≤ n := by
  rw [chunkBounds_eq_cutPoint hk]
  refine ⟨cutPoint_mono n (n / w) w k.le_succ, ?_⟩
  unfold cutPoint
  split_ifs <;> omega

/-- The lane of worker `k` counts its chunk of the input. -/
theorem laneBytes_chunk (m : Memory) {n w k : Nat} (hk : k < w) :
    laneBytes m (chunkBounds n w k) = slice (m.readBytes 0 n) (chunkBounds n w k) := by
  obtain ⟨hle, hin⟩ := chunkBounds_le (n := n) hk
  exact (laneCountsEachByteOfItsChunk m _ _ hle).trans (slice_readBytes m hin).symm

/-- Settles O57: the merges commute, and in index order they give the table of the chunks one after the other. -/
theorem parallelCountEqualsSequential : Obligations.ParallelCountEqualsSequential := by
  intro m n w order hw horder
  have hcover : ((List.range w).flatMap fun k => laneBytes m (chunkBounds n w k)) = m.readBytes 0 n := by
    rw [List.flatMap_congr fun k hk => laneBytes_chunk m (List.mem_range.1 hk)]
    have hchunks := chunksCoverInOrder.1 (m.readBytes 0 n) w hw
    rwa [Memory.readBytes_length] at hchunks
  rw [countParallel, horder.foldl_eq' fun _ _ _ _ _ => mergeTable_right_comm _ _ _, foldl_mergeTable_tally, hcover]

end Sys2Proof.Machine
end

section
/-!
COUNT (O23, O25): what every stage leaves of the sequencer when it completes (40_command_sequencer.md R125), and what FREQ and
NSYM hold when FREQ_VALID = 1 (41_frequency_counter.md R152, R153, R158).
-/

namespace Sys2Proof.Machine

/-! ## A stage that completes -/

/-- With no stage after the one at the head, the command completes (40_command_sequencer.md R133). -/
theorem State.advance_of_no_next {s : State} (h : ∀ w st st' rest, s.seq ≠ .busy w (st :: st' :: rest)) :
    s.advance = s.finishOk := by
  rcases s.advance_cases with ha | ⟨w, st, st', rest, hs, _⟩
  · exact ha
  · exact absurd hs (h w st st' rest)

/-- What `State.advance` leaves is the end of a stage, by the stages left in SEQ (40_command_sequencer.md R125). -/
theorem State.advance_stageEnds (s : State) : StageEnds s s.advance := by
  unfold StageEnds
  split
  next w st st' rest hs =>
    rw [s.advance_more w st st' rest hs]
    exact ⟨rfl, rfl, rfl⟩
  all_goals
    next hs =>
      rw [State.advance_of_no_next (by simp [hs])]
      exact ⟨rfl, rfl, rfl⟩

section IsStage

variable {check : State → Except Fault (Option ErrCode)} {onFail : ErrCode → State → State}
  {body : State → Except Fault State}

/-- A stage whose check passes and whose body answers completes: its flag is set and the later ones cleared, its counter holds a
duration, and the command goes on to its next stage (40_command_sequencer.md R124, R125). -/
theorem IsStage.completes (h : IsStage check onFail body) {st : Stage} (hst : st ≠ .zero) {s u : State}
    (hc : check (s.startStage st) = .ok none) (hb : body (s.begun st) = .ok u) :
    ∃ t, stageStep st check onFail body s = .next t ∧ FlagsCompleted st s t ∧ StageEnds s t ∧ CounterWritten st s t := by
  have hu : u.ambient = (s.begun st).ambient := h.body_ambient hb
  have hseq : (u.flagged st).seq = s.seq := congrArg Ambient.seq hu
  have hcomp : (u.flagged st).completion = s.completion := congrArg Ambient.completion hu
  have hirq : (u.flagged st).irqStat = s.irqStat := congrArg Ambient.irqStat hu
  have hvalid : u.valid = (s.begun st).valid := congrArg Ambient.valid hu
  have hcyc : u.cyc = (s.begun st).cyc := congrArg Ambient.cyc hu
  obtain ⟨hflags, hcounter⟩ := s.begun_flags_counter hst
  refine ⟨(u.flagged st).advance, stageStep_of_body hc hb, fun st' => ?flags, ?ends, ?counter⟩
  case flags =>
    have hadvance : (u.flagged st).advance.valid = u.valid.setFlag st := by simp [State.flagged]
    rw [hadvance, hvalid, Valid.flag_setFlag _ hst, hflags]
  case ends =>
    have hends := (u.flagged st).advance_stageEnds
    rwa [StageEnds, hseq, hcomp, hirq] at hends
  case counter =>
    have hadvance : (u.flagged st).advance.cyc = (s.begun st).cyc := by simp [State.flagged, hcyc]
    rwa [CounterWritten, hadvance]

end IsStage

/-! ## A valid Frequency Table -/

/-- An entry of the table as a number, as long as the count fits its register (41_frequency_counter.md R152). -/
theorem tally_toNat {bytes : List Byte} (hlen : bytes.length < 2 ^ 32) (c : Symbol) :
    (tally bytes)[c].toNat = bytes.countP fun b => decide (symbolOfByte b = c) := by
  rw [tally_getElem, BitVec.toNat_ofNat, Nat.mod_eq_of_lt (List.countP_le_length.trans_lt hlen)]

/-- The entries of the table sum to the number of bytes: each byte is counted under one symbol. -/
theorem sum_tally_toNat {bytes : List Byte} (hlen : bytes.length < 2 ^ 32) :
    ∑ c : Symbol, (tally bytes)[c].toNat = bytes.length := by
  have hcount : ∀ c : Symbol, (tally bytes)[c].toNat = Multiset.count c (bytes.map symbolOfByte : Multiset Symbol) := by
    intro c
    rw [tally_toNat hlen, Multiset.coe_count, List.count_eq_countP, List.countP_map]
    rfl
  rw [Finset.sum_congr rfl fun c _ => hcount c, Multiset.sum_count_eq_card fun c _ => Finset.mem_univ c,
    Multiset.coe_card, List.length_map]

theorem State.input_length_lt (s : State) : s.input.length < 2 ^ 32 := s.input_length ▸ s.len.isLt

/-- An entry of a valid table is the number of times its symbol occurs in IBUF[0..LEN) (41_frequency_counter.md R152). -/
theorem State.FreqMeans.freq_toNat {s : State} (h : s.FreqMeans) (c : Symbol) :
    s.freq[c].toNat = (List.range s.len.toNat).countP fun k => decide ((s.ibuf.read k).toNat = c.val) := by
  obtain ⟨_, hfreq, _⟩ := h
  rw [hfreq, tally_toNat s.input_length_lt, State.input, Memory.readBytes, List.countP_map]
  simp [Function.comp_def, symbolOfByte, Fin.ext_iff]

/-- NSYM of a valid table is the number of entries that are not 0 (41_frequency_counter.md R153). -/
theorem State.FreqMeans.nsym_eq_countP {s : State} (h : s.FreqMeans) :
    s.nsym.toNat = (List.finRange 256).countP fun c : Symbol => decide (s.freq[c] ≠ 0) := by
  rw [h.nsym_toNat, presentSymbols, List.countP_eq_length_filter]

/-- The entries of a valid table sum to LEN (41_frequency_counter.md R158). -/
theorem State.FreqMeans.sum_freq {s : State} (h : s.FreqMeans) :
    ((List.finRange 256).map fun c : Symbol => s.freq[c].toNat).sum = s.len.toNat := by
  obtain ⟨_, hfreq, _⟩ := h
  rw [← Fin.sum_univ_def, hfreq, sum_tally_toNat s.input_length_lt, s.input_length]

/-- No symbol is present iff there is no input: the entries sum to LEN (41_frequency_counter.md R153). -/
theorem State.FreqMeans.nsym_eq_zero_iff {s : State} (h : s.FreqMeans) : s.nsym = 0 ↔ s.len = 0 := by
  have habsent : s.nsym.toNat = 0 ↔ ∀ c : Symbol, s.freq[c].toNat = 0 := by
    simp [h.nsym_toNat, presentSymbols, ← BitVec.toNat_inj]
  have hsum : s.len.toNat = 0 ↔ ∀ c : Symbol, s.freq[c].toNat = 0 := by
    simp [← h.sum_freq, List.sum_eq_zero_iff]
  rw [← BitVec.toNat_inj, ← BitVec.toNat_inj (x := s.len)]
  exact habsent.trans hsum.symm

/-! ## COUNT -/

theorem State.FreqMeans.advance {s : State} (h : s.FreqMeans) : s.advance.FreqMeans := by
  rcases s.advance_cases with ha | ⟨_, _, _, _, _, ha⟩ <;> rw [ha] <;> exact h

/-- Where COUNT leaves FREQ_VALID = 1 it has made the table of the input (10_state.md R25). -/
theorem countStage_freqMeans {s t : State} (h : countStage s = .next t) (hv : t.valid.freq = true) : t.FreqMeans := by
  rcases countStage_next h with ⟨e, rfl⟩ | ⟨_, hl, rfl⟩
  · exact absurd hv nofun
  · exact State.FreqMeans.advance ⟨hl, rfl, rfl⟩

/-- COUNT writes no other stage's results, whether it fails or not (40_command_sequencer.md R126, R129). -/
theorem countStage_frame {s t : State} (h : countStage s = .next t) :
    SameTree s t ∧ SameCodes s t ∧ SameStream s t ∧ SameOutput s t := by
  rcases countStage_next h with ⟨e, rfl⟩ | ⟨_, _, rfl⟩ <;>
    simp [SameTree, SameCodes, SameStream, SameOutput, State.begun]

/-- Settles O23: the stage completes, and FREQ_VALID = 1 says what FREQ and NSYM hold. -/
theorem countMakesTheFrequencyTable : Obligations.CountMakesTheFrequencyTable := by
  intro i s hp hnw hlen
  have hcheck : countCheck (s.startStage .count) = .ok none :=
    countCheck_eq_none.2 ⟨decide_eq_true hnw, decide_eq_true hlen⟩
  obtain ⟨t, hstage, hflags, hends, hcounter⟩ := isStage_count.completes (st := .count) (by decide) hcheck rfl
  have hexec : exec i s = .next t := (exec_of_performs_count hp).trans hstage
  have hmeans : t.FreqMeans := countStage_freqMeans hstage (hflags .count)
  have hframe := exec_engineFrame hexec
  have ⟨_, hlen', _, _, _, hibuf, _⟩ := hframe
  exact ⟨t, hexec, hlen' ▸ hibuf ▸ hmeans.freq_toNat, hmeans.nsym_eq_countP, hlen' ▸ hmeans.nsym_eq_zero_iff, hflags,
    hends, hcounter, hframe, countStage_frame hstage⟩

/-- Settles O25: a COUNT that leaves FREQ_VALID = 1 has made the table. -/
theorem frequenciesSumToLength : Obligations.FrequenciesSumToLength := by
  intro i s t hp ht hv
  exact (countStage_freqMeans (exec_of_performs_count hp ▸ ht) hv).sum_freq

end Sys2Proof.Machine
end

section
/-!
The merges of BUILD (42_tree_builder.md R172, R173, R174) as facts about the arena: `MergedArena` says which nodes each merge
made and took, `Merged` that PQ holds the nodes that are no node's child, in key order. From these O27, O28 and O26.
-/

namespace Sys2Proof.Machine

/-! ## The key order -/

theorem Entry.before_iff {a b : Entry} : a.before b = true ↔ a.cnt < b.cnt ∨ (a.cnt = b.cnt ∧ a.id < b.id) := by
  simp [Entry.before]

theorem Entry.before_trans {a b c : Entry} (hab : a.before b = true) (hbc : b.before c = true) : a.before c = true := by
  simp only [Entry.before_iff, BitVec.lt_def, ← BitVec.toNat_inj, Fin.lt_def] at *
  omega

/-- Two elements with different ids are ordered one way or the other. -/
theorem Entry.before_of_not {a b : Entry} (hne : a.id ≠ b.id) (h : ¬ a.before b = true) : b.before a = true := by
  simp only [Entry.before_iff, BitVec.lt_def, ← BitVec.toNat_inj, Fin.lt_def, ne_eq, Fin.ext_iff] at *
  omega

theorem KeyBefore.ne {cnt : Vector Word 511} {a b : NodeId} (h : KeyBefore cnt a b) : a ≠ b := by
  rintro rfl
  simp [KeyBefore] at h

/-! ## PQ in key order -/

theorem insertEntry_perm (e : Entry) (q : List Entry) : (insertEntry e q).Perm (e :: q) := by
  induction q with
  | nil => exact .refl _
  | cons g q ih =>
    simp only [insertEntry]
    split
    · exact .refl _
    · exact (ih.cons g).trans (.swap e g q)

@[simp] theorem mem_insertEntry {e g : Entry} {q : List Entry} : g ∈ insertEntry e q ↔ g = e ∨ g ∈ q :=
  (insertEntry_perm e q).mem_iff.trans List.mem_cons

theorem insertEntry_sorted {e : Entry} {q : List Entry} (hq : q.Pairwise fun a b => a.before b = true)
    (hid : ∀ g ∈ q, g.id ≠ e.id) : (insertEntry e q).Pairwise fun a b => a.before b = true := by
  induction q with
  | nil => simp [insertEntry]
  | cons head q ih =>
    obtain ⟨hh, hq'⟩ := List.pairwise_cons.1 hq
    obtain ⟨hhe, hqe⟩ := List.forall_mem_cons.1 hid
    simp only [insertEntry]
    split
    next heh =>
      exact List.pairwise_cons.2 ⟨List.forall_mem_cons.2 ⟨heh, fun g hg => Entry.before_trans heh (hh g hg)⟩, hq⟩
    next heh =>
      refine List.pairwise_cons.2 ⟨fun g hg => ?_, ih hq' hqe⟩
      rcases mem_insertEntry.1 hg with rfl | hg
      · exact Entry.before_of_not hhe.symm heh
      · exact hh g hg

@[simp] theorem leafId_inj {c d : Symbol} : leafId c = leafId d ↔ c = d := by
  simp [leafId, Fin.ext_iff]

theorem leafQueue_sorted (f : Vector Word 256) : (leafQueue f).Pairwise fun a b => a.before b = true := by
  have h : ∀ (cs : List Symbol) (q : List Entry), cs.Nodup → (∀ c ∈ cs, ∀ g ∈ q, g.id ≠ leafId c) →
      q.Pairwise (fun a b => a.before b = true) →
      (cs.foldl (fun q c => insertEntry { cnt := f[c], id := leafId c } q) q).Pairwise fun a b => a.before b = true := by
    intro cs
    induction cs with
    | nil => exact fun _ _ _ hq => hq
    | cons c cs ih =>
      intro q hcs hid hq
      obtain ⟨hc, hcs⟩ := List.nodup_cons.1 hcs
      obtain ⟨hidc, hid⟩ := List.forall_mem_cons.1 hid
      refine ih _ hcs (fun d hd g hg => ?_) (insertEntry_sorted hq hidc)
      rcases mem_insertEntry.1 hg with rfl | hg
      · intro he
        exact hc (leafId_inj.1 he ▸ hd)
      · exact hid d hd g hg
  exact h _ [] (presentSymbols_nodup f) (by simp) .nil

/-- PQ before the first merge is the leaves of the symbols present, each with its count. -/
theorem leafQueue_perm (f : Vector Word 256) :
    (leafQueue f).Perm ((presentSymbols f).map fun c => { cnt := f[c], id := leafId c }) := by
  obtain ⟨ts, he, hp⟩ := leafQueue_entry f
  have hmap := hp.map (CodeTree.entry f)
  rwa [List.map_map, ← he] at hmap

/-! ## The arena -/

theorem Tree.put_self (t : Tree) (n : NodeId) (c : Word) (i : NodeInfo) :
    (t.put n c i).info[n] = i ∧ (t.put n c i).cnt[n] = c := by
  simp [Tree.put]

theorem Tree.put_of_ne (t : Tree) {n m : NodeId} (h : m ≠ n) (c : Word) (i : NodeInfo) :
    (t.put n c i).info[m] = t.info[m] ∧ (t.put n c i).cnt[m] = t.cnt[m] := by
  have hval : n.val ≠ m.val := fun e => h (Fin.ext e.symm)
  simp [Tree.put, hval]

/-- The arena before the first merge holds nothing but the leaves of the symbols present. -/
theorem leafArena_absent {f : Vector Word 256} {n : NodeId} (hn : ∀ c : Symbol, f[c] ≠ 0 → n ≠ leafId c) :
    (leafArena f).info[n] = .absent ∧ (leafArena f).cnt[n] = 0 := by
  have h : ∀ (cs : List Symbol) (t : Tree), (∀ c ∈ cs, n ≠ leafId c) → t.info[n] = .absent ∧ t.cnt[n] = 0 →
      (cs.foldl (fun t c => t.put (leafId c) f[c] .leaf) t).info[n] = .absent ∧
        (cs.foldl (fun t c => t.put (leafId c) f[c] .leaf) t).cnt[n] = 0 := by
    intro cs
    induction cs with
    | nil => exact fun _ _ ht => ht
    | cons c cs ih =>
      intro t hcs ht
      obtain ⟨hc, hcs⟩ := List.forall_mem_cons.1 hcs
      obtain ⟨hinfo, hcnt⟩ := t.put_of_ne hc f[c] .leaf
      exact ih _ hcs (by rwa [hinfo, hcnt])
  exact h _ _ (fun c hc => hn c (mem_presentSymbols.1 hc)) (by simp [Tree.empty])

theorem leafArena_leaf (f : Vector Word 256) (c : Symbol) :
    (leafArena f).info[leafId c] = (if f[c] = 0 then .absent else .leaf) ∧ (leafArena f).cnt[leafId c] = f[c] := by
  by_cases hc : f[c] = 0
  · have habsent := leafArena_absent (f := f) (n := leafId c) fun d hd he => hd (leafId_inj.1 he ▸ hc)
    rw [if_pos hc, hc]
    exact habsent
  · rw [if_neg hc]
    exact leafArena_held (mem_presentSymbols.2 hc)

theorem exists_leafId {n : NodeId} (h : n.val < 256) : ∃ c : Symbol, n = leafId c := ⟨⟨n.val, h⟩, rfl⟩

/-! ## The nodes in PQ -/

/-- Which nodes are in PQ before a merge depends on the nodes made before it only. -/
theorem InQueueAt.congr {info info' : Vector NodeInfo 511} {j : Nat} {n : NodeId}
    (h : ∀ m : NodeId, m.val < 256 + j → info'[m] = info[m]) : InQueueAt info' j n ↔ InQueueAt info j n := by
  have hchild : ∀ p : NodeId, p.val < 256 + j → (IsChild info' n p ↔ IsChild info n p) := fun p hp => by
    rw [IsChild, IsChild, h p hp]
  rw [InQueueAt, InQueueAt, forall_congr' fun p => imp_congr_right fun hp => not_congr (hchild p hp)]
  by_cases hn : n.val < 256 + j
  · rw [h n hn]
  · simp [hn]

/-- A merge takes its two nodes out of PQ and puts the new one in (42_tree_builder.md R174). -/
theorem inQueueAt_succ {info : Vector NodeInfo 511} {k : Nat} {p l r n : NodeId} (hp : p.val = 256 + k)
    (hinfo : info[p] = .inner l r) (hbelow : ∀ m q : NodeId, IsChild info m q → m.val < q.val) :
    InQueueAt info (k + 1) n ↔ n = p ∨ (InQueueAt info k n ∧ n ≠ l ∧ n ≠ r) := by
  have hnew : ∀ m : NodeId, IsChild info m p ↔ m = l ∨ m = r := fun m => by
    simp only [IsChild, hinfo, NodeInfo.inner.injEq]
    exact ⟨fun ⟨_, _, ⟨rfl, rfl⟩, h⟩ => h, fun h => ⟨l, r, ⟨rfl, rfl⟩, h⟩⟩
  constructor
  · rintro ⟨hn, hlt, hno⟩
    have hnp : ¬ (n = l ∨ n = r) := fun h => hno p (by omega) ((hnew n).2 h)
    by_cases he : n = p
    · exact .inl he
    · have hval : n.val ≠ p.val := fun h => he (Fin.ext h)
      exact .inr ⟨⟨hn, by omega, fun q hq => hno q (by omega)⟩, not_or.1 hnp⟩
  · rintro (rfl | ⟨⟨hn, hlt, hno⟩, hne⟩)
    · refine ⟨by simp [hinfo], by omega, fun q hq hc => ?_⟩
      have := hbelow n q hc
      omega
    · refine ⟨hn, by omega, fun q hq hc => ?_⟩
      by_cases he : q = p
      · exact not_or.2 hne ((hnew n).1 (he ▸ hc))
      · have hval : q.val ≠ p.val := fun h => he (Fin.ext h)
        exact hno q (by omega) hc

/-- The two nodes of least key in PQ before the `j`-th merge, the least first (42_tree_builder.md R172, R174). -/
def TakesTwoLeast (cnt : Vector Word 511) (info : Vector NodeInfo 511) (j : Nat) (l r : NodeId) : Prop :=
  InQueueAt info j l ∧ InQueueAt info j r ∧ KeyBefore cnt l r ∧
    ∀ n : NodeId, InQueueAt info j n → n ≠ l → n ≠ r → KeyBefore cnt l n ∧ KeyBefore cnt r n

/-- Writing nodes made later does not change what a merge took. -/
theorem TakesTwoLeast.congr {cnt cnt' : Vector Word 511} {info info' : Vector NodeInfo 511} {j : Nat} {l r : NodeId}
    (h : TakesTwoLeast cnt info j l r) (hold : ∀ m : NodeId, m.val < 256 + j → info'[m] = info[m] ∧ cnt'[m] = cnt[m]) :
    TakesTwoLeast cnt' info' j l r := by
  obtain ⟨hl, hr, hlr, hleast⟩ := h
  have hqueue : ∀ n, InQueueAt info' j n ↔ InQueueAt info j n := fun n => InQueueAt.congr fun m hm => (hold m hm).1
  have hkey : ∀ a b, InQueueAt info j a → InQueueAt info j b → KeyBefore cnt a b → KeyBefore cnt' a b := by
    rintro a b ⟨_, ha, _⟩ ⟨_, hb, _⟩ hab
    rwa [KeyBefore, (hold a ha).2, (hold b hb).2]
  refine ⟨(hqueue l).2 hl, (hqueue r).2 hr, hkey l r hl hr hlr, fun n hn hnl hnr => ?_⟩
  have hn' : InQueueAt info j n := (hqueue n).1 hn
  obtain ⟨hln, hrn⟩ := hleast n hn' hnl hnr
  exact ⟨hkey l n hl hn' hln, hkey r n hr hn' hrn⟩

/-! ## The arena between the merges -/

/-- The arena before the `k`-th merge: one leaf per symbol present, one internal node per merge made, and nothing else
(42_tree_builder.md R170, R173, R174). -/
structure MergedArena (f : Vector Word 256) (k : Nat) (cnt : Vector Word 511) (info : Vector NodeInfo 511) : Prop where
  leaf : ∀ c : Symbol, info[leafId c] = (if f[c] = 0 then .absent else .leaf) ∧ cnt[leafId c] = f[c]
  merged : ∀ (j : Nat) (p : NodeId), p.val = 256 + j → j < k →
    ∃ l r : NodeId, info[p] = .inner l r ∧ cnt[p] = cnt[l] + cnt[r] ∧ TakesTwoLeast cnt info j l r
  fresh : ∀ n : NodeId, 256 + k ≤ n.val → info[n] = .absent ∧ cnt[n] = 0

namespace MergedArena

variable {f : Vector Word 256} {k : Nat} {cnt : Vector Word 511} {info : Vector NodeInfo 511}

/-- An internal node is that of one of the merges made. -/
theorem exists_merge (h : MergedArena f k cnt info) {p l r : NodeId} (hp : info[p] = .inner l r) :
    ∃ j, p.val = 256 + j ∧ j < k ∧ TakesTwoLeast cnt info j l r := by
  by_cases hlow : p.val < 256
  · obtain ⟨c, rfl⟩ := exists_leafId hlow
    rw [(h.leaf c).1] at hp
    split at hp <;> cases hp
  by_cases hhigh : 256 + k ≤ p.val
  · rw [(h.fresh p hhigh).1] at hp
    cases hp
  · obtain ⟨l', r', hp', _, hleast⟩ := h.merged (p.val - 256) p (by omega) (by omega)
    obtain ⟨rfl, rfl⟩ : l' = l ∧ r' = r := by simpa [hp'] using hp
    exact ⟨p.val - 256, by omega, by omega, hleast⟩

/-- A node with a child is that of one of the merges made, which took the child out of PQ. -/
theorem inQueueAt_of_isChild (h : MergedArena f k cnt info) {n p : NodeId} (hc : IsChild info n p) :
    ∃ j, p.val = 256 + j ∧ j < k ∧ InQueueAt info j n := by
  obtain ⟨l, r, hp, hn⟩ := hc
  obtain ⟨j, hj, hjk, hl, hr, _⟩ := h.exists_merge hp
  rcases hn with rfl | rfl
  · exact ⟨j, hj, hjk, hl⟩
  · exact ⟨j, hj, hjk, hr⟩

/-- A child is made before its parent (42_tree_builder.md R177). -/
theorem child_lt (h : MergedArena f k cnt info) {n p : NodeId} (hc : IsChild info n p) : n.val < p.val := by
  obtain ⟨j, hj, _, _, hlt, _⟩ := h.inQueueAt_of_isChild hc
  omega

/-- What a merge takes are two nodes of the tree made before it (42_tree_builder.md R177). -/
theorem children (h : MergedArena f k cnt info) {p l r : NodeId} (hp : info[p] = .inner l r) :
    256 ≤ p.val ∧ l ≠ r ∧ info[l] ≠ .absent ∧ info[r] ≠ .absent ∧ l.val < p.val ∧ r.val < p.val := by
  obtain ⟨j, hj, _, ⟨hl, _⟩, ⟨hr, _⟩, hlr, _⟩ := h.exists_merge hp
  exact ⟨by omega, hlr.ne, hl, hr, h.child_lt ⟨l, r, hp, .inl rfl⟩, h.child_lt ⟨l, r, hp, .inr rfl⟩⟩

/-- No node has two parents: the later one took it out of PQ, where no node with a parent is. -/
theorem parent_unique (h : MergedArena f k cnt info) {n p q : NodeId} (hp : IsChild info n p) (hq : IsChild info n q) :
    p = q := by
  obtain ⟨i, hi, _, _, _, hpno⟩ := h.inQueueAt_of_isChild hp
  obtain ⟨j, hj, _, _, _, hqno⟩ := h.inQueueAt_of_isChild hq
  have hpq : ¬ p.val < q.val := fun hlt => hqno p (by omega) hp
  have hqp : ¬ q.val < p.val := fun hlt => hpno q (by omega) hq
  exact Fin.ext (by omega)

/-- A node of the tree that is not in PQ has a parent. -/
theorem exists_parent (h : MergedArena f k cnt info) {n : NodeId} (hn : info[n] ≠ .absent) (hq : ¬ InQueueAt info k n) :
    ∃ p, IsChild info n p := by
  have hlt : n.val < 256 + k := by
    by_contra hge
    exact hn (h.fresh n (by omega)).1
  by_contra hno
  exact hq ⟨hn, hlt, fun p _ hc => hno ⟨p, hc⟩⟩

/-- A node in PQ after the last merge has no parent at all. -/
theorem not_isChild (h : MergedArena f k cnt info) {n : NodeId} (hq : InQueueAt info k n) (p : NodeId) :
    ¬ IsChild info n p := by
  intro hc
  obtain ⟨j, hj, hjk, _⟩ := h.inQueueAt_of_isChild hc
  obtain ⟨_, _, hno⟩ := hq
  exact hno p (by omega) hc

/-- The arena before the first merge. -/
theorem leafArena (f : Vector Word 256) : MergedArena f 0 (leafArena f).cnt (leafArena f).info where
  leaf := leafArena_leaf f
  merged _ _ _ hj := absurd hj (Nat.not_lt_zero _)
  fresh n hn := leafArena_absent fun c _ he => by
    have := c.isLt
    simp only [he, leafId] at hn
    omega

/-- The node of a merge of the two least keys is one more internal node, the other nodes staying as they are. -/
theorem succ {cnt' : Vector Word 511} {info' : Vector NodeInfo 511} {p l r : NodeId} (h : MergedArena f k cnt info)
    (hp : p.val = 256 + k) (hleast : TakesTwoLeast cnt info k l r)
    (hnew : info'[p] = .inner l r ∧ cnt'[p] = cnt[l] + cnt[r])
    (hold : ∀ m : NodeId, m ≠ p → info'[m] = info[m] ∧ cnt'[m] = cnt[m]) : MergedArena f (k + 1) cnt' info' := by
  have hkept : ∀ m : NodeId, m.val ≠ 256 + k → info'[m] = info[m] ∧ cnt'[m] = cnt[m] := fun m hm =>
    hold m fun e => hm (e ▸ hp)
  refine ⟨fun c => ?leaf, fun j q hq hj => ?merged, fun n hn => ?fresh⟩
  case leaf =>
    obtain ⟨hi, hc⟩ := hkept (leafId c) (by simp only [leafId]; omega)
    rw [hi, hc]
    exact h.leaf c
  case fresh =>
    obtain ⟨hi, hc⟩ := hkept n (by omega)
    rw [hi, hc]
    exact h.fresh n (by omega)
  case merged =>
    obtain ⟨l', r', hi, hc, hleast'⟩ : ∃ l' r' : NodeId, info'[q] = .inner l' r' ∧ cnt'[q] = cnt[l'] + cnt[r'] ∧
        TakesTwoLeast cnt info j l' r' := by
      rcases Nat.lt_succ_iff_lt_or_eq.1 hj with hlt | rfl
      · obtain ⟨hi, hc⟩ := hkept q (by omega)
        rw [hi, hc]
        exact h.merged j q hq hlt
      · obtain rfl : q = p := Fin.ext (hq.trans hp.symm)
        exact ⟨l, r, hnew.1, hnew.2, hleast⟩
    have ⟨⟨_, hl, _⟩, ⟨_, hr, _⟩, _⟩ := hleast'
    refine ⟨l', r', hi, ?_, hleast'.congr fun m hm => hkept m (by omega)⟩
    rw [hc, (hkept l' (by omega)).2, (hkept r' (by omega)).2]

end MergedArena

/-! ## The merges -/

/-- What every merge keeps: before the `k`-th merge PQ holds in key order the nodes that are no node's child
(42_tree_builder.md R172), one less after each merge. -/
structure Merged (f : Vector Word 256) (k : Nat) (q : List Entry) (t : Tree) : Prop where
  arena : MergedArena f k t.cnt t.info
  sorted : q.Pairwise fun a b => a.before b = true
  queue : ∀ e : Entry, e ∈ q ↔ InQueueAt t.info k e.id ∧ e.cnt = t.cnt[e.id]
  size : q.length + k = (presentSymbols f).length

namespace Merged

variable {f : Vector Word 256} {k : Nat} {q : List Entry} {t : Tree}

theorem cnt_eq (h : Merged f k q t) {e : Entry} (he : e ∈ q) : e.cnt = t.cnt[e.id] := ((h.queue e).1 he).2

theorem keyBefore (h : Merged f k q t) {a b : Entry} (ha : a ∈ q) (hb : b ∈ q) (hab : a.before b = true) :
    KeyBefore t.cnt a.id b.id := by
  rwa [KeyBefore, ← h.cnt_eq ha, ← h.cnt_eq hb, ← Entry.before_iff]

theorem id_lt (h : Merged f k q t) {e : Entry} (he : e ∈ q) : e.id.val < 256 + k := by
  obtain ⟨⟨_, hlt, _⟩, _⟩ := (h.queue e).1 he
  exact hlt

/-- The two elements at the head of PQ are those of least key. -/
theorem keyBefore_rest {a b : Entry} (h : Merged f k (a :: b :: q) t) : KeyBefore t.cnt a.id b.id ∧
    ∀ e ∈ q, KeyBefore t.cnt a.id e.id ∧ KeyBefore t.cnt b.id e.id := by
  obtain ⟨ha, hsorted⟩ := List.pairwise_cons.1 h.sorted
  obtain ⟨hb, _⟩ := List.pairwise_cons.1 hsorted
  refine ⟨h.keyBefore (by simp) (by simp) (ha b (by simp)), fun e he => ?_⟩
  have hmem : e ∈ a :: b :: q := .tail _ (.tail _ he)
  exact ⟨h.keyBefore (by simp) hmem (ha e (.tail _ he)), h.keyBefore (by simp) hmem (hb e he)⟩

/-- PQ without its first two elements. -/
theorem mem_rest {a b : Entry} (h : Merged f k (a :: b :: q) t) (e : Entry) :
    e ∈ q ↔ (InQueueAt t.info k e.id ∧ e.id ≠ a.id ∧ e.id ≠ b.id) ∧ e.cnt = t.cnt[e.id] := by
  constructor
  · intro he
    obtain ⟨hqueue, hcnt⟩ := (h.queue e).1 (.tail _ (.tail _ he))
    obtain ⟨hae, hbe⟩ := h.keyBefore_rest.2 e he
    exact ⟨⟨hqueue, hae.ne.symm, hbe.ne.symm⟩, hcnt⟩
  · rintro ⟨⟨hqueue, hne, hne'⟩, hcnt⟩
    have hmem : e = a ∨ e = b ∨ e ∈ q := by simpa using (h.queue e).2 ⟨hqueue, hcnt⟩
    rcases hmem with rfl | rfl | hmem
    · exact absurd rfl hne
    · exact absurd rfl hne'
    · exact hmem

theorem takesTwoLeast {a b : Entry} (h : Merged f k (a :: b :: q) t) : TakesTwoLeast t.cnt t.info k a.id b.id := by
  obtain ⟨hab, hrest⟩ := h.keyBefore_rest
  exact ⟨((h.queue a).1 (by simp)).1, ((h.queue b).1 (by simp)).1, hab, fun n hn hna hnb =>
    hrest { cnt := t.cnt[n], id := n } ((h.mem_rest _).2 ⟨⟨hn, hna, hnb⟩, rfl⟩)⟩

/-- PQ and the arena before the first merge. -/
theorem init (f : Vector Word 256) : Merged f 0 (leafQueue f) (leafArena f) where
  arena := .leafArena f
  sorted := leafQueue_sorted f
  size := by rw [(leafQueue_perm f).length_eq, List.length_map, Nat.add_zero]
  queue e := by
    simp only [(leafQueue_perm f).mem_iff, List.mem_map, mem_presentSymbols]
    constructor
    · rintro ⟨c, hc, rfl⟩
      obtain ⟨hinfo, hcnt⟩ := leafArena_leaf f c
      rw [if_neg hc] at hinfo
      refine ⟨⟨by simp [hinfo], by simp [leafId], fun p hp hchild => ?_⟩, hcnt.symm⟩
      obtain ⟨l, r, hinner, _⟩ := hchild
      obtain ⟨j, _, hj, _⟩ := (MergedArena.leafArena f).exists_merge hinner
      exact absurd hj (Nat.not_lt_zero j)
    · obtain ⟨w, n⟩ := e
      rintro ⟨⟨hinfo, hlt, _⟩, hcnt⟩
      obtain ⟨c, rfl⟩ := exists_leafId hlt
      obtain ⟨hinfo', hcnt'⟩ := leafArena_leaf f c
      refine ⟨c, fun hc => hinfo (by rw [hinfo', if_pos hc]), ?_⟩
      rw [← hcnt', ← hcnt]

/-- A merge (42_tree_builder.md R174). -/
theorem merge {a b : Entry} (h : Merged f k (a :: b :: q) t) :
    Merged f (k + 1) (insertEntry { cnt := a.cnt + b.cnt, id := innerId k } q)
      (t.put (innerId k) (a.cnt + b.cnt) (.inner a.id b.id)) := by
  have hsize := h.size
  have hle := presentSymbols_length_le f
  simp only [List.length_cons] at hsize
  have hp : (innerId k).val = 256 + k := innerId_val (by omega)
  obtain ⟨hinfo, hcnt⟩ := t.put_self (innerId k) (a.cnt + b.cnt) (.inner a.id b.id)
  have hold := fun m (hm : m ≠ innerId k) => t.put_of_ne hm (a.cnt + b.cnt) (.inner a.id b.id)
  have hsum : a.cnt + b.cnt = t.cnt[a.id] + t.cnt[b.id] := by rw [h.cnt_eq (by simp), h.cnt_eq (by simp)]
  have harena := h.arena.succ hp h.takesTwoLeast ⟨hinfo, hcnt.trans hsum⟩ hold
  have hnew : ∀ n : NodeId, n.val < 256 + k → n ≠ innerId k := fun n hn e => by
    rw [e, hp] at hn
    omega
  refine ⟨harena, ?sorted, fun e => ?queue, ?size⟩
  case size =>
    rw [(insertEntry_perm _ q).length_eq, List.length_cons]
    omega
  case sorted =>
    exact insertEntry_sorted h.sorted.of_cons.of_cons fun g hg => hnew _ (h.id_lt (.tail _ (.tail _ hg)))
  case queue =>
    rw [mem_insertEntry, h.mem_rest, inQueueAt_succ hp hinfo fun _ _ => harena.child_lt,
      InQueueAt.congr fun m hm => (hold m (hnew m hm)).1]
    constructor
    · rintro (rfl | ⟨hrest, hc⟩)
      · exact ⟨.inl rfl, hcnt.symm⟩
      · have ⟨⟨_, hlt, _⟩, _⟩ := hrest
        exact ⟨.inr hrest, hc.trans (hold _ (hnew _ hlt)).2.symm⟩
    · rintro ⟨hid | hrest, hc⟩
      · obtain ⟨w, n⟩ := e
        obtain rfl : n = innerId k := hid
        exact .inl (by rw [← hcnt, ← hc])
      · have ⟨⟨_, hlt, _⟩, _⟩ := hrest
        exact .inr ⟨hrest, hc.trans (hold _ (hnew _ hlt)).2⟩

/-- The merge loop ends with ROOT alone in PQ (42_tree_builder.md R170, R175). -/
theorem of_mergeLoop {t' : Tree} {fuel : Nat} (h : Merged f k q t) (hrun : mergeLoop fuel k q t = some t') :
    ∃ (k' : Nat) (e : Entry), Merged f k' [e] t' ∧ t'.root = e.id := by
  induction fuel, k, q, t using mergeLoop.induct with
  | case1 => simp [mergeLoop] at hrun
  | case2 fuel k e t =>
    obtain rfl : { t with root := e.id } = t' := by simpa [mergeLoop] using hrun
    exact ⟨k, e, ⟨h.arena, h.sorted, h.queue, h.size⟩, rfl⟩
  | case3 => simp [mergeLoop] at hrun
  | case4 fuel k a b q t ih => exact ih h.merge hrun

end Merged

/-- BUILD makes one merge less than there are symbols, and ROOT is the only node in PQ after the last (42_tree_builder.md R170,
R175). -/
theorem mergedArena_of_buildTree {f : Vector Word 256} {t : Tree} (h : buildTree f = some t) :
    ∃ k, k + 1 = (presentSymbols f).length ∧ MergedArena f k t.cnt t.info ∧
      ∀ n : NodeId, InQueueAt t.info k n ↔ n = t.root := by
  obtain ⟨k, e, hmerged, hroot⟩ := (Merged.init f).of_mergeLoop h
  refine ⟨k, (Nat.add_comm _ _).trans hmerged.size, hmerged.arena, fun n => ?_⟩
  rw [hroot]
  constructor
  · intro hn
    have he : { cnt := t.cnt[n], id := n } = e := List.mem_singleton.1 ((hmerged.queue _).2 ⟨hn, rfl⟩)
    rw [← he]
  · rintro rfl
    exact ((hmerged.queue e).1 (by simp)).1

/-- The root of a tree of one symbol is its leaf (42_tree_builder.md R176). -/
theorem CodeTree.BuiltIn.root_eq_leafId {f : Vector Word 256} {t : Tree} {T : CodeTree} (h : T.BuiltIn f t)
    (hone : (presentSymbols f).length = 1) : ∃ c : Symbol, f[c] ≠ 0 ∧ t.root = leafId c := by
  obtain ⟨c, rfl⟩ := CodeTree.eq_leaf_of_length (h.leaves.length_eq.trans hone)
  exact ⟨c, mem_presentSymbols.1 (h.leaves.mem_iff.1 (by simp [CodeTree.leaves])), h.root⟩

/-! ## BUILD -/

/-- Where BUILD leaves TREE_VALID = 1 it has made the tree of FREQ (10_state.md R25). -/
theorem buildStage_tree {s t : State} (h : buildStage s = .next t) (hv : t.valid.tree = true) :
    buildTree s.freq = some t.tree := by
  rcases buildStage_next h with ⟨e, rfl⟩ | ⟨_, tr, htr, rfl⟩
  · exact absurd hv nofun
  · rw [htr]
    simp [State.tree]

/-- BUILD writes no other stage's results, whether it fails or not (40_command_sequencer.md R126, R129). -/
theorem buildStage_frame {s t : State} (h : buildStage s = .next t) :
    SameFreq s t ∧ SameCodes s t ∧ SameStream s t ∧ SameOutput s t := by
  rcases buildStage_next h with ⟨e, rfl⟩ | ⟨_, _, _, rfl⟩ <;>
    simp [SameFreq, SameCodes, SameStream, SameOutput, State.begun]

/-- BUILD completes on every table that is not empty and leaves its tree (42_tree_builder.md R170). -/
theorem exists_buildStage_completes {s : State} (hv : s.valid.freq = true) (hn : s.nsym ≠ 0)
    (hpresent : ∃ c : Symbol, s.freq[c] ≠ 0) :
    ∃ t, buildStage s = .next t ∧ buildTree s.freq = some t.tree ∧
      FlagsCompleted .build s t ∧ StageEnds s t ∧ CounterWritten .build s t := by
  obtain ⟨c, hc⟩ := hpresent
  obtain ⟨tr, _, htr, _⟩ := exists_buildTree (List.ne_nil_of_mem (mem_presentSymbols.2 hc))
  have hbegun : buildTree (s.begun .build).freq = some tr := htr
  have hcheck : buildCheck (s.startStage .build) = .ok none := buildCheck_eq_none.2 ⟨hv, hn⟩
  obtain ⟨t, hstage, hflags, hends, hcounter⟩ :=
    isStage_build.completes (st := .build) (by decide) hcheck (by rw [buildBody, hbegun])
  exact ⟨t, hstage, buildStage_tree hstage (hflags .build), hflags, hends, hcounter⟩

/-- Settles O27: an internal node is that of a merge, which took the two least. -/
theorem buildMergesTheTwoLeastKeys : Obligations.BuildMergesTheTwoLeastKeys := by
  intro i s hp hv hn hpresent
  obtain ⟨t, hstage, htree, _⟩ := exists_buildStage_completes hv hn hpresent
  obtain ⟨k, _, harena, _⟩ := mergedArena_of_buildTree htree
  refine ⟨t, (exec_of_performs_build hp).trans hstage, fun j p l r hj hinner => ?_⟩
  obtain ⟨j', hj', _, hleast⟩ := harena.exists_merge hinner
  obtain rfl : j' = j := by omega
  exact hleast

/-- Settles O28: a merge takes nodes that are no node's child yet, and ROOT alone is left in PQ. -/
theorem buildMakesOneFullBinaryTree : Obligations.BuildMakesOneFullBinaryTree := by
  intro i s hp hv hn hpresent
  obtain ⟨t, hstage, htree, _⟩ := exists_buildStage_completes hv hn hpresent
  obtain ⟨k, _, harena, hroot⟩ := mergedArena_of_buildTree htree
  have hqueue : InQueueAt t.nodeInfo k t.root := (hroot t.root).2 rfl
  refine ⟨t, (exec_of_performs_build hp).trans hstage, hqueue.1, harena.not_isChild hqueue, fun p l r => harena.children,
    fun n hnode hne => ?_⟩
  obtain ⟨p, hparent⟩ := harena.exists_parent hnode fun h => hne ((hroot n).1 h)
  exact ⟨p, hparent, fun q hq => harena.parent_unique hq hparent⟩

/-- Settles O26: the arena after the last merge, with ROOT as the invariant of the tree gives it. -/
theorem buildMakesLeavesAndMerges : Obligations.BuildMakesLeavesAndMerges := by
  intro i s hp hv hn hpresent
  obtain ⟨t, hstage, htree, hflags, hends, hcounter⟩ := exists_buildStage_completes hv hn hpresent
  have hexec : exec i s = .next t := (exec_of_performs_build hp).trans hstage
  obtain ⟨k, hk, harena, _⟩ := mergedArena_of_buildTree htree
  obtain ⟨T, hT⟩ := buildTree_eq_some htree
  obtain ⟨hfreq, hcodes, hstream, houtput⟩ := buildStage_frame hstage
  have hlength : (List.finRange 256).countP (fun c : Symbol => decide (s.freq[c] ≠ 0)) = (presentSymbols s.freq).length :=
    List.countP_eq_length_filter
  refine ⟨t, hexec, ?_⟩
  rw [hlength, ← hk]
  refine ⟨harena.leaf, fun n hlow hhigh => ?inner, fun n hn => harena.fresh n (by omega), fun hone => ?sole,
    fun htwo => ?last, hflags, hends, hcounter, exec_engineFrame hexec, hfreq, hcodes, hstream, houtput⟩
  case inner =>
    obtain ⟨l, r, hinfo, hcnt, _⟩ := harena.merged (n.val - 256) n (by omega) (by omega)
    exact ⟨l, r, hinfo, hcnt⟩
  case sole =>
    exact hT.root_eq_leafId (hk ▸ hone)
  case last =>
    have hroot : t.root = T.root := hT.root
    rw [hroot, hk]
    exact hT.last (hk ▸ htwo)

end Sys2Proof.Machine
end

section
/-!
GENCODE (O31, O32): it completes on every tree it can walk, and the codes it makes of BUILD's tree lead from ROOT to the leaves
(43_code_table.md R190 to R196).
-/

namespace Sys2Proof.Machine

/-! ## MAXLEN -/

/-- MAXLEN is at least every code length and is one of them (43_code_table.md R194). -/
theorem maxCodeLen_largest (len : Vector Byte 256) :
    (∀ c : Symbol, len[c].toNat ≤ (BitVec.ofNat 8 (maxCodeLen len)).toNat) ∧
    ∃ c : Symbol, len[c] = BitVec.ofNat 8 (maxCodeLen len) := by
  have hfold : maxCodeLen len = ((len.toList.map BitVec.toNat).max?).getD 0 := by
    rw [maxCodeLen, ← List.foldl_map, List.foldl_max, Nat.zero_max]
  have hmem : ∀ c : Symbol, len[c].toNat ∈ len.toList.map BitVec.toNat := fun c =>
    List.mem_map_of_mem (by simp)
  obtain ⟨m, hm⟩ : ∃ m, (len.toList.map BitVec.toNat).max? = some m :=
    Option.ne_none_iff_exists'.1 fun h => List.ne_nil_of_mem (hmem 0) (List.max?_eq_none_iff.1 h)
  obtain ⟨hattained, hlargest⟩ := List.max?_eq_some_iff.1 hm
  obtain ⟨v, hv, rfl⟩ := List.mem_map.1 hattained
  obtain ⟨c, hc, rfl⟩ := List.mem_iff_getElem.1 hv
  simp only [hfold, hm, Option.getD_some, BitVec.ofNat_toNat, BitVec.setWidth_eq]
  exact ⟨fun d => hlargest _ (hmem d), ⟨c, by simpa using hc⟩, by simp⟩

/-! ## A GENCODE that completes -/

/-- Where GENCODE leaves CTAB_VALID = 1 it has made the code table of the tree (10_state.md R25). -/
theorem gencodeStage_table {s t : State} (h : gencodeStage s = .next t) (hv : t.valid.ctab = true) :
    genCode s.nodeInfo s.root = .ok t.codeTable ∧ t.maxLen = BitVec.ofNat 8 (maxCodeLen t.ctabLen) := by
  rcases gencodeStage_next h with ⟨e, rfl⟩ | ⟨_, tab, htab, rfl⟩
  · exact absurd hv nofun
  · simp [htab, State.codeTable]

/-- GENCODE writes no other stage's results, whether it fails or not (43_code_table.md R196; 40_command_sequencer.md R129). -/
theorem gencodeStage_frame {s t : State} (h : gencodeStage s = .next t) :
    SameFreq s t ∧ SameTree s t ∧ SameStream s t ∧ SameOutput s t := by
  rcases gencodeStage_next h with ⟨e, rfl⟩ | ⟨_, _, _, rfl⟩ <;>
    simp [SameFreq, SameTree, SameStream, SameOutput, State.begun]

/-- GENCODE, and stage 3 of RUN, complete on every tree that has a code table, and leave the table with its MAXLEN and nothing
else (43_code_table.md R190, R194, R196). -/
theorem exists_exec_gencode {i : Instr} {s : State} {tab : CodeTable} (hp : s.performs i .gencode = true)
    (hv : s.valid.tree = true) (htab : genCode s.nodeInfo s.root = .ok tab) :
    ∃ t, exec i s = .next t ∧ t.codeTable = tab ∧
      (∀ c : Symbol, t.ctabLen[c].toNat ≤ t.maxLen.toNat) ∧ (∃ c : Symbol, t.ctabLen[c] = t.maxLen) ∧
      FlagsCompleted .gencode s t ∧ StageEnds s t ∧ CounterWritten .gencode s t ∧ EngineFrame s t ∧
      SameFreq s t ∧ SameTree s t ∧ SameStream s t ∧ SameOutput s t := by
  have hcheck : gencodeCheck (s.startStage .gencode) = .ok none := gencodeCheck_eq_none.2 hv
  have hbegun : genCode (s.begun .gencode).nodeInfo (s.begun .gencode).root = .ok tab := htab
  obtain ⟨t, hstage, hflags, hends, hcounter⟩ :=
    isStage_gencode.completes (st := .gencode) (by decide) hcheck (by rw [gencodeBody, hbegun])
  have hexec : exec i s = .next t := (exec_of_performs_gencode hp).trans hstage
  obtain ⟨htable, hmax⟩ := gencodeStage_table hstage (hflags .gencode)
  obtain ⟨hle, hattained⟩ := maxCodeLen_largest t.ctabLen
  rw [← hmax] at hle hattained
  exact ⟨t, hexec, Except.ok.inj (htable.symm.trans htab), hle, hattained, hflags, hends, hcounter,
    exec_engineFrame hexec, gencodeStage_frame hstage⟩

/-! ## Codes lead to leaves -/

/-- The value of a bit string fits its length. -/
theorem msbFirst_lt (p : List Bool) : msbFirst p < 2 ^ p.length := by
  induction p using List.reverseRecOn with
  | nil => simp [msbFirst]
  | append_singleton p b ih =>
    have := b.toNat_le
    rw [msbFirst_concat, List.length_append, List.length_singleton, Nat.pow_succ]
    omega

namespace CodeTree

variable {f : Vector Word 256} {T : CodeTree} {x : Symbol × List Bool}

/-- What a path of a tree adds to where it starts leads from the tree's root to the leaf (43_code_table.md R191). -/
theorem Held.follow_of_mem_paths {cnt : Vector Word 511} {info : Vector NodeInfo 511} (h : T.Held f cnt info)
    {p : List Bool} (hx : x ∈ T.paths p) : ∃ q, x.2 = p ++ q ∧ follow info T.root q = some (leafId x.1) := by
  induction T generalizing p with
  | leaf c =>
    obtain rfl : x = (c, p) := by simpa [paths] using hx
    exact ⟨[], by simp, rfl⟩
  | inner n l r ihl ihr =>
    obtain ⟨hinfo, _, hl, hr⟩ := h
    rcases List.mem_append.1 hx with hx | hx
    · obtain ⟨q, hq, hfollow⟩ := ihl hl hx
      exact ⟨false :: q, by simp [hq], by simpa [follow, hinfo] using hfollow⟩
    · obtain ⟨q, hq, hfollow⟩ := ihr hr hx
      exact ⟨true :: q, by simp [hq], by simpa [follow, hinfo] using hfollow⟩

variable {t : Tree}

/-- The root of a tree with a merge is no leaf: the merges have the ids from 256 on (42_tree_builder.md R173). -/
theorem BuiltIn.root_ne_leafId {n : NodeId} {l r : CodeTree} (h : (inner n l r).BuiltIn f t) (c : Symbol) :
    t.root ≠ leafId c := by
  intro hroot
  have hid : (inner n l r).root.val = c.val := congrArg Fin.val (h.root.symm.trans hroot)
  have hheight := (inner n l r).height_lt_leaves
  have hlast := h.last
  have := c.isLt
  rw [← h.leaves.length_eq] at hlast
  simp only [height] at hheight
  omega

/-- A code leads from ROOT to the leaf of its symbol, unless that leaf is ROOT (43_code_table.md R191, R192). -/
theorem BuiltIn.follow_code (h : T.BuiltIn f t) (hx : x ∈ T.codes) :
    if t.root = leafId x.1 then x.2 = [false] else follow t.info t.root x.2 = some (leafId x.1) := by
  cases T with
  | leaf c =>
    obtain rfl : x = (c, [false]) := by simpa [codes] using hx
    exact (if_pos h.root).mpr rfl
  | inner n l r =>
    obtain ⟨q, hq, hfollow⟩ := h.held.follow_of_mem_paths (p := []) hx
    rw [if_neg (h.root_ne_leafId x.1), h.root, hq]
    exact hfollow

/-- The symbols with a code are those present (43_code_table.md R193). -/
theorem BuiltIn.mem_codes_symbols (h : T.BuiltIn f t) (c : Symbol) : c ∈ T.codes.map Prod.fst ↔ f[c] ≠ 0 := by
  rw [T.codes_symbols, h.leaves.mem_iff, mem_presentSymbols]

theorem BuiltIn.codes_nodup (h : T.BuiltIn f t) : (T.codes.map Prod.fst).Nodup := by
  rw [T.codes_symbols]
  exact h.leaves.nodup_iff.2 (presentSymbols_nodup f)

end CodeTree

/-- CTAB_CVAL of a table made of the tree of FREQ: the value of the code, or 0 where there is none (43_code_table.md R190,
R193). -/
theorem State.ctabVal_of_table {s : State} {T : CodeTree} (hT : T.BuiltIn s.freq s.tree)
    (h : s.codeTable = T.codes.foldl CodeTable.assign CodeTable.empty) :
    (∀ x ∈ T.codes, s.ctabVal[x.1].toNat = msbFirst x.2) ∧ ∀ c : Symbol, s.freq[c] = 0 → s.ctabVal[c] = 0 := by
  have hval : s.ctabVal = (T.codes.foldl CodeTable.assign CodeTable.empty).val := congrArg CodeTable.val h
  rw [hval]
  refine ⟨fun x hx => ?_, fun c hc => ?_⟩
  · have hlt : msbFirst x.2 < 2 ^ 255 :=
      (msbFirst_lt x.2).trans_le (Nat.pow_le_pow_right (by decide) (CodeTree.codes_length hT.leaves_length_le hx).2)
    rw [(CodeTable.foldl_assign_of_mem hT.codes_nodup hx).2, BitVec.toNat_ofNat, Nat.mod_eq_of_lt hlt]
  · have hno : c ∉ T.codes.map Prod.fst := fun hmem => (hT.mem_codes_symbols c).1 hmem hc
    rw [(CodeTable.foldl_assign_of_notMem hno).2]
    simp [CodeTable.empty]

/-- Settles O31: the table GENCODE makes is the codes of the tree in the arena, which FREQ and the tree still are afterwards. -/
theorem gencodeAssignsPathsAsCodes : Obligations.GencodeAssignsPathsAsCodes := by
  intro i s hp hv htree
  obtain ⟨T, hT⟩ := buildTree_eq_some htree
  obtain ⟨t, hexec, htable, hle, hattained, hflags, hends, hcounter, hframe, ⟨hfreq, hnsym⟩, ⟨hcnt, hinfo, hroot⟩,
    hrest⟩ := exists_exec_gencode hp hv (genCode_eq hT)
  have hbuilt : T.BuiltIn t.freq t.tree := by
    rw [State.tree, hcnt, hinfo, hroot, hfreq]
    exact hT
  have hcodes : t.HoldsCodes T := State.holdsCodes_of_table hbuilt htable
  obtain ⟨hval, hval0⟩ := State.ctabVal_of_table hbuilt htable
  refine ⟨t, hexec, hfreq ▸ fun c hc => ⟨hcodes.absent c hc, hval0 c hc⟩, hfreq ▸ fun c hc => ?present, hle,
    hattained, hflags, hends, hcounter, hframe, ⟨hfreq, hnsym⟩, ⟨hcnt, hinfo, hroot⟩, hrest⟩
  case present =>
    obtain ⟨p, hx⟩ := hcodes.exists_code hc
    refine ⟨(hcodes.one_le_length c).2 hc, ?value, ?path⟩
    case value =>
      rw [hval _ hx, hcodes.length _ hx]
      exact msbFirst_lt p
    case path =>
      rw [hcodes.code _ hx]
      exact hT.follow_code hx

/-! ## A root that is a leaf -/

/-- At a root that is a leaf GENCODE writes the code "0" of its symbol in an empty table (43_code_table.md R192). -/
theorem genCode_leaf {info : Vector NodeInfo 511} {root : NodeId} {c : Symbol} (hroot : root = leafId c)
    (h : info[root] = .leaf) : genCode info root = .ok (CodeTable.empty.assign (c, [false])) := by
  subst hroot
  rw [genCode, h]
  exact CodeTable.put_leafId CodeTable.empty c [false]

/-- The entries of a table in which one symbol alone has a code, the code "0". -/
theorem CodeTable.assign_empty (c d : Symbol) :
    (CodeTable.empty.assign (c, [false])).len[d] = (if d = c then 1#8 else 0#8) ∧
    (CodeTable.empty.assign (c, [false])).val[d] = 0#255 := by
  by_cases hd : d = c
  · subst hd
    simp [CodeTable.assign, msbFirst]
  · have hne : c.val ≠ d.val := fun e => hd (Fin.ext e.symm)
    simp [CodeTable.assign, CodeTable.empty, hd, hne]

/-- Settles O32: the table holds one code, of one bit, which is then the largest length. -/
theorem gencodeGivesTheSoleSymbolZero : Obligations.GencodeGivesTheSoleSymbolZero := by
  intro i s c hp hv hroot hleaf
  obtain ⟨t, hexec, htable, hle, ⟨d, hd⟩, hrest⟩ := exists_exec_gencode hp hv (genCode_leaf hroot hleaf)
  have hentries : ∀ d : Symbol, t.ctabLen[d] = (if d = c then 1#8 else 0#8) ∧ t.ctabVal[d] = 0#255 := by
    rw [show t.ctabLen = _ from congrArg CodeTable.len htable, show t.ctabVal = _ from congrArg CodeTable.val htable]
    exact CodeTable.assign_empty c
  obtain ⟨hlen, hval⟩ := hentries c
  rw [if_pos rfl] at hlen
  refine ⟨t, hexec, ?code, ?maxLen, hentries, hrest⟩
  case code => simp [State.code, State.codeLen, hlen, hval, bitsOf]
  case maxLen =>
    rw [← hd, (hentries d).1]
    by_cases hdc : d = c
    · exact if_pos hdc
    · have hpos := hle c
      rw [hlen, ← hd, (hentries d).1, if_neg hdc] at hpos
      exact absurd hpos (by decide)

end Sys2Proof.Machine
end

section
/-!
ENCODE (O36) and its parallel form (O58): what a completed ENCODE leaves of the stream (44_bit_encoder.md R210 to R214), and the
slots of the workers (R215).
-/

namespace Sys2Proof.Machine

/-! ## The stream by the bytes of IBUF -/

/-- The codes of the input with each bit read from CTAB_CVAL (44_bit_encoder.md R214). -/
theorem State.codedInput_eq (s : State) :
    s.codedInput = (List.range s.len.toNat).flatMap fun k =>
      (List.range s.ctabLen[symbolOfByte (s.ibuf.read k)].toNat).map fun j =>
        s.ctabVal[symbolOfByte (s.ibuf.read k)].getLsbD (s.ctabLen[symbolOfByte (s.ibuf.read k)].toNat - 1 - j) := by
  simp [State.codedInput, State.input, Memory.readBytes, List.flatMap_map, State.code, bitsOf, State.codeLen]

/-! ## An ENCODE that completes -/

/-- Where ENCODE leaves ENC_VALID = 1 it has made the stream of the input and its two lengths (10_state.md R25). -/
theorem encodeStage_stream {s t : State} (h : encodeStage s = .next t) (hv : t.valid.enc = true) :
    t.bbuf = s.encodedStream ∧ t.rawBits = BitVec.ofNat 32 s.rawLength ∧ t.encBits = BitVec.ofNat 32 s.encLength := by
  rcases encodeStage_next h with ⟨e, rfl⟩ | rfl | ⟨_, _, _, _, rfl⟩
  · exact absurd hv nofun
  · exact absurd hv nofun
  · have hraw : (s.begun .encode).rawLength = s.rawLength := rfl
    have henc : (s.begun .encode).encLength = s.encLength := rfl
    simp [State.putLengths, hraw, henc]

/-- ENCODE writes no other stage's results, whether it fails or not (40_command_sequencer.md R126, R129). -/
theorem encodeStage_frame {s t : State} (h : encodeStage s = .next t) :
    SameFreq s t ∧ SameTree s t ∧ SameCodes s t ∧ SameOutput s t := by
  rcases encodeStage_next h with ⟨e, rfl⟩ | rfl | ⟨_, _, _, _, rfl⟩ <;>
    simp [SameFreq, SameTree, SameCodes, SameOutput, State.begun]

/-- Settles O36: the stage completes, and ENC_VALID = 1 says what BBUF, RAW_BITS and ENC_BITS hold. -/
theorem encodeConcatenatesTheCodes : Obligations.EncodeConcatenatesTheCodes := by
  intro i s hp hv hnw hcfg hlen raw pad hfits
  have hraw : raw = s.rawLength := s.rawLength_eq.symm
  have henc : raw + pad = s.encLength := by rw [State.encLength, ceil8_eq, ← hraw]
  have hpad : s.encLength - s.rawLength = pad := by omega
  rw [henc] at hfits
  have hcheck : encodeCheck (s.startStage .encode) = .ok none :=
    encodeCheck_eq_none.2 ⟨hv, decide_eq_true hnw, decide_eq_true hlen, hfits⟩
  obtain ⟨t, hstage, hflags, hends, hcounter⟩ := isStage_encode.completes (st := .encode) (by decide) hcheck rfl
  have hexec : exec i s = .next t := (exec_of_performs_encode hp).trans hstage
  obtain ⟨hbbuf, hrawBits, hencBits⟩ := encodeStage_stream hstage (hflags .encode)
  obtain ⟨hrawLt, hencLt⟩ := State.lengths_lt hcfg hlen
  rw [henc, hraw]
  refine ⟨t, hexec, ?stream, hrawBits ▸ Nat.mod_eq_of_lt hrawLt, hencBits ▸ Nat.mod_eq_of_lt hencLt,
    hbbuf ▸ s.encodedStream_length, Nat.mul_mod_left _ 8, hflags, hends, hcounter, exec_engineFrame hexec,
    encodeStage_frame hstage⟩
  case stream => rw [hbbuf, State.encodedStream, s.codedInput_eq, hpad]

/-! ## The slots of the workers -/

/-- A slot written by some worker holds what that worker writes, in whatever order they finish; the others are as they were
(44_bit_encoder.md R215). -/
theorem foldl_set_eq_mapIdx {α : Type} (f : Nat → α) (order : List Nat) (slots : List α) :
    order.foldl (fun slots k => slots.set k (f k)) slots = slots.mapIdx fun j x => if j ∈ order then f j else x := by
  induction order generalizing slots with
  | nil => exact List.ext_getElem (by simp) fun j _ _ => by simp
  | cons k ks ih =>
    rw [List.foldl_cons, ih]
    refine List.ext_getElem (by simp) fun j _ _ => ?_
    by_cases hj : j = k
    · subst hj
      simp
    · simp [List.getElem_set_of_ne (Ne.symm hj), hj]

/-- Where each worker of `w` finishes, the slots are theirs in index order. -/
theorem foldl_set_replicate {α : Type} (f : Nat → α) (x : α) {w : Nat} {order : List Nat}
    (horder : order.Perm (List.range w)) :
    order.foldl (fun slots k => slots.set k (f k)) (List.replicate w x) = (List.range w).map f := by
  rw [foldl_set_eq_mapIdx]
  refine List.ext_getElem (by simp) fun j hj _ => ?_
  have hmem : j ∈ order := horder.mem_iff.2 (List.mem_range.2 (by simpa using hj))
  simp [hmem]

/-- Settles O58: the slots in index order hold the codes of the chunks, which cover the input. -/
theorem parallelEncodeEqualsSequential : Obligations.ParallelEncodeEqualsSequential := by
  intro code bytes w order hw horder
  rw [encodeParallel, foldl_set_replicate _ _ horder, ← List.flatMap_def, ← List.flatMap_assoc,
    chunksCoverInOrder.1 bytes w hw]

end Sys2Proof.Machine
end

section
/-!
PACK (O38) and its parallel form (O59): the bits of the bytes it writes (45_bit_packer.md R232), what a completed PACK leaves
(R233), and the bytes of the workers (R231, R234).
-/

namespace Sys2Proof.Machine

/-! ## The packed bytes -/

/-- Byte `j` of a packed stream is the value of its bits from 8j on (45_bit_packer.md R232). -/
theorem packBytes_getElem {n j : Nat} (bits : List Bool) (hj : j < (packBytes n bits).length) :
    (packBytes n bits)[j] = BitVec.ofNat 8 (msbFirst ((bits.drop (8 * j)).take 8)) := by
  induction n generalizing j bits with
  | zero => exact absurd hj (Nat.not_lt_zero j)
  | succ n ih =>
    cases j with
    | zero => rfl
    | succ j =>
      simp only [packBytes, List.getElem_cons_succ]
      rw [ih, List.drop_drop, Nat.mul_succ, Nat.add_comm]

/-- The first of eight bits is the most significant of their byte (45_bit_packer.md R232). -/
theorem byte_msbFirst_getLsbD {p : List Bool} (hp : p.length = 8) {k : Nat} (hk : k < 8) :
    some ((BitVec.ofNat 8 (msbFirst p)).getLsbD (7 - k)) = p[k]? := by
  have hrev : p.length - 1 - (7 - k) = k := by omega
  rw [BitVec.getLsbD_ofNat, decide_eq_true (by omega), Bool.true_and, msbFirst_testBit,
    List.getD_eq_getElem _ _ (by simp; omega), List.getElem_reverse, List.getElem?_eq_getElem (by omega)]
  simp only [hrev]

/-- Bit 8j + k of a stream is bit 7 - k of byte j of its packed form (45_bit_packer.md R232). -/
theorem packBytes_getLsbD {n j k : Nat} {bits : List Bool} (hbits : 8 * n ≤ bits.length) (hj : j < n) (hk : k < 8) :
    some (((packBytes n bits).getD j 0).getLsbD (7 - k)) = bits[8 * j + k]? := by
  have hlen : ((bits.drop (8 * j)).take 8).length = 8 := by
    rw [List.length_take, List.length_drop]
    omega
  rw [List.getD_eq_getElem _ _ (by simpa using hj), packBytes_getElem, byte_msbFirst_getLsbD hlen hk,
    List.getElem?_take_of_lt hk, List.getElem?_drop]

/-- A read after the packed bytes are written from address 0 on (45_bit_packer.md R233). -/
theorem read_writeBytes_packBytes {m : Memory} (h : m.wf = true) (n : Nat) (bits : List Bool) (a : Nat) :
    (m.writeBytes 0 (packBytes n bits)).read a = if a < n then (packBytes n bits).getD a 0 else m.read a := by
  simp [Memory.read_writeBytes _ _ _ _ h]

/-! ## A PACK that completes -/

/-- Where the stream is in BBUF and its bytes fit OBUF, the body of PACK meets no fault (log 11). -/
theorem packBody_eq_of_fits {s : State} (hlong : 8 * s.packLength ≤ s.bbuf.length)
    (hfits : s.packLength ≤ s.cfg.obufBytes) :
    packBody s = .ok { s with
      obuf := s.obuf.writeBytes 0 (packBytes s.packLength s.bbuf)
      outLen := BitVec.ofNat 32 s.packLength } := by
  rw [packBody, if_neg (Nat.not_lt.2 hlong), if_neg (Nat.not_lt.2 hfits)]

/-- Where PACK leaves OUT_VALID = 1 it has written the packed bytes and their number (10_state.md R25). -/
theorem packStage_output {s t : State} (h : packStage s = .next t) (hv : t.valid.out = true) :
    t.obuf = s.obuf.writeBytes 0 (packBytes s.packLength s.bbuf) ∧ t.outLen = BitVec.ofNat 32 s.packLength := by
  rcases packStage_next h with ⟨e, rfl⟩ | ⟨_, _, _, rfl⟩
  · exact absurd hv nofun
  · simp

/-- PACK writes no other stage's results, whether it fails or not (40_command_sequencer.md R126, R129). -/
theorem packStage_frame {s t : State} (h : packStage s = .next t) :
    SameFreq s t ∧ SameTree s t ∧ SameCodes s t ∧ SameStream s t := by
  rcases packStage_next h with ⟨e, rfl⟩ | ⟨_, _, _, rfl⟩ <;>
    simp [SameFreq, SameTree, SameCodes, SameStream, State.begun]

/-- Settles O38: the stage completes, and OUT_VALID = 1 says what OBUF and OUTLEN hold. -/
theorem packWritesBytesMostSignificantBitFirst : Obligations.PackWritesBytesMostSignificantBitFirst := by
  intro i s hp hv hnw hwf hlen hfits
  have hlong : 8 * s.packLength ≤ s.bbuf.length := hlen ▸ Nat.mul_div_le s.encBits.toNat 8
  have hcheck : packCheck (s.startStage .pack) = .ok none := packCheck_eq_none.2 ⟨hv, decide_eq_true hnw⟩
  have hbody := packBody_eq_of_fits (s := s.begun .pack) hlong hfits
  obtain ⟨t, hstage, hflags, hends, hcounter⟩ := isStage_pack.completes (st := .pack) (by decide) hcheck hbody
  have hexec : exec i s = .next t := (exec_of_performs_pack hp).trans hstage
  obtain ⟨hobuf, houtLen⟩ := packStage_output hstage (hflags .pack)
  have hread := read_writeBytes_packBytes hwf s.packLength s.bbuf
  rw [← hobuf] at hread
  refine ⟨t, hexec, fun j k (hj : j < s.packLength) hk => ?bits, fun a (ha : s.packLength ≤ a) => ?kept, ?outLen,
    hflags, hends, hcounter, exec_engineFrame hexec, packStage_frame hstage⟩
  case bits => rw [hread, if_pos hj, packBytes_getLsbD hlong hj hk]
  case kept => rw [hread, if_neg (Nat.not_lt.2 ha)]
  case outLen =>
    rw [houtLen, BitVec.toNat_ofNat]
    exact Nat.mod_eq_of_lt ((Nat.div_le_self _ 8).trans_lt s.encBits.isLt)

/-! ## The bytes of the workers -/

/-- The bytes of OBUF that worker `k` of `w` writes for a stream of `b` bits, as (start, end) (45_bit_packer.md R234). -/
def packByteBounds (b w k : Nat) : Nat × Nat := ((packChunkBounds b w k).1 / 8, (packChunkBounds b w k).2 / 8)

theorem packChunkBounds_snd_le (b w k : Nat) : (packChunkBounds b w k).2 ≤ b := by
  unfold packChunkBounds
  split
  · exact Nat.min_le_right _ b
  · exact Nat.le_refl b

theorem packByteBounds_snd_le (b w k : Nat) : (packByteBounds b w k).2 ≤ b / 8 :=
  Nat.div_le_div_right (packChunkBounds_snd_le b w k)

/-- Packing a part of a stream that splits no byte gives that part of the packed stream (45_bit_packer.md R231). -/
theorem packBytes_slice {bits : List Bool} {start stop n : Nat} (hstart : start % 8 = 0) (hstop : stop % 8 = 0)
    (hn : stop / 8 ≤ n) :
    packBytes ((stop - start) / 8) (slice bits (start, stop)) =
      slice (packBytes n bits) (start / 8, stop / 8) := by
  refine List.ext_getElem (by simp [slice]; omega) fun j hj _ => ?_
  rw [packBytes_length] at hj
  have hbits : ((slice bits (start, stop)).drop (8 * j)).take 8 = (bits.drop (8 * (start / 8 + j))).take 8 := by
    rw [slice, List.drop_take, List.take_take, List.drop_drop, Nat.min_eq_left (by omega),
      show start + 8 * j = 8 * (start / 8 + j) by omega]
  rw [packBytes_getElem, hbits]
  simp only [slice, List.getElem_take, List.getElem_drop, packBytes_getElem]

/-- The workers write slices of the sequential bytes (45_bit_packer.md R234). -/
theorem packParallel_eq_foldl_slice {bits : List Bool} (hbits : bits.length % 8 = 0) (w : Nat) (order : List Nat)
    (obuf : Memory) :
    packParallel bits w order obuf = order.foldl (fun o k => o.writeBytes (packByteBounds bits.length w k).1
      (slice (packBytes (bits.length / 8) bits) (packByteBounds bits.length w k))) obuf := by
  refine List.foldl_ext _ _ _ fun o k _ => ?_
  obtain ⟨hstart, hstop⟩ := packChunkBounds_mod hbits w k
  exact congrArg (o.writeBytes _) (packBytes_slice hstart hstop (packByteBounds_snd_le bits.length w k))

/-- A read after writing a slice of bytes at its place: the byte of the slice inside it, the old byte elsewhere. -/
theorem Memory.read_writeBytes_slice {m : Memory} (h : m.wf = true) (bytes : List Byte) {bounds : Nat × Nat}
    (hin : bounds.2 ≤ bytes.length) (a : Nat) :
    (m.writeBytes bounds.1 (slice bytes bounds)).read a =
      if bounds.1 ≤ a ∧ a < bounds.2 then bytes.getD a 0 else m.read a := by
  have hiff : (bounds.1 ≤ a ∧ a < bounds.1 + (slice bytes bounds).length) ↔ (bounds.1 ≤ a ∧ a < bounds.2) := by
    rw [slice, List.length_take, List.length_drop]
    omega
  rw [Memory.read_writeBytes _ _ _ _ h]
  simp only [hiff]
  by_cases ha : bounds.1 ≤ a ∧ a < bounds.2
  · rw [if_pos ha, if_pos ha, slice, List.getD_eq_getElem?_getD, List.getElem?_take_of_lt (by omega),
      List.getElem?_drop, Nat.add_sub_cancel' ha.1, List.getD_eq_getElem?_getD]
  · rw [if_neg ha, if_neg ha]

/-- A read after writing slices of one sequence of bytes at their places, in any order: the byte of the sequence where some
slice covers the address, the old byte elsewhere. -/
theorem Memory.read_foldl_writeBytes_slice (bytes : List Byte) {bounds : Nat → Nat × Nat}
    (hin : ∀ k, (bounds k).2 ≤ bytes.length) (order : List Nat) {m : Memory} (h : m.wf = true) (a : Nat) :
    (order.foldl (fun o k => o.writeBytes (bounds k).1 (slice bytes (bounds k))) m).read a =
      if ∃ k ∈ order, (bounds k).1 ≤ a ∧ a < (bounds k).2 then bytes.getD a 0 else m.read a := by
  induction order generalizing m with
  | nil => simp
  | cons k ks ih =>
    rw [List.foldl_cons, ih (Memory.writeBytes_wf _ _ _ h), Memory.read_writeBytes_slice h bytes (hin k)]
    by_cases hk : (bounds k).1 ≤ a ∧ a < (bounds k).2
    · simp [hk]
    · simp [hk]

/-- Writing bytes any number of times keeps the canonical form. -/
theorem Memory.foldl_writeBytes_wf {m : Memory} (h : m.wf = true) (start : Nat → Nat) (bytes : Nat → List Byte)
    (order : List Nat) : (order.foldl (fun o k => o.writeBytes (start k) (bytes k)) m).wf = true :=
  List.foldlRecOn order (motive := fun o => Memory.wf o = true) _ h fun _ ho _ _ => Memory.writeBytes_wf _ _ _ ho

theorem mem_slice_range {n a : Nat} {bounds : Nat × Nat} (h : a ∈ slice (List.range n) bounds) :
    bounds.1 ≤ a ∧ a < bounds.2 := by
  obtain ⟨i, hi, rfl⟩ := List.mem_iff_getElem.1 h
  simp only [slice, List.length_take, List.getElem_take, List.getElem_drop, List.getElem_range] at hi ⊢
  omega

/-- Every byte of the stream is written by a worker: the first bit of it is in some chunk (45_bit_packer.md R231). -/
theorem exists_mem_packByteBounds {b w a : Nat} (hb : b % 8 = 0) (hw : 1 ≤ w) (ha : a < b / 8) :
    ∃ k < w, (packByteBounds b w k).1 ≤ a ∧ a < (packByteBounds b w k).2 := by
  have hcover : ((List.range w).flatMap fun k => slice (List.range b) (packChunkBounds b w k)) = List.range b :=
    flatMap_slice_cutPoint (List.range b) (ceil8 (b / w)) hw fun k hk => by
      rw [List.length_range, packChunkBounds_eq_cutPoint hk]
  have hmem : 8 * a ∈ List.range b := List.mem_range.2 (by omega)
  rw [← hcover] at hmem
  obtain ⟨k, hk, hin⟩ := List.mem_flatMap.1 hmem
  obtain ⟨hle, hlt⟩ := mem_slice_range hin
  obtain ⟨_, hstop⟩ := packChunkBounds_mod hb w k
  refine ⟨k, List.mem_range.1 hk, ?_⟩
  unfold packByteBounds
  omega

/-- Settles O59: both leave a canonical OBUF, in which every byte reads alike: the workers write the bytes of the stream and no
other. -/
theorem parallelPackEqualsSequential : Obligations.ParallelPackEqualsSequential := by
  intro bits w order obuf hw horder hbits hwf
  have hin := packByteBounds_snd_le bits.length w
  have hcovered : ∀ a, (∃ k ∈ order, (packByteBounds bits.length w k).1 ≤ a ∧ a < (packByteBounds bits.length w k).2) ↔
      a < bits.length / 8 := by
    refine fun a => ⟨fun ⟨k, _, _, hlt⟩ => ?_, fun ha => ?_⟩
    · exact hlt.trans_le (hin k)
    · obtain ⟨k, hk, hcover⟩ := exists_mem_packByteBounds hbits hw ha
      exact ⟨k, horder.mem_iff.2 (List.mem_range.2 hk), hcover⟩
  rw [packParallel_eq_foldl_slice hbits]
  refine canonicalMemoriesReadingAlikeAreEqual _ _ (Memory.foldl_writeBytes_wf hwf _ _ order)
    (Memory.writeBytes_wf _ _ _ hwf) fun a => ?_
  rw [← packBytes_length (bits.length / 8) bits] at hin
  rw [Memory.read_foldl_writeBytes_slice _ hin order hwf, read_writeBytes_packBytes hwf]
  simp only [hcovered]

end Sys2Proof.Machine
end

section
/-!
NOP and CLEAR (O21, O22), and the test-only decoder of 95_test_vectors.md V-EX-1: it reads back what ENCODE and PACK wrote.
-/

namespace Sys2Proof.Machine

/-! ## NOP and CLEAR -/

/-- Settles O21: NOP at the pseudo-stage is `finish_ok` alone. -/
theorem nopOnlyCompletes : Obligations.NopOnlyCompletes := by
  intro s w hs
  exact if_pos ((s.atOnly_iff .zero).2 ⟨w, hs⟩)

/-- Settles O22: CLEAR at the pseudo-stage is `clear_all` and then `finish_ok`. -/
theorem clearDiscardsEveryStageOutput : Obligations.ClearDiscardsEveryStageOutput := by
  intro s w hs
  refine ⟨s.clearAll.finishOk, if_pos ((s.atOnly_iff .zero).2 ⟨w, hs⟩), fun c => ?symbols, fun n => ?nodes, rfl, rfl, rfl,
    rfl, rfl, rfl, fun st => ?counters, rfl, fun st => ?flags, rfl, rfl, rfl,
    ⟨rfl, rfl, rfl, rfl, rfl, rfl, rfl, rfl, rfl⟩, fun _ => rfl, rfl⟩
  case symbols => simp
  case nodes => simp
  case counters => cases st <;> rfl
  case flags => cases st <;> rfl

/-! ## The bits of packed bytes -/

/-- The bits of a byte made of eight bits are those bits (45_bit_packer.md R232). -/
theorem bitsOfByte_msbFirst {p : List Bool} (hp : p.length = 8) :
    ((List.range 8).map fun k => (BitVec.ofNat 8 (msbFirst p)).getLsbD (7 - k)) = p := by
  refine List.ext_getElem (by simp [hp]) fun k hk hk' => ?_
  have hbit := byte_msbFirst_getLsbD hp (k := k) (by omega)
  rw [List.getElem?_eq_getElem hk', Option.some_inj] at hbit
  simpa using hbit

/-- Unpacking gives back the bits that were packed (45_bit_packer.md R232, 20_memory.md R74). -/
theorem bitsOfBytes_packBytes (n : Nat) {bits : List Bool} (h : 8 * n ≤ bits.length) :
    bitsOfBytes (packBytes n bits) = bits.take (8 * n) := by
  induction n generalizing bits with
  | zero => simp [packBytes, bitsOfBytes]
  | succ n ih =>
    have hhead := bitsOfByte_msbFirst (p := bits.take 8) (by rw [List.length_take]; omega)
    have htail := ih (bits := bits.drop 8) (by rw [List.length_drop]; omega)
    rw [bitsOfBytes] at htail
    rw [packBytes, bitsOfBytes, List.flatMap_cons, hhead, htail, ← List.take_add, Nat.mul_succ, Nat.add_comm]

/-! ## Reading a stream of codes -/

/-- Where the code of `c` starts the stream and no other code does, the decoder emits `c` and goes on. -/
theorem decodeStream_append {code : Symbol → List Bool} {c : Symbol} (hne : code c ≠ [])
    (hprefix : ∀ d, code d ≠ [] → (code d <+: code c ∨ code c <+: code d) → d = c) (fuel : Nat) (rest : List Bool) :
    decodeStream code (fuel + 1) (code c ++ rest) = (decodeStream code fuel rest).map (c :: ·) := by
  have hfound : ((List.finRange 256).find? fun d => !(code d).isEmpty && (code d).isPrefixOf (code c ++ rest)).isSome :=
    List.find?_isSome.2 ⟨c, List.mem_finRange c, by simp [hne, List.isPrefixOf_iff_prefix]⟩
  obtain ⟨d, hfind⟩ := Option.isSome_iff_exists.1 hfound
  have hd := List.find?_some hfind
  simp only [Bool.and_eq_true, Bool.not_eq_true', List.isEmpty_eq_false_iff, List.isPrefixOf_iff_prefix] at hd
  obtain ⟨hdne, hdprefix⟩ := hd
  obtain rfl : d = c := hprefix d hdne (List.prefix_or_prefix_of_prefix hdprefix (List.prefix_append _ _))
  obtain ⟨b, bs, hbits⟩ := List.exists_cons_of_ne_nil (List.append_ne_nil_of_left_ne_nil hne rest)
  rw [hbits] at hfind ⊢
  simp only [decodeStream, hfind]
  rw [← hbits, List.drop_left]

/-- Codes of which none starts another are read back from their concatenation (95_test_vectors.md V-EX-4). -/
theorem decodeStream_flatMap {code : Symbol → List Bool}
    (hprefix : ∀ c d, code c ≠ [] → code d ≠ [] → code c <+: code d → c = d) (xs : List Symbol)
    (hne : ∀ c ∈ xs, code c ≠ []) : decodeStream code xs.length (xs.flatMap code) = some xs := by
  induction xs with
  | nil => rfl
  | cons c xs ih =>
    have hc := hne c List.mem_cons_self
    rw [List.flatMap_cons, List.length_cons, decodeStream_append hc fun d hd h => ?_,
      ih fun x hx => hne x (.tail _ hx), Option.map_some]
    exact h.elim (hprefix d c hd hc) fun h => (hprefix c d hc hd h).symm

/-! ## The codes of a state -/

/-- The tree and its code table give the codes of a tree (10_state.md R25). -/
theorem State.exists_holdsCodes {s : State} (htree : s.TreeMeans) (htable : genCode s.nodeInfo s.root = .ok s.codeTable) :
    ∃ T : CodeTree, s.HoldsCodes T := by
  obtain ⟨T, hT⟩ := buildTree_eq_some htree
  have hgen : genCode s.nodeInfo s.root = _ := genCode_eq hT
  exact ⟨T, State.holdsCodes_of_table hT (Except.ok.inj (htable.symm.trans hgen))⟩

theorem State.code_ne_nil_iff {s : State} {c : Symbol} : s.code c ≠ [] ↔ 1 ≤ s.ctabLen[c].toNat := by
  rw [← List.length_pos_iff, State.code, bitsOf_length]
  rfl

/-- The code of one symbol starts that of no other (43_code_table.md R195, law 1). -/
theorem State.HoldsCodes.eq_of_prefix {s : State} {T : CodeTree} (h : s.HoldsCodes T) {c d : Symbol}
    (hc : s.code c ≠ []) (hd : s.code d ≠ []) (hcd : s.code c <+: s.code d) : c = d := by
  obtain ⟨p, hp⟩ := h.exists_code ((h.one_le_length c).1 (State.code_ne_nil_iff.1 hc))
  obtain ⟨q, hq⟩ := h.exists_code ((h.one_le_length d).1 (State.code_ne_nil_iff.1 hd))
  rw [h.code _ hp, h.code _ hq] at hcd
  by_contra hne
  have hsymm : Std.Symm fun x y : Symbol × List Bool => CodeTree.Apart x.2 y.2 := ⟨fun _ _ ha => ⟨ha.2, ha.1⟩⟩
  exact (T.codes_apart.forall hp hq fun e => hne (Prod.ext_iff.1 e).1).1 hcd

/-- A symbol of the input has a code (43_code_table.md R195, law 2). -/
theorem State.HoldsCodes.code_ne_nil {s : State} {T : CodeTree} (h : s.HoldsCodes T) (hf : s.FreqMeans) {b : Byte}
    (hb : b ∈ s.input) : s.code (symbolOfByte b) ≠ [] := by
  obtain ⟨k, hk, rfl⟩ := State.mem_input.1 hb
  exact State.code_ne_nil_iff.2 ((h.one_le_length _).2 ((hf.freq_ne_zero _).2 ⟨k, hk, rfl⟩))

/-- The decoder reads the input back from its codes (95_test_vectors.md V-EX-4). -/
theorem State.HoldsCodes.decodeStream_codedInput {s : State} {T : CodeTree} (h : s.HoldsCodes T) (hf : s.FreqMeans) :
    decodeStream s.code s.len.toNat s.codedInput =
      some ((List.range s.len.toNat).map fun k => symbolOfByte (s.ibuf.read k)) := by
  have hsymbols : s.input.map symbolOfByte = (List.range s.len.toNat).map fun k => symbolOfByte (s.ibuf.read k) := by
    simp [State.input, Memory.readBytes]
  have hread := decodeStream_flatMap (code := s.code) (fun _ _ => h.eq_of_prefix) (s.input.map symbolOfByte) fun c hc => by
    obtain ⟨b, hb, rfl⟩ := List.mem_map.1 hc
    exact h.code_ne_nil hf hb
  rwa [List.length_map, s.input_length, List.flatMap_map, hsymbols] at hread

theorem State.codedInput_length (s : State) : s.codedInput.length = s.rawLength := by
  simp [State.codedInput, State.rawLength, State.code, List.length_flatMap]

/-- The codes of the input are the stream without its padding (44_bit_encoder.md R212, R214). -/
theorem State.encodedStream_take (s : State) : s.encodedStream.take s.rawLength = s.codedInput := by
  rw [State.encodedStream, List.take_left' s.codedInput_length]

/-- The first RAW_BITS bits of the packed bytes of a stream are the codes of the input (45_bit_packer.md R232, R233). -/
theorem State.take_bitsOfBytes_packed (s : State) {m : Memory} (h : m.wf = true) :
    (bitsOfBytes ((m.writeBytes 0 (packBytes (s.encLength / 8) s.encodedStream)).readBytes 0 (s.encLength / 8))).take
      s.rawLength = s.codedInput := by
  have hread := Memory.readBytes_writeBytes m 0 (packBytes (s.encLength / 8) s.encodedStream) h
  have hbytes : 8 * (s.encLength / 8) = s.encodedStream.length := by
    rw [s.encodedStream_length, State.encLength, ceil8]
    omega
  rw [packBytes_length] at hread
  rw [hread, bitsOfBytes_packBytes _ hbytes.le, hbytes, List.take_length, s.encodedStream_take]

/-- The stream has at most 32 bytes for each byte of the input (00_scope.md R6). -/
theorem State.encLength_le (s : State) : s.encLength / 8 ≤ 32 * s.len.toNat := by
  have hraw := s.rawLength_le
  rw [State.encLength, ceil8]
  omega

end Sys2Proof.Machine
end

section
/-!
RUN (O41, O42): what each of its five engine steps finds and leaves (46_pipeline_commands.md R252, R253), whatever host steps
fall between them.
-/

namespace Sys2Proof.Machine

/-! ## A host turn of a running command -/

/-- While BUSY a transaction writes IRQ_EN and IRQ_STAT at most, and the counter of free values (20_memory.md R80). -/
theorem transact_busy_eq {s : State} (hb : s.busy = true) (x : Txn) :
    ∃ irqEn irqStat draws,
      (transact x s).1 = { s with irqEn := irqEn, irqStat := irqStat, draws := draws } := by
  rcases transact_cases x s with
    h | ⟨_, h⟩ | ⟨hi, _⟩ | ⟨hi, _⟩ | ⟨hi, _⟩ | ⟨_, h⟩ | ⟨_, h⟩ | ⟨hi, _⟩
  case inr.inr.inl | inr.inr.inr.inl | inr.inr.inr.inr.inl | inr.inr.inr.inr.inr.inr.inr => simp [hb] at hi
  all_goals exact ⟨_, _, _, h⟩

theorem hostStep_busy_eq {s : State} (hb : s.busy = true) :
    ∃ irqEn irqStat draws prog bus,
      hostStep s = { s with irqEn := irqEn, irqStat := irqStat, draws := draws, prog := prog, bus := bus } := by
  rcases hostStep_cases s with h | ⟨x, prog, h⟩
  · exact ⟨_, _, _, _, _, h⟩
  · obtain ⟨irqEn, irqStat, draws, hx⟩ := transact_busy_eq hb x
    exact ⟨irqEn, irqStat, draws, prog, _, by rw [h, hx]⟩

theorem EngineFrame.trans {s t u : State} (h : EngineFrame s t) (h' : EngineFrame t u) : EngineFrame s u := by
  obtain ⟨hcfg, hlen, hnw, hlast, hirq, hibuf, hprog, hsched, hbus⟩ := h
  obtain ⟨hcfg', hlen', hnw', hlast', hirq', hibuf', hprog', hsched', hbus'⟩ := h'
  exact ⟨hcfg'.trans hcfg, hlen'.trans hlen, hnw'.trans hnw, hlast'.trans hlast, hirq'.trans hirq, hibuf'.trans hibuf,
    hprog'.trans hprog, hsched'.trans hsched, hbus'.trans hbus⟩

/-! ## STATUS after a command -/

/-- STATUS after completion with an error, by the error and the valid flags (10_state.md R24, R25). -/
theorem State.statusWord_finishError {s : State} {v : Valid} (hv : s.valid = v) (e : ErrCode) (st : Stage) :
    (s.finishError e st).statusWord = BitVec.ofNat 32 (4 + 16 * e.code + 256 * st.code + 65536 * v.bits) := by
  simp [State.statusWord, State.busy, State.statusStage, Completion.isDone, Completion.isError, Completion.errCode,
    Completion.stageCode, hv]

/-- STATUS after completion without an error. -/
theorem State.statusWord_of_done {s : State} {v : Valid} (hseq : s.seq = .idle) (hdone : s.completion = .done)
    (hv : s.valid = v) : s.statusWord = BitVec.ofNat 32 (2 + 65536 * v.bits) := by
  simp [State.statusWord, State.busy, State.statusStage, Completion.isDone, Completion.isError, Completion.errCode,
    Completion.stageCode, hseq, hdone, hv]

/-! ## Between the engine steps of a RUN -/

/-- With NSYM not 0 a valid table has a symbol (41_frequency_counter.md R153). -/
theorem State.FreqMeans.presentSymbols_ne_nil {s : State} (h : s.FreqMeans) (hn : s.nsym ≠ 0) :
    presentSymbols s.freq ≠ [] := fun he => hn (BitVec.eq_of_toNat_eq (by rw [h.nsym_toNat, he]; rfl))

/-- The valid flags with those of the stages before `st` set and no other. -/
def Valid.before (st : Stage) : Valid :=
  ({ freq := true, tree := true, ctab := true, enc := true, out := true } : Valid).clearFrom st

theorem Valid.ext_flag {v w : Valid} (h : ∀ st, v.flag st = w.flag st) : v = w := by
  obtain ⟨_, _, _, _, _⟩ := v
  obtain ⟨_, _, _, _, _⟩ := w
  rw [Valid.mk.injEq]
  exact ⟨h .count, h .build, h .gencode, h .encode, h .pack⟩

/-- The flags a completed stage leaves are those of its start with its own set (40_command_sequencer.md R124, R127). -/
theorem valid_of_flagsCompleted {st : Stage} (hst : st ≠ .zero) {s t : State} (h : FlagsCompleted st s t) :
    t.valid = (s.begun st).valid.setFlag st :=
  Valid.ext_flag fun st' => by rw [h, Valid.flag_setFlag _ hst, (s.begun_flags_counter hst).1]

theorem Valid.before_clearFrom (st : Stage) : (Valid.before st).clearFrom st = Valid.before st := by cases st <;> rfl

/-- A stage that completes leaves the flags the next one starts with (40_command_sequencer.md R124). -/
theorem Valid.before_setFlag {st st' : Stage} (hst : st ≠ .zero) (hcode : st'.code = st.code + 1) :
    (Valid.before st).setFlag st = Valid.before st' := by
  cases st
  case zero => exact absurd rfl hst
  all_goals cases st' <;> cases hcode <;> rfl

/-- What the stages of a RUN before `st` have checked and made (10_state.md R25, 40_command_sequencer.md R130). -/
def State.Prepared (s : State) : Stage → Prop
  | .zero => False
  | .count => True
  | .build => s.workersLegal = true ∧ s.FreqMeans
  | .gencode => s.workersLegal = true ∧ s.FreqMeans ∧ s.len ≠ 0 ∧ s.TreeMeans
  | .encode => s.workersLegal = true ∧ s.FreqMeans ∧ s.len ≠ 0 ∧ s.TreeMeans ∧
      genCode s.nodeInfo s.root = .ok s.codeTable
  | .pack => s.workersLegal = true ∧ s.FreqMeans ∧ s.len ≠ 0 ∧ s.TreeMeans ∧
      genCode s.nodeInfo s.root = .ok s.codeTable ∧ s.EncMeans

/-- `s` is reached from the acceptance of a RUN in `s₀` and stage `st` is in SEQ to be performed: what no step before PACK
writes is as in `s₀`, with the host's fields too when the engine moves alone. -/
structure State.InRun (s₀ : State) (st : Stage) (s : State) : Prop where
  seq : s.seq = .busy (encode .run) ((stages .run).drop (st.code - 1))
  inputs : s.cfg = s₀.cfg ∧ s.len = s₀.len ∧ s.nw = s₀.nw ∧ s.lastCmd = s₀.lastCmd ∧ s.ibuf = s₀.ibuf ∧ s.obuf = s₀.obuf
  alone : s₀.sched = [] → EngineFrame s₀ s ∧ s.irqStat = s₀.irqStat

/-- `s` is reached from the acceptance of a RUN in `s₀` and stage `st` is the next to perform. -/
structure State.RunAt (s₀ : State) (st : Stage) (s : State) : Prop extends s₀.InRun st s where
  started : (s.begun st).valid = Valid.before st
  prepared : s.Prepared st

/-- What a RUN accepted in `s₀` delivers in `t` (46_pipeline_commands.md R252): the input compressed without loss. -/
structure State.RunDelivers (s₀ t : State) : Prop where
  completion : t.completion = .done
  status : t.statusWord = 0x001F0002#32
  irq : t.irqStat.getLsbD 0 = true
  inputs : t.cfg = s₀.cfg ∧ t.len = s₀.len ∧ t.nw = s₀.nw ∧ t.lastCmd = s₀.lastCmd ∧ t.ibuf = s₀.ibuf
  outLen : t.outLen.toNat = (t.rawBits.toNat + 7) / 8
  kept : ∀ a : Nat, t.outLen.toNat ≤ a → t.obuf.read a = s₀.obuf.read a
  decodes : decodeStream t.code t.len.toNat ((bitsOfBytes (t.obuf.readBytes 0 t.outLen.toNat)).take t.rawBits.toNat) =
    some ((List.range s₀.len.toNat).map fun k => symbolOfByte (s₀.ibuf.read k))
  alone : s₀.sched = [] → t.irqStat = s₀.irqStat ||| 0b01#2 ∧ EngineFrame s₀ t

/-- The five outcomes of a RUN accepted in `s₀` (46_pipeline_commands.md R253), each with the stage that completes it. -/
inductive State.RunEnds (s₀ t : State) : Stage → Prop
  | workers (hnw : ¬ 0 < s₀.nw.toInt) (hstatus : t.statusWord = 0x00000124#32) : RunEnds s₀ t .count
  | length (hnw : 0 < s₀.nw.toInt) (hlen : s₀.cfg.ibufBytes < s₀.len.toNat) (hstatus : t.statusWord = 0x00000134#32) :
      RunEnds s₀ t .count
  | empty (hnw : 0 < s₀.nw.toInt) (hlen : s₀.len = 0) (hstatus : t.statusWord = 0x00010214#32) : RunEnds s₀ t .build
  | overflow (hnw : 0 < s₀.nw.toInt) (hpos : 1 ≤ s₀.len.toNat) (hlen : s₀.len.toNat ≤ s₀.cfg.ibufBytes)
      (hsize : t.encBits.toNat / 8 ≤ 32 * s₀.len.toNat) (hover : s₀.cfg.obufBytes < t.encBits.toNat / 8)
      (hstatus : t.statusWord = 0x00070454#32) : RunEnds s₀ t .encode
  | delivers (hnw : 0 < s₀.nw.toInt) (hpos : 1 ≤ s₀.len.toNat) (hlen : s₀.len.toNat ≤ s₀.cfg.ibufBytes)
      (hfits : t.encBits.toNat / 8 ≤ s₀.cfg.obufBytes) (h : s₀.RunDelivers t) : RunEnds s₀ t .pack

/-- An engine step of a RUN at stage `st` makes the next stage ready or completes the command. -/
def State.RunGoes (s₀ : State) (st : Stage) (t : State) : Prop :=
  (∃ st', st'.code = st.code + 1 ∧ s₀.RunAt st' t) ∨ (t.seq = .idle ∧ t.completion ≠ .none ∧ s₀.RunEnds t st)

/-- The stages of a RUN from one of them on (40_command_sequencer.md R121). -/
theorem stages_run_drop {st : Stage} (hst : st ≠ .zero) :
    (stages .run).drop (st.code - 1) = st :: (stages .run).drop st.code := by
  cases st
  case zero => exact absurd rfl hst
  all_goals rfl

/-- The end of a stage whose successor is prepared (40_command_sequencer.md R125). -/
theorem State.InRun.advance {s₀ u : State} {st st' : Stage} (h : s₀.InRun st u) (hst : st ≠ .zero)
    (hcode : st'.code = st.code + 1) (hvalid : u.valid = Valid.before st) (hprep : u.Prepared st') :
    s₀.RunAt st' (State.advance { u with valid := u.valid.setFlag st }) := by
  have hst' : st' ≠ .zero := by
    rintro rfl
    exact hprep
  have hnext : (stages .run).drop st.code = st' :: (stages .run).drop st'.code := by
    rw [← stages_run_drop hst', hcode, Nat.add_sub_cancel]
  have hseq := h.seq
  rw [stages_run_drop hst, hnext] at hseq
  rw [State.advance_more { u with valid := u.valid.setFlag st } _ _ _ _ hseq, hvalid, Valid.before_setFlag hst hcode]
  exact
    { seq := congrArg _ (stages_run_drop hst').symm
      inputs := h.inputs
      alone := h.alone
      started := Valid.before_clearFrom st'
      prepared := hprep }

namespace State.RunAt

variable {s₀ s : State}

theorem busy {st : Stage} (h : s₀.RunAt st s) : s.busy = true := s.busy_iff.2 ⟨_, _, h.seq⟩

theorem popSched {st : Stage} (h : s₀.RunAt st s) : s₀.RunAt st s.popSched where
  seq := h.seq
  inputs := h.inputs
  alone hs := by
    obtain ⟨⟨hcfg, hlen, hnw, hlast, hirq, hibuf, hprog, hsched, hbus⟩, hstat⟩ := h.alone hs
    have htail : s.sched.tail = s₀.sched := by rw [hsched, hs, List.tail_nil]
    exact ⟨⟨hcfg, hlen, hnw, hlast, hirq, hibuf, hprog, htail, hbus⟩, hstat⟩
  started := h.started
  prepared := h.prepared

/-- A host turn leaves a RUN where it is, and needs a schedule. -/
theorem host_turn {st : Stage} (h : s₀.RunAt st s) (ha : s.nextAgent = .host) :
    s₀.RunAt st (hostStep s.popSched) := by
  have hsched : s₀.sched ≠ [] := fun hs => by
    obtain ⟨⟨_, _, _, _, _, _, _, hsched, _⟩, _⟩ := h.alone hs
    rw [State.nextAgent_of_sched_nil (hsched.trans hs), if_pos h.busy] at ha
    cases ha
  obtain ⟨_, _, _, _, _, heq⟩ := hostStep_busy_eq (s := s.popSched) h.busy
  rw [heq]
  exact
    { seq := h.seq
      inputs := h.inputs
      alone := fun hs => absurd hs hsched
      started := h.started
      prepared := h.prepared }

theorem workersLegal_iff {st : Stage} (h : s₀.RunAt st s) : s.workersLegal = true ↔ 0 < s₀.nw.toInt := by
  obtain ⟨_, _, hnw, _⟩ := h.inputs
  rw [State.workersLegal_iff, hnw]

theorem lengthLegal_iff {st : Stage} (h : s₀.RunAt st s) : s.lengthLegal = true ↔ s₀.len.toNat ≤ s₀.cfg.ibufBytes := by
  obtain ⟨hcfg, hlen, _⟩ := h.inputs
  rw [State.lengthLegal, decide_eq_true_eq, hcfg, hlen]

theorem one_le_len {st : Stage} (h : s₀.RunAt st s) (hne : s.len ≠ 0) : 1 ≤ s₀.len.toNat := by
  obtain ⟨_, hlen, _⟩ := h.inputs
  rw [← hlen]
  exact Nat.one_le_iff_ne_zero.2 fun h0 => hne (BitVec.eq_of_toNat_eq h0)

/-- A RUN performs the stage it is at. -/
theorem performs {st : Stage} (h : s₀.RunAt st s) (hst : st ≠ .zero) : s.performs .run st = true :=
  (s.performs_iff .run st).2 ⟨_, _, stages_run_drop hst ▸ h.seq, mem_stages_run hst, hst, .inl rfl⟩

/-- Stage 1 of RUN fails for an illegal NW or LEN (46_pipeline_commands.md R253). -/
theorem exec_count (h : s₀.RunAt .count s) : ∃ t, exec .run s = .next t ∧ s₀.RunGoes .count t := by
  rw [exec_of_performs_count (h.performs nofun)]
  cases hw : s.workersLegal with
  | false =>
    have hnw : ¬ 0 < s₀.nw.toInt := by simp [← h.workersLegal_iff, hw]
    exact ⟨_, stageStep_of_check (countCheck_of_workers hw),
      .inr ⟨rfl, nofun, .workers hnw (State.statusWord_finishError h.started _ _)⟩⟩
  | true =>
    have hnw := h.workersLegal_iff.1 hw
    cases hl : s.lengthLegal with
    | false =>
      have hlen : s₀.cfg.ibufBytes < s₀.len.toNat := by simp [← Nat.not_le, ← h.lengthLegal_iff, hl]
      exact ⟨_, stageStep_of_check (countCheck_of_length hw hl),
        .inr ⟨rfl, nofun, .length hnw hlen (State.statusWord_finishError h.started _ _)⟩⟩
    | true =>
      exact ⟨_, stageStep_of_body (countCheck_eq_none.2 ⟨hw, hl⟩) rfl, .inl ⟨.build, rfl,
        State.InRun.advance ⟨h.seq, h.inputs, h.alone⟩ nofun rfl h.started ⟨hw, hl, rfl, rfl⟩⟩⟩

/-- Stage 2 of RUN fails for an empty input alone (46_pipeline_commands.md R253). -/
theorem exec_build (h : s₀.RunAt .build s) : ∃ t, exec .run s = .next t ∧ s₀.RunGoes .build t := by
  obtain ⟨hw, hf⟩ := h.prepared
  obtain ⟨_, hlen, _⟩ := h.inputs
  have hfreq : (s.startStage .build).valid.freq = true := congrArg Valid.freq h.started
  rw [exec_of_performs_build (h.performs nofun)]
  by_cases hn : s.nsym = 0
  · have hzero : s₀.len = 0 := hlen ▸ hf.nsym_eq_zero_iff.1 hn
    exact ⟨_, stageStep_of_check (buildCheck_of_empty hfreq hn),
      .inr ⟨rfl, nofun, .empty (h.workersLegal_iff.1 hw) hzero (State.statusWord_finishError h.started _ _)⟩⟩
  · obtain ⟨tr, _, htr, _⟩ := exists_buildTree (hf.presentSymbols_ne_nil hn)
    have hbegun : buildTree (s.begun .build).freq = some tr := htr
    refine ⟨_, stageStep_of_body (buildCheck_eq_none.2 ⟨hfreq, hn⟩) (by rw [← State.begun, buildBody, hbegun]),
      .inl ⟨.gencode, rfl, ?_⟩⟩
    exact State.InRun.advance ⟨h.seq, h.inputs, h.alone⟩ nofun rfl h.started ⟨hw, hf, mt hf.nsym_eq_zero_iff.2 hn, htr⟩

/-- Stage 3 of RUN does not fail (46_pipeline_commands.md R253). -/
theorem exec_gencode (h : s₀.RunAt .gencode s) : ∃ t, exec .run s = .next t ∧ s₀.RunGoes .gencode t := by
  obtain ⟨hw, hf, hne, htree⟩ := h.prepared
  have hcheck : gencodeCheck (s.startStage .gencode) = .ok none := gencodeCheck_eq_none.2 (congrArg Valid.tree h.started)
  obtain ⟨T, hT⟩ := buildTree_eq_some htree
  have hgen : genCode s.nodeInfo s.root = .ok _ := genCode_eq hT
  have hbegun : genCode (s.begun .gencode).nodeInfo (s.begun .gencode).root = .ok _ := hgen
  rw [exec_of_performs_gencode (h.performs nofun)]
  refine ⟨_, stageStep_of_body hcheck (by rw [← State.begun, gencodeBody, hbegun]), .inl ⟨.encode, rfl, ?_⟩⟩
  exact State.InRun.advance ⟨h.seq, h.inputs, h.alone⟩ nofun rfl h.started ⟨hw, hf, hne, htree, hgen⟩

/-- Stage 4 of RUN fails for a stream beyond OBUF alone (46_pipeline_commands.md R253). -/
theorem exec_encode (h : s₀.RunAt .encode s) (hcfg : s₀.cfg.wellFormed = true) :
    ∃ t, exec .run s = .next t ∧ s₀.RunGoes .encode t := by
  obtain ⟨hw, hf, hne, htree, hgen⟩ := h.prepared
  have ⟨hl, _⟩ := hf
  obtain ⟨hcfg₀, hlen, _⟩ := h.inputs
  have hctab : (s.startStage .encode).valid.ctab = true := congrArg Valid.ctab h.started
  rw [exec_of_performs_encode (h.performs nofun)]
  rcases Nat.lt_or_ge s.cfg.obufBytes (s.encLength / 8) with hover | hfits
  · have hbits : (s.begun .encode).putLengths.encBits.toNat = s.encLength :=
      Nat.mod_eq_of_lt (State.lengths_lt (hcfg₀ ▸ hcfg) (of_decide_eq_true hl)).2
    have hsize := s.encLength_le
    rw [← hbits, hlen] at hsize
    exact ⟨_, stageStep_of_check (encodeCheck_of_overflow hctab hw hl hover), .inr ⟨rfl, nofun, .overflow
      (h.workersLegal_iff.1 hw) (h.one_le_len hne) (h.lengthLegal_iff.1 hl) hsize (hbits ▸ hcfg₀ ▸ hover)
      (State.statusWord_finishError (s := (s.begun .encode).putLengths) h.started _ _)⟩⟩
  · refine ⟨_, stageStep_of_body (encodeCheck_eq_none.2 ⟨hctab, hw, hl, hfits⟩) rfl, .inl ⟨.pack, rfl, ?_⟩⟩
    exact State.InRun.advance ⟨h.seq, h.inputs, h.alone⟩ nofun rfl h.started
      ⟨hw, hf, hne, htree, hgen, rfl, rfl, rfl, hfits⟩

/-- RAW_BITS and ENC_BITS of a prepared PACK are the lengths of the stream, cut off by no register (00_scope.md R7). -/
theorem bits_eq (h : s₀.RunAt .pack s) (hcfg : s₀.cfg.wellFormed = true) :
    s.rawBits.toNat = s.rawLength ∧ s.encBits.toNat = s.encLength := by
  obtain ⟨_, ⟨hl, _⟩, _, _, _, _, hraw, henc, _⟩ := h.prepared
  obtain ⟨hcfg₀, _⟩ := h.inputs
  obtain ⟨hrawLt, hencLt⟩ := State.lengths_lt (hcfg₀ ▸ hcfg) (of_decide_eq_true hl)
  exact ⟨hraw ▸ Nat.mod_eq_of_lt hrawLt, henc ▸ Nat.mod_eq_of_lt hencLt⟩

/-- Stage 5 of RUN does not fail (46_pipeline_commands.md R253). -/
theorem packStage_completes (h : s₀.RunAt .pack s) (hcfg : s₀.cfg.wellFormed = true) :
    ∃ t, packStage s = .next t ∧ t.valid = (Valid.before .pack).setFlag .pack ∧
      t.seq = .idle ∧ t.completion = .done ∧ t.irqStat = s.irqStat ||| 0b01#2 := by
  obtain ⟨hw, _, _, _, _, hbbuf, _, _, hfits⟩ := h.prepared
  have hbytes : s.packLength = s.encLength / 8 := by rw [State.packLength, (h.bits_eq hcfg).2]
  have hlong : 8 * s.packLength ≤ s.bbuf.length := by
    rw [hbytes, hbbuf, s.encodedStream_length]
    exact Nat.mul_div_le _ 8
  have hcheck : packCheck (s.startStage .pack) = .ok none := packCheck_eq_none.2 ⟨congrArg Valid.enc h.started, hw⟩
  have hbody := packBody_eq_of_fits (s := s.begun .pack) hlong (hbytes ▸ hfits)
  obtain ⟨t, hstage, hflags, hends, _⟩ := isStage_pack.completes (st := .pack) nofun hcheck hbody
  rw [StageEnds, h.seq] at hends
  have hvalid := valid_of_flagsCompleted (st := .pack) nofun hflags
  exact ⟨t, hstage, hvalid.trans (congrArg (Valid.setFlag · .pack) h.started), hends⟩

/-- What stage 5 of RUN packs decodes to the input (95_test_vectors.md V-EX-4). -/
theorem decodeStream_packStage (h : s₀.RunAt .pack s) (hcfg : s₀.cfg.wellFormed = true) (hwf : s₀.obuf.wf = true)
    {t : State} (hstage : packStage s = .next t) (hv : t.valid.out = true) :
    decodeStream t.code s.len.toNat ((bitsOfBytes (t.obuf.readBytes 0 s.packLength)).take t.rawBits.toNat) =
      some ((List.range s.len.toNat).map fun k => symbolOfByte (s.ibuf.read k)) := by
  obtain ⟨_, hf, _, htree, hgen, hbbuf, _⟩ := h.prepared
  obtain ⟨_, _, _, _, _, hobuf⟩ := h.inputs
  obtain ⟨hraw, henc⟩ := h.bits_eq hcfg
  obtain ⟨_, _, ⟨hctabLen, hctabVal, _⟩, _, hrawBits, _⟩ := packStage_frame hstage
  obtain ⟨T, hT⟩ := State.exists_holdsCodes htree hgen
  have hcode : t.code = s.code := funext fun c => by simp only [State.code, State.codeLen, hctabLen, hctabVal]
  rw [hcode, (packStage_output hstage hv).1, hrawBits, hraw, State.packLength, henc, hbbuf,
    s.take_bitsOfBytes_packed (hobuf ▸ hwf), hT.decodeStream_codedInput hf]

/-- Stage 5 of RUN completes it with the input compressed (46_pipeline_commands.md R252). -/
theorem exec_pack (h : s₀.RunAt .pack s) (hcfg : s₀.cfg.wellFormed = true) (hwf : s₀.obuf.wf = true) :
    ∃ t, exec .run s = .next t ∧ s₀.RunGoes .pack t := by
  obtain ⟨hw, ⟨hl, _⟩, hne, _, _, _, _, _, hfits⟩ := h.prepared
  obtain ⟨hcfg₀, hlen₀, hnw₀, hlast₀, hibuf₀, hobuf₀⟩ := h.inputs
  obtain ⟨hraw, henc⟩ := h.bits_eq hcfg
  obtain ⟨t, hstage, hvalid, hidle, hdone, hirq⟩ := h.packStage_completes hcfg
  have hout : t.valid.out = true := congrArg Valid.out hvalid
  have hexec : exec .run s = .next t := (exec_of_performs_pack (h.performs nofun)).trans hstage
  have hframe := exec_engineFrame hexec
  have ⟨hcfgT, hlenT, hnwT, hlastT, _, hibufT, _⟩ := hframe
  obtain ⟨_, _, _, _, hrawT, hencT⟩ := packStage_frame hstage
  obtain ⟨hobufT, houtLen⟩ := packStage_output hstage hout
  have hlenT' : t.outLen.toNat = s.packLength := by
    rw [houtLen, BitVec.toNat_ofNat]
    exact Nat.mod_eq_of_lt ((Nat.div_le_self _ 8).trans_lt s.encBits.isLt)
  refine ⟨t, hexec, .inr ⟨hidle, hdone ▸ nofun, .delivers (h.workersLegal_iff.1 hw) (h.one_le_len hne)
    (h.lengthLegal_iff.1 hl) ?fits
    { completion := hdone
      status := State.statusWord_of_done hidle hdone hvalid
      irq := ?irq
      inputs := ⟨hcfgT.trans hcfg₀, hlenT.trans hlen₀, hnwT.trans hnw₀, hlastT.trans hlast₀, hibufT.trans hibuf₀⟩
      outLen := ?outLen
      kept := fun a ha => ?kept
      decodes := ?decodes
      alone := fun hs => ?alone }⟩⟩
  case fits => rwa [hencT, henc, ← hcfg₀]
  case irq => simp [hirq]
  case outLen =>
    rw [hlenT', hrawT, hraw, State.packLength, henc, State.encLength, ceil8, Nat.mul_div_cancel _ (by decide)]
  case kept =>
    rw [hobufT, read_writeBytes_packBytes (hobuf₀ ▸ hwf), if_neg (by omega), hobuf₀]
  case decodes =>
    rw [hlenT, hlenT', ← hlen₀, ← hibuf₀]
    exact h.decodeStream_packStage hcfg hwf hstage hout
  case alone =>
    obtain ⟨hframe₀, hirq₀⟩ := h.alone hs
    exact ⟨hirq₀ ▸ hirq, hframe₀.trans hframe⟩

/-- An engine step of a RUN makes the next stage ready or completes it. -/
theorem exists_exec {st : Stage} (h : s₀.RunAt st s) (hcfg : s₀.cfg.wellFormed = true) (hwf : s₀.obuf.wf = true) :
    ∃ t, exec .run s = .next t ∧ s₀.RunGoes st t := by
  cases st with
  | zero => exact h.prepared.elim
  | count => exact h.exec_count
  | build => exact h.exec_build
  | gencode => exact h.exec_gencode
  | encode => exact h.exec_encode hcfg
  | pack => exact h.exec_pack hcfg hwf

theorem engine_turn {st : Stage} (h : s₀.RunAt st s) (hcfg : s₀.cfg.wellFormed = true) (hwf : s₀.obuf.wf = true)
    (ha : s.nextAgent = .engine) : ∃ t, step s = .next t ∧ t.sched = s.sched.tail ∧ s₀.RunGoes st t := by
  obtain ⟨t, hexec, hgoes⟩ := h.popSched.exists_exec hcfg hwf
  obtain ⟨_, _, _, _, _, _, _, hsched, _⟩ := exec_engineFrame hexec
  exact ⟨t, (step_of_decode ha h.seq (decode_encode .run)).trans hexec, hsched, hgoes⟩

/-! ## The schedule -/

/-- A RUN at stage `st` ends in one of its outcomes: by induction on the turns, each engine turn ending it or making the next
stage ready. -/
theorem exists_completesAfter (hcfg : s₀.cfg.wellFormed = true) (hwf : s₀.obuf.wf = true) (n : Nat) :
    ∀ {st : Stage} {s : State}, s₀.RunAt st s → .reset ∉ s.turns n → 6 ≤ st.code + (s.turns n).count .engine →
      ∃ (k : Nat) (t : State) (last : Stage), k ≤ n ∧ CompletesAfter k s t ∧
        st.code + (s.turns k).count .engine = last.code + 1 ∧ s₀.RunEnds t last := by
  induction n with
  | zero =>
    intro st s _ _ hcount
    have := st.code_le
    simp only [State.turns_zero, List.count_nil] at hcount
    omega
  | succ n ih =>
    intro st s h hreset hcount
    cases ha : s.nextAgent with
    | reset =>
      rw [State.turns_succ n h.busy, ha] at hreset
      exact absurd List.mem_cons_self hreset
    | host =>
      have hsched : (hostStep s.popSched).sched = s.sched.tail := (hostStep_cfg_sched s.popSched).2
      have hturns := State.turns_step h.busy hsched
      rw [hturns, ha] at hreset hcount
      obtain ⟨k, t, last, hk, ht, hlast, hends⟩ := ih (h.host_turn ha) (fun hm => hreset (.tail _ hm)) hcount
      refine ⟨k + 1, t, last, Nat.succ_le_succ hk, ht.succ h.busy (step_of_host ha), ?_, hends⟩
      rwa [hturns, ha]
    | engine =>
      obtain ⟨u, hu, hsched, hgoes⟩ := h.engine_turn hcfg hwf ha
      have hturns := State.turns_step h.busy hsched
      rw [hturns, ha] at hreset hcount
      rw [List.count_cons_self] at hcount
      rcases hgoes with ⟨st', hcode, h'⟩ | ⟨hidle, hcomp, hends⟩
      · obtain ⟨k, t, last, hk, ht, hlast, hends⟩ := ih h' (fun hm => hreset (.tail _ hm)) (by omega)
        refine ⟨k + 1, t, last, Nat.succ_le_succ hk, ht.succ h.busy hu, ?_, hends⟩
        rw [hturns, ha, List.count_cons_self]
        omega
      · refine ⟨1, u, st, Nat.succ_pos n, (completesAfter_zero hidle hcomp).succ h.busy hu, ?_, hends⟩
        rw [hturns, ha, State.turns_zero]
        rfl

end State.RunAt

/-- The acceptance of a RUN is its first stage ready (40_command_sequencer.md R120). -/
theorem State.runAt_count {s : State} (hseq : s.seq = .busy (encode .run) (stages .run)) : s.RunAt .count s where
  seq := hseq
  inputs := ⟨rfl, rfl, rfl, rfl, rfl, rfl⟩
  alone _ := ⟨⟨rfl, rfl, rfl, rfl, rfl, rfl, rfl, rfl, rfl⟩, rfl⟩
  started := rfl
  prepared := trivial

/-- From its acceptance a RUN ends in one of its outcomes, in the engine step of the stage that completes it. -/
theorem State.exists_runEnds {s : State} {n : Nat} (hcfg : s.cfg.wellFormed = true) (hwf : s.obuf.wf = true)
    (hseq : s.seq = .busy (encode .run) (stages .run)) (hreset : .reset ∉ s.turns n)
    (hcount : 5 ≤ (s.turns n).count .engine) :
    ∃ (k : Nat) (t : State) (last : Stage), k ≤ n ∧ CompletesAfter k s t ∧
      (s.turns k).count .engine = last.code ∧ s.RunEnds t last := by
  obtain ⟨k, t, last, hk, ht, hlast, hends⟩ :=
    (State.runAt_count hseq).exists_completesAfter hcfg hwf n hreset (Nat.add_le_add_left hcount 1)
  exact ⟨k, t, last, hk, ht, Nat.add_left_cancel (n := 1) (hlast.trans (Nat.add_comm last.code 1)), hends⟩

/-- With no schedule every turn of a running command is the engine's (log 2). -/
theorem State.count_turns_of_nil {s : State} (h : s.sched = []) (k : Nat) : (s.turns k).count .engine = k := by
  simp [State.turns, h]

/-- Settles O42: the outcomes of a RUN are these five. -/
theorem runOutcomesAreTheFive : Obligations.RunOutcomesAreTheFive := by
  intro s n h hseq hreset hcount
  obtain ⟨⟨hcfg, _, _, hwf, _⟩, _⟩ := s.inv_iff.1 h
  obtain ⟨k, t, last, hk, ht, hsteps, hends⟩ := State.exists_runEnds hcfg hwf hseq hreset hcount
  refine ⟨k, t, hk, ht, ?_⟩
  cases hends with
  | workers hnw hstatus => exact .inl ⟨hnw, hsteps, hstatus⟩
  | length hnw hlen hstatus => exact .inr (.inl ⟨hnw, hlen, hsteps, hstatus⟩)
  | empty hnw hlen hstatus => exact .inr (.inr (.inl ⟨hnw, hlen, hsteps, hstatus⟩))
  | overflow hnw hpos hlen _ hover hstatus => exact .inr (.inr (.inr (.inl ⟨hnw, hpos, hlen, hover, hsteps, hstatus⟩)))
  | delivers hnw hpos hlen hfits hd => exact .inr (.inr (.inr (.inr ⟨hnw, hpos, hlen, hfits, hsteps, hd.status⟩)))

/-- Settles O41: with legal operands a RUN ends beyond OBUF, for a stream that does not fit it, or delivers. -/
theorem runCompressesLosslessly : Obligations.RunCompressesLosslessly := by
  intro s n hcfg hwf hseq hnw hpos hlen hreset hcount
  obtain ⟨k, t, last, hk, ht, hsteps, hends⟩ := State.exists_runEnds hcfg hwf hseq hreset hcount
  refine ⟨k, t, hk, ht, ?_⟩
  cases hends with
  | workers h _ => exact absurd hnw h
  | length _ h _ => exact absurd hlen (Nat.not_le.2 h)
  | empty _ h _ => simp [h] at hpos
  | overflow _ _ _ hsize hover _ => exact ⟨hsize.trans, fun hfits => absurd hfits (Nat.not_le.2 hover)⟩
  | delivers _ _ _ hfits hd =>
    obtain ⟨hcfgT, hlenT, hnwT, hlastT, hibufT⟩ := hd.inputs
    exact ⟨fun _ => hfits, fun _ => ⟨hsteps, hd.completion, hd.status, hd.irq, hcfgT, hlenT, hnwT, hlastT, hibufT,
      hd.outLen, hd.kept, hd.decodes, fun hs => ⟨(State.count_turns_of_nil hs k).symm.trans hsteps, hd.alone hs⟩⟩⟩

end Sys2Proof.Machine
end

section
/-!
Interrupts (O16, O47), refused transactions (O7), and what a reset and power-up leave (O50, O51).
-/

namespace Sys2Proof.Machine

/-! ## The level of `irq` (60_exceptions.md R281) -/

/-- `irq` is high iff some bit is pending and enabled. -/
theorem State.irq_iff (s : State) :
    s.irq = true ↔ ∃ k : Nat, k < 2 ∧ s.irqStat.getLsbD k = true ∧ s.irqEn.getLsbD k = true := by
  simp only [State.irq, Bool.or_eq_true, Bool.and_eq_true]
  constructor
  · rintro (h | h)
    · exact ⟨0, by decide, h⟩
    · exact ⟨1, by decide, h⟩
  · rintro ⟨k, hk, h⟩
    obtain rfl | rfl : k = 0 ∨ k = 1 := by omega
    · exact .inl h
    · exact .inr h

/-- `irq` is low iff every pending bit is disabled. -/
theorem State.irq_eq_false_iff (s : State) :
    s.irq = false ↔ ∀ k : Nat, s.irqStat.getLsbD k = true → s.irqEn.getLsbD k = false := by
  rw [← Bool.not_eq_true, State.irq_iff]
  constructor
  · intro h k hstat
    by_contra hen
    exact h ⟨k, BitVec.lt_of_getLsbD hstat, hstat, (Bool.not_eq_false _).mp hen⟩
  · rintro h ⟨k, _, hstat, hen⟩
    simp [h k hstat] at hen

theorem State.resetStep_irqStat (s : State) : s.resetStep.irqStat = 0 := rfl

/-- Settles O16: the level from its definition, and after the two writes from what they store. -/
theorem irqIsTheLevelOfEnabledPendingBits : Obligations.IrqIsTheLevelOfEnabledPendingBits := by
  refine ⟨fun s => by simp [State.irq], fun s t hstat hen => by rw [State.irq, State.irq, hstat, hen], fun s t hs ht => ?rise,
    fun s t hs ht k _ _ => ?fall, fun s v => ?enable, fun s v => ?acknowledge, fun s t ha ht => ?reset⟩
  case rise =>
    obtain ⟨k, hk, hstat, hen⟩ := t.irq_iff.1 ht
    refine ⟨k, hk, hstat, hen, ?_⟩
    cases hpending : s.irqStat.getLsbD k with
    | false => exact .inl rfl
    | true => exact .inr (s.irq_eq_false_iff.1 hs k hpending)
  case fall =>
    cases hpending : t.irqStat.getLsbD k with
    | false => exact .inl rfl
    | true => exact .inr (t.irq_eq_false_iff.1 ht k hpending)
  case enable =>
    obtain ⟨_, _, hwrite, _⟩ := hostRegisterWrites s v
    rw [hwrite, State.irq_iff]
    refine exists_congr fun k => and_congr_right fun hk => ?_
    simp [hk]
  case acknowledge =>
    obtain ⟨_, _, _, stat, hwrite, hstat⟩ := hostRegisterWrites s v
    rw [hwrite, State.irq_iff]
    refine exists_congr fun k => and_congr_right fun hk => ?_
    simp [hstat k hk, and_assoc]
  case reset =>
    obtain rfl : s.popSched.resetStep = t := Host.Outcome.next.inj ((step_of_reset ha).symm.trans ht)
    simp [State.irq, State.resetStep_irqStat]

/-! ## Who sets IRQ_STAT (60_exceptions.md R280) -/

/-- No transaction sets a bit of IRQ_STAT: of the writes the W1C write alone reaches it, and clears (10_state.md R36). -/
theorem transact_irqStat (x : Txn) (s : State) {k : Nat} (h : (transact x s).1.irqStat.getLsbD k = true) :
    s.irqStat.getLsbD k = true := by
  rcases transact_cases x s with
    e | ⟨_, e⟩ | ⟨_, _, e⟩ | ⟨_, _, e⟩ | ⟨_, _, e⟩ | ⟨_, e⟩ | ⟨v, e⟩ | ⟨_, _, _, _, _, _, e⟩ <;> rw [e] at h
  case inr.inr.inr.inr.inr.inr.inl =>
    simp only [State.acknowledge_fields, BitVec.getLsbD_and, Bool.and_eq_true] at h
    exact h.1
  all_goals exact h

theorem hostStep_irqStat (s : State) {k : Nat} (h : (hostStep s).irqStat.getLsbD k = true) :
    s.irqStat.getLsbD k = true := by
  rcases hostStep_cases s with e | ⟨x, prog, e⟩ <;> rw [e] at h
  · exact h
  · exact transact_irqStat x s h

/-- `t` is the completion of a command that leaves IRQ_STAT `stat` as `finish_ok` (40_command_sequencer.md R133) or
`finish_error` (R134) does. -/
def State.CompletesFrom (stat : BitVec 2) (t : State) : Prop :=
  t.seq = .idle ∧ ((t.completion = .done ∧ t.irqStat = stat ||| doneIs) ∨
    (t.completion.isError = true ∧ t.irqStat = stat ||| errIs))

theorem getLsbD_doneIs {k : Nat} (h : doneIs.getLsbD k = true) : k = 0 := by
  have hk := BitVec.lt_of_getLsbD h
  obtain rfl | rfl : k = 0 ∨ k = 1 := by omega
  · rfl
  · exact absurd h (by decide)

theorem getLsbD_errIs {k : Nat} (h : errIs.getLsbD k = true) : k = 1 := by
  have hk := BitVec.lt_of_getLsbD h
  obtain rfl | rfl : k = 0 ∨ k = 1 := by omega
  · exact absurd h (by decide)
  · rfl

/-- The bit a completion sets is DONE_IS without error and ERR_IS with one. -/
theorem State.CompletesFrom.bit_set {stat : BitVec 2} {t : State} (h : t.CompletesFrom stat) {k : Nat}
    (ht : t.irqStat.getLsbD k = true) (hs : stat.getLsbD k = false) :
    t.seq = .idle ∧ ((k = 0 ∧ t.completion = .done) ∨ (k = 1 ∧ t.completion.isError = true)) := by
  obtain ⟨hseq, ⟨hcomp, hstat⟩ | ⟨hcomp, hstat⟩⟩ := h <;> rw [hstat, BitVec.getLsbD_or, hs, Bool.false_or] at ht
  · exact ⟨hseq, .inl ⟨getLsbD_doneIs ht, hcomp⟩⟩
  · exact ⟨hseq, .inr ⟨getLsbD_errIs ht, hcomp⟩⟩

/-- The engine step of a command leaves IRQ_STAT or completes the command. -/
theorem exec_irqStat {i : Instr} {s t : State} (ht : exec i s = .next t) :
    t.irqStat = s.irqStat ∨ t.CompletesFrom s.irqStat := by
  cases seqDecides i s.seq with
  | refused h =>
    rw [h s rfl] at ht
    cases ht
  | nop h =>
    rw [h s rfl] at ht
    cases ht
    exact .inr ⟨rfl, .inl ⟨rfl, rfl⟩⟩
  | clear h =>
    rw [h s rfl] at ht
    cases ht
    exact .inr ⟨rfl, .inl ⟨rfl, rfl⟩⟩
  | performs st hst h =>
    obtain ⟨check, onFail, body, hstage, hexec⟩ := exists_isStage hst
    rw [hexec i s (h s rfl)] at ht
    rcases hstage.next ht with ⟨e, u, hu, rfl⟩ | ⟨u, hu, rfl⟩
    · have hirq : u.irqStat = s.irqStat := congrArg Ambient.irqStat hu
      exact .inr ⟨rfl, .inr ⟨rfl, congrArg (· ||| errIs) hirq⟩⟩
    · have hirq : (u.flagged st).irqStat = s.irqStat := congrArg Ambient.irqStat hu
      rcases (u.flagged st).advance_cases with ha | ⟨_, _, _, _, _, ha⟩ <;> rw [ha]
      · exact .inr ⟨rfl, .inl ⟨rfl, congrArg (· ||| doneIs) hirq⟩⟩
      · exact .inl hirq

/-- Settles O47: the host and a reset only clear bits, and an engine step sets one by completing the command in SEQ. -/
theorem onlyCompletionSetsIrqStat : Obligations.OnlyCompletionSetsIrqStat := by
  intro s t k ht hset hclear
  have hnew : s.irqStat.getLsbD k ≠ true := by simp [hclear]
  rcases step_next ht with ⟨_, rfl⟩ | ⟨_, rfl⟩ | ⟨_, _, rfl⟩ | ⟨ha, w, q, i, hs, _, hx⟩ | ⟨ha, w, e, hs, _, rfl⟩
  · exact absurd (hostStep_irqStat s.popSched hset) hnew
  · simp [State.resetStep_irqStat] at hset
  · exact absurd hset hnew
  · rcases exec_irqStat hx with hkept | hends
    · exact absurd (hkept ▸ hset) hnew
    · exact ⟨ha, s.busy_iff.2 ⟨w, q, hs⟩, hends.bit_set hset hclear⟩
  · have hends : (s.popSched.finishError .illegalCommand .zero).CompletesFrom s.irqStat := ⟨rfl, .inr ⟨rfl, rfl⟩⟩
    exact ⟨ha, s.busy_iff.2 ⟨w, [.zero], hs⟩, hends.bit_set hset hclear⟩

/-! ## Refused transactions (60_exceptions.md R277) -/

/-- A transaction is answered OKAY, or is refused and leaves the state. -/
theorem transact_okay_or_refused (t : Txn) (s : State) :
    (transact t s).2.resp = .okay ∨ ∃ r, transact t s = (s, { resp := r, rdata := 0 }) := by
  cases t with
  | read n addr =>
    cases hr : resolve s.cfg n addr with
    | error r => exact .inr ⟨r, transact_of_resolve_error (v := 0) (.inl rfl) hr⟩
    | ok target =>
      cases hg : target.readGated && s.busy with
      | false => exact .inl (by rw [transact_read hr hg])
      | true =>
        obtain ⟨hgate, hb⟩ := Bool.and_eq_true_iff.1 hg
        exact .inr ⟨.slverr, transact_read_refused hr hgate hb⟩
  | write n addr v =>
    cases hr : resolve s.cfg n addr with
    | error r => exact .inr ⟨r, transact_of_resolve_error (.inr rfl) hr⟩
    | ok target =>
      cases hg : target.writeGated && s.busy with
      | false => exact .inl (by rw [transact_write hr hg])
      | true =>
        obtain ⟨hgate, hb⟩ := Bool.and_eq_true_iff.1 hg
        exact .inr ⟨.slverr, transact_write_refused hr hgate hb⟩

/-- Settles O7: a transaction that is not answered OKAY is one of the refused ones. -/
theorem refusedTransactionsChangeNothing : Obligations.RefusedTransactionsChangeNothing := by
  intro t s hresp
  obtain ⟨r, h⟩ := (transact_okay_or_refused t s).resolve_left hresp
  rw [h]
  exact ⟨rfl, rfl⟩

/-! ## OBUF after a reset (70_reset_and_hazards.md R301) -/

theorem State.obufAfterReset_of_not_atPack {s : State} (h : ¬ s.atPack = true) : s.obufAfterReset = s.obuf := if_neg h

/-- The draws of a reset are the bytes below ENC_BITS / 8 at most. -/
theorem State.read_obufAfterReset {s : State} (hwf : s.obuf.wf = true) {a : Nat} (ha : s.encBits.toNat / 8 ≤ a) :
    s.obufAfterReset.read a = s.obuf.read a := by
  by_cases hp : s.atPack = true
  · have hdrawn : s.drawnBytes ≤ a := (Nat.min_le_left _ _).trans ha
    rw [State.obufAfterReset, if_pos hp, Memory.read_writeBytes _ _ _ _ hwf,
      if_neg (by rw [List.length_map, List.length_range]; omega)]
  · rw [State.obufAfterReset_of_not_atPack hp]

/-- Settles O50: OBUF after a reset is `obufAfterReset`, and the rest is that of power-up. -/
theorem resetLeavesObufButForPack : Obligations.ResetLeavesObufButForPack := by
  intro s ha hwf
  refine ⟨_, step_of_reset ha, rfl, rfl, fun hseq a => ?_, fun a => State.read_obufAfterReset (s := s.popSched) hwf⟩
  have hp : ¬ s.popSched.atPack = true := fun h => by
    obtain ⟨w, rest, hs⟩ := s.popSched.atPack_iff.1 h
    exact hseq w rest hs
  exact congrArg (Memory.read · a) (State.obufAfterReset_of_not_atPack hp)

/-! ## Power-up (70_reset_and_hazards.md R303) -/

/-- At power-up SEQ is idle and no flag is set, so that only the parameters and images have to be legal. -/
theorem State.powerUp_inv {cfg : Config} {i o : Memory} (hcfg : cfg.wellFormed = true) (hi : i.wf = true)
    (hiw : i.within cfg.ibufBytes = true) (ho : o.wf = true) (how : o.within cfg.obufBytes = true) :
    (State.powerUp cfg i o).Inv :=
  (State.inv_iff _).2
    ⟨⟨hcfg, hi, hiw, ho, how⟩, State.sequencerOk_of_idle rfl, State.resultsOk_of_allClear rfl rfl⟩

/-- Settles O51: the invariant for all images, of which those of State.reset are the two that list no byte. -/
theorem invariantHoldsAtPowerUp : Obligations.InvariantHoldsAtPowerUp := by
  refine ⟨fun _ _ _ => State.powerUp_inv, ?_⟩
  obtain ⟨hi, ho⟩ := State.reset_memories_wf
  exact State.powerUp_inv (by decide) hi rfl ho rfl

end Sys2Proof.Machine
end
